-- ==== Sys2Proof/Word.lean ====
section
/-! DEFINITION. The widths of the block's fields (00_scope R10) and the type of a frame's bits (30_encoding R70). -/

namespace Sys2Proof

/-- `DATA_W` (R10): one display-memory nibble, the chip's native word. -/
abbrev Nibble := BitVec 4

/-- `ADDR_W` (R10): the 6-bit display address field. Values 32 to 63 fit it and name no cell (R50). -/
abbrev Addr := BitVec 6

/-- `CMD_W` (R10): the 9-bit command payload. -/
abbrev Code := BitVec 9

/-- The bits sent during one chip-select window, first bit sent at the head (R70). -/
abbrev Frame := List Bool

end Sys2Proof
end

