-- ==== Sys2Proof/Syntax.lean ====
section
/-! DEFINITION. The instructions (wire frames, one constructor per row of spec/opcode_table.json), the command names of
30_encoding R80, and the host operations of 43_host_operations and 44_glyph_renderer, which are the block's
pseudo-instructions (00_scope R3). -/

namespace Sys2Proof

/-- The 35 command names of the code table (R80), in the table's order. -/
inductive Command where
  | sysDis | sysEn | lcdOff | lcdOn | timerDis | wdtDis | timerEn | wdtEn | toneOff | toneOn
  | clrTimer | clrWdt | xtal32k | rc256k | ext256k
  | bias1_2_2com | bias1_2_3com | bias1_2_4com | bias1_3_2com | bias1_3_3com | bias1_3_4com
  | tone4k | tone2k | irqDis | irqEn
  | f1 | f2 | f4 | f8 | f16 | f32 | f64 | f128
  | test | normal
  deriving DecidableEq, Repr, Inhabited

/-- An instruction: a wire frame that the TARGET decodes (R3). No command has an operand besides its code
(41_command_frames), but the code has bits the TARGET ignores (R79, R80): a command constructor carries exactly
those, `x` the lowest ones down to `c[0]` and `y` the ones apart from them, so that no bit of a frame is lost (log 2). The
ENCODER sends them as 0. -/
inductive Instr where
  | sysDis (x : BitVec 1)
  | sysEn (x : BitVec 1)
  | lcdOff (x : BitVec 1)
  | lcdOn (x : BitVec 1)
  | timerDis (x : BitVec 1)
  | wdtDis (x : BitVec 1)
  | timerEn (x : BitVec 1)
  | wdtEn (x : BitVec 1)
  | toneOff (x : BitVec 1)
  | toneOn (x : BitVec 1)
  | clrTimer (x : BitVec 2)
  | clrWdt (x : BitVec 2)
  | xtal32k (x : BitVec 3)
  | rc256k (x : BitVec 3)
  | ext256k (x : BitVec 3)
  | bias1_2_2com (y : BitVec 1) (x : BitVec 1)
  | bias1_2_3com (y : BitVec 1) (x : BitVec 1)
  | bias1_2_4com (y : BitVec 1) (x : BitVec 1)
  | bias1_3_2com (y : BitVec 1) (x : BitVec 1)
  | bias1_3_3com (y : BitVec 1) (x : BitVec 1)
  | bias1_3_4com (y : BitVec 1) (x : BitVec 1)
  | tone4k (x : BitVec 6)
  | tone2k (x : BitVec 5)
  | irqDis (y : BitVec 1) (x : BitVec 4)
  | irqEn (y : BitVec 1) (x : BitVec 4)
  | f1 (y : BitVec 2) (x : BitVec 1)
  | f2 (y : BitVec 2) (x : BitVec 1)
  | f4 (y : BitVec 2) (x : BitVec 1)
  | f8 (y : BitVec 2) (x : BitVec 1)
  | f16 (y : BitVec 2) (x : BitVec 1)
  | f32 (y : BitVec 2) (x : BitVec 1)
  | f64 (y : BitVec 2) (x : BitVec 1)
  | f128 (y : BitVec 2) (x : BitVec 1)
  | test (x : BitVec 1)
  | normal (x : BitVec 1)
  /-- WR: one nibble `d` to address `a` (R73). -/
  | wr (a : Addr) (d : Nibble)
  /-- WRB: the nibbles `ds` to `a`, `a + 1`, … (R74). With one nibble it is the frame of WR (R165). -/
  | wrb (a : Addr) (ds : List Nibble)
  deriving DecidableEq, Repr

/-- The fields of an instruction's frame: a command with its ignored bits as one number, `c[0]` lowest (R72, R79), or
an address and nibbles (R73, R74). -/
inductive Fields where
  | command (n : Command) (x : Nat)
  | write (a : Addr) (ds : List Nibble)
  deriving DecidableEq, Repr

/-- What an instruction's frame holds. -/
def Instr.fields : Instr → Fields
  | .sysDis x => .command .sysDis x.toNat
  | .sysEn x => .command .sysEn x.toNat
  | .lcdOff x => .command .lcdOff x.toNat
  | .lcdOn x => .command .lcdOn x.toNat
  | .timerDis x => .command .timerDis x.toNat
  | .wdtDis x => .command .wdtDis x.toNat
  | .timerEn x => .command .timerEn x.toNat
  | .wdtEn x => .command .wdtEn x.toNat
  | .toneOff x => .command .toneOff x.toNat
  | .toneOn x => .command .toneOn x.toNat
  | .clrTimer x => .command .clrTimer x.toNat
  | .clrWdt x => .command .clrWdt x.toNat
  | .xtal32k x => .command .xtal32k x.toNat
  | .rc256k x => .command .rc256k x.toNat
  | .ext256k x => .command .ext256k x.toNat
  | .bias1_2_2com y x => .command .bias1_2_2com (y ++ x).toNat
  | .bias1_2_3com y x => .command .bias1_2_3com (y ++ x).toNat
  | .bias1_2_4com y x => .command .bias1_2_4com (y ++ x).toNat
  | .bias1_3_2com y x => .command .bias1_3_2com (y ++ x).toNat
  | .bias1_3_3com y x => .command .bias1_3_3com (y ++ x).toNat
  | .bias1_3_4com y x => .command .bias1_3_4com (y ++ x).toNat
  | .tone4k x => .command .tone4k x.toNat
  | .tone2k x => .command .tone2k x.toNat
  | .irqDis y x => .command .irqDis (y ++ x).toNat
  | .irqEn y x => .command .irqEn (y ++ x).toNat
  | .f1 y x => .command .f1 (y ++ x).toNat
  | .f2 y x => .command .f2 (y ++ x).toNat
  | .f4 y x => .command .f4 (y ++ x).toNat
  | .f8 y x => .command .f8 (y ++ x).toNat
  | .f16 y x => .command .f16 (y ++ x).toNat
  | .f32 y x => .command .f32 (y ++ x).toNat
  | .f64 y x => .command .f64 (y ++ x).toNat
  | .f128 y x => .command .f128 (y ++ x).toNat
  | .test x => .command .test x.toNat
  | .normal x => .command .normal x.toNat
  | .wr a d => .write a [d]
  | .wrb a ds => .write a ds

/-- The four control lines (R1), or one thing for each of them. -/
structure Lines (α : Type) where
  cs : α
  rd : α
  wr : α
  data : α
  deriving DecidableEq, Repr

/-- The name of a control line. -/
inductive Line where
  | cs | rd | wr | data
  deriving DecidableEq, Repr

/-- A number the HOST passes: beep's seconds (R191) or a value to show (R211). -/
inductive HostNum where
  | finite (q : Rat)
  | nan
  | posInf
  | negInf
  deriving DecidableEq, Repr

/-- The command operand of `write_command`: named, or given by a value (R183). -/
inductive CmdArg where
  | named (c : Command)
  | value (v : Int)
  deriving DecidableEq, Repr

/-- The eight arguments of `initialize`, in the source's order (R181). -/
structure InitArgs (α : Type) where
  timer : α
  watchdog : α
  clock : α
  biasCom : α
  toneFreq : α
  irq : α
  timebase : α
  mode : α
  deriving DecidableEq, Repr

/-- The operations of the HOST: the block's pseudo-instructions (R86, R180 to R191) and the operations of the Glyph
Renderer (R215 to R221). Operands are unbounded integers: being in range is the admission check's business (R193). -/
inductive HostOp where
  /-- R180. The two records are the GPIO abstraction's answers, "a draw of the environment". -/
  | construct (configured driven : Lines Bool)
  /-- R181, `initialize`; an omitted argument is `none` and takes its value from R182. -/
  | initialise (args : InitArgs (Option Command))
  | writeCommand (c : CmdArg)
  | writeOne (addr nibble : Int)
  | writeBurst (addr : Int) (nibbles : List Int)
  | clearRange (addr count : Int)
  | fillRange (addr count : Int)
  | displayOn
  | displayOff
  | beep (seconds : HostNum)
  | showTemperature (value : HostNum)
  | showHumidity (value : HostNum)
  | showAllSegments
  | clearAll
  | clearTemperatureRegion
  | clearHumidityRegion
  deriving DecidableEq, Repr

end Sys2Proof
end

