-- ==== Sys2Proof/Config.lean ====
section
/-! DEFINITION. The parameters of 00_scope R11 to R13 in one record (R14), the values of the configuration fields
(10_state R26 to R36), and the free values: `Config.draw` and the parameters that no source gives. -/

namespace Sys2Proof

/-- Off or On: `cfg.osc`, `cfg.lcd`, `cfg.tone` (R26, R27, R30). -/
inductive OnOff where
  | off | on
  deriving DecidableEq, Repr

/-- Dis or En: `cfg.timer_out`, `cfg.wdt_out`, `cfg.irq` (R28, R29, R34). -/
inductive Enable where
  | dis | en
  deriving DecidableEq, Repr

/-- `cfg.tone_freq` (R31). -/
inductive ToneFreq where
  | f4k | f2k
  deriving DecidableEq, Repr

/-- `cfg.clk_src` (R32). -/
inductive ClkSrc where
  | xtal32k | rc256k | ext256k
  deriving DecidableEq, Repr

/-- `cfg.bias` (R33). -/
inductive Bias where
  | b1_2 | b1_3
  deriving DecidableEq, Repr

/-- `cfg.com`: 2, 3 or 4 common electrodes (R33). -/
inductive Com where
  | com2 | com3 | com4
  deriving DecidableEq, Repr

/-- `cfg.tb_freq`: 1 to 128 Hz (R35). -/
inductive TbFreq where
  | hz1 | hz2 | hz4 | hz8 | hz16 | hz32 | hz64 | hz128
  deriving DecidableEq, Repr

/-- `cfg.mode` (R36). -/
inductive Mode where
  | normal | test
  deriving DecidableEq, Repr

/-- The TARGET's configuration register (R26 to R36, R45). -/
structure Cfg where
  osc : OnOff
  lcd : OnOff
  timerOut : Enable
  wdtOut : Enable
  tone : OnOff
  toneFreq : ToneFreq
  clkSrc : ClkSrc
  bias : Bias
  com : Com
  irq : Enable
  tbFreq : TbFreq
  mode : Mode
  deriving DecidableEq, Repr

/-- The code of one command (R80): the bits of C8..C1 the TARGET compares (`mask`) and their value. -/
structure CodePattern where
  pattern : BitVec 8
  mask : BitVec 8
  deriving DecidableEq, Repr

/-- The canonical 9-bit value: every ignored bit 0, and `c[0] = 0` (R79, R80). -/
def CodePattern.canonical (p : CodePattern) : Code := (p.pattern &&& p.mask) ++ 0#1

/-- Which bits of the 9-bit code the TARGET ignores, bit 0 first: `c[0]` and the mask's 0 bits (R79, R80). -/
def CodePattern.free (p : CodePattern) : List Bool :=
  (List.range 9).map (fun i => !((p.mask ++ 0#1 : Code).getLsbD i))

/-- `CMD_CODE`: "map from command name to 9-bit value" (R13), with the bits that R80 says the TARGET ignores. -/
structure CodeTable where
  sysDis : CodePattern
  sysEn : CodePattern
  lcdOff : CodePattern
  lcdOn : CodePattern
  timerDis : CodePattern
  wdtDis : CodePattern
  timerEn : CodePattern
  wdtEn : CodePattern
  toneOff : CodePattern
  toneOn : CodePattern
  clrTimer : CodePattern
  clrWdt : CodePattern
  xtal32k : CodePattern
  rc256k : CodePattern
  ext256k : CodePattern
  bias1_2_2com : CodePattern
  bias1_2_3com : CodePattern
  bias1_2_4com : CodePattern
  bias1_3_2com : CodePattern
  bias1_3_3com : CodePattern
  bias1_3_4com : CodePattern
  tone4k : CodePattern
  tone2k : CodePattern
  irqDis : CodePattern
  irqEn : CodePattern
  f1 : CodePattern
  f2 : CodePattern
  f4 : CodePattern
  f8 : CodePattern
  f16 : CodePattern
  f32 : CodePattern
  f64 : CodePattern
  f128 : CodePattern
  test : CodePattern
  normal : CodePattern
  deriving DecidableEq, Repr

/-- The entry of a command. -/
def CodeTable.entry (codes : CodeTable) : Command → CodePattern
  | .sysDis => codes.sysDis
  | .sysEn => codes.sysEn
  | .lcdOff => codes.lcdOff
  | .lcdOn => codes.lcdOn
  | .timerDis => codes.timerDis
  | .wdtDis => codes.wdtDis
  | .timerEn => codes.timerEn
  | .wdtEn => codes.wdtEn
  | .toneOff => codes.toneOff
  | .toneOn => codes.toneOn
  | .clrTimer => codes.clrTimer
  | .clrWdt => codes.clrWdt
  | .xtal32k => codes.xtal32k
  | .rc256k => codes.rc256k
  | .ext256k => codes.ext256k
  | .bias1_2_2com => codes.bias1_2_2com
  | .bias1_2_3com => codes.bias1_2_3com
  | .bias1_2_4com => codes.bias1_2_4com
  | .bias1_3_2com => codes.bias1_3_2com
  | .bias1_3_3com => codes.bias1_3_3com
  | .bias1_3_4com => codes.bias1_3_4com
  | .tone4k => codes.tone4k
  | .tone2k => codes.tone2k
  | .irqDis => codes.irqDis
  | .irqEn => codes.irqEn
  | .f1 => codes.f1
  | .f2 => codes.f2
  | .f4 => codes.f4
  | .f8 => codes.f8
  | .f16 => codes.f16
  | .f32 => codes.f32
  | .f64 => codes.f64
  | .f128 => codes.f128
  | .test => codes.test
  | .normal => codes.normal

/-- `POR_CONFIG`: the configuration at power-on; none is `Unknown` (R37). -/
structure PorCfg where
  osc : Option OnOff
  lcd : Option OnOff
  timerOut : Option Enable
  wdtOut : Option Enable
  tone : Option OnOff
  toneFreq : Option ToneFreq
  clkSrc : Option ClkSrc
  bias : Option Bias
  com : Option Com
  irq : Option Enable
  tbFreq : Option TbFreq
  mode : Option Mode
  deriving DecidableEq, Repr

/-- A configuration of which nothing is known. -/
def PorCfg.unknown : PorCfg := ⟨none, none, none, none, none, none, none, none, none, none, none, none⟩

/-- What a clock source is made of. -/
inductive ClockKind where
  | crystal | onChipRc | external
  deriving DecidableEq, Repr

/-- A system clock source: its kind and its frequency in kilohertz. -/
structure ClockSource where
  kind : ClockKind
  kilohertz : Nat
  deriving DecidableEq, Repr

/-- What an output enable lets out: the time base, the watchdog's time-out flag, or the IRQ pin they share (R28, R29, R34,
R240). -/
inductive EnabledOutput where
  | timeBase | wdtTimeOutFlag | irqPin
  deriving DecidableEq, Repr

/-- What each field stands for, and each of its values in the order of the field's type (R28, R29, R31 to R36). -/
structure FieldValues where
  /-- What `cfg.timer_out`, `cfg.wdt_out` and `cfg.irq` enable. -/
  timerOutput : EnabledOutput
  wdtOutput : EnabledOutput
  irqOutput : EnabledOutput
  /-- `XTAL32K`, `RC256K`, `EXT256K`. -/
  clockSources : ClockSource × ClockSource × ClockSource
  /-- `F4K`, `F2K`: hertz. -/
  toneHertz : Nat × Nat
  /-- `B1_2`, `B1_3`: the bias ratio. -/
  biasRatio : Rat × Rat
  /-- 2, 3 and 4 commons. -/
  commons : Nat × Nat × Nat
  /-- The time-base frequencies, in hertz. -/
  timebaseHertz : Vector Nat 8
  /-- The watchdog's time-out, in periods of the time base (41_command_frames section 9). -/
  wdtPeriods : Nat
  /-- Is `Normal`, is `Test` a mode for users (R36, R155)? -/
  userModes : Bool × Bool
  deriving DecidableEq, Repr

/-- "The meanings of the configuration fields in 10_state.md" (R14): what they stand for and how they act on one
another, all of it the spec's general knowledge of the chip. -/
structure Meanings where
  /-- SYS_DIS turns the LCD bias generator off too (R27, R122). -/
  sysDisStopsLcd : Bool
  /-- The glass is driven only while the oscillator runs (R43). -/
  lcdNeedsOsc : Bool
  /-- The tone sounds only while the oscillator runs (R43). -/
  toneNeedsOsc : Bool
  /-- What the fields' values stand for. -/
  values : FieldValues
  deriving DecidableEq, Repr

/-- A glyph table: a digit's two nibbles in the order they are sent (R213). -/
abbrev GlyphTable := Vector (Nibble × Nibble) 10

/-- The host's float format (R13, R210). -/
inductive FloatFmt where
  | binary32 | binary64
  deriving DecidableEq, Repr, Inhabited

/-- A non-negative duration (R11). -/
abbrev Duration := { q : Rat // 0 ≤ q }

/-- The timing bounds of R11, in microseconds. -/
structure Timing where
  edge : Duration
  css : Duration
  csh : Duration
  gap : Duration
  deriving DecidableEq, Repr

/-- The parameters of R13 and R11 and the meanings of the fields, as one record (R14). -/
structure Params where
  /-- `CMD_CODE`. -/
  codes : CodeTable
  /-- `POR_CONFIG`. -/
  porCfg : PorCfg
  /-- The meanings of the configuration fields. -/
  meanings : Meanings
  /-- `POR_RAM`: the cells with a value at power-on; every other cell is `Unknown`. -/
  porRam : List (Nat × Nibble)
  /-- `INIT_DEFAULTS`. -/
  initDefaults : InitArgs Command
  /-- `GLYPH_T`. -/
  glyphT : GlyphTable
  /-- `GLYPH_H`. -/
  glyphH : GlyphTable
  /-- `FLOAT_FMT`. -/
  floatFmt : FloatFmt
  /-- `SLEEP_GRAN`, in seconds. -/
  sleepGran : Duration
  /-- `T_EDGE`, `T_CSS`, `T_CSH`, `T_GAP`. -/
  timing : Timing
  deriving DecidableEq, Repr

/-- FREE VALUE: the n-th draw of the model (R37: "the model draws any legal value of the field, and a claim must hold
for every draw"). It has no body: no proof can see any value of it (log 5). -/
opaque Config.draw : Nat → Nat

/-- FREE: the temperature glyph table; the spec gives it no default (R13, R213, D18). -/
opaque Config.glyphT : GlyphTable

/-- FREE: the humidity glyph table; the spec gives it no default (R13, R213, D18). -/
opaque Config.glyphH : GlyphTable

/-- FREE: the host's float format; "none: both admitted" (R13, R210, D16). -/
opaque Config.floatFmt : FloatFmt

/-- A drawn bit. -/
def Config.drawBool (n : Nat) : Bool := Config.draw n % 2 == 1

/-- A drawn Off or On. -/
def Config.drawOnOff (n : Nat) : OnOff := if Config.drawBool n then .on else .off

/-- A drawn Dis or En. -/
def Config.drawEnable (n : Nat) : Enable := if Config.drawBool n then .en else .dis

/-- A drawn tone frequency. -/
def Config.drawToneFreq (n : Nat) : ToneFreq := if Config.drawBool n then .f2k else .f4k

/-- A drawn clock source. -/
def Config.drawClkSrc (n : Nat) : ClkSrc :=
  match Config.draw n % 3 with
  | 0 => .xtal32k
  | 1 => .rc256k
  | _ => .ext256k

/-- A drawn bias ratio. -/
def Config.drawBias (n : Nat) : Bias := if Config.drawBool n then .b1_3 else .b1_2

/-- A drawn number of commons. -/
def Config.drawCom (n : Nat) : Com :=
  match Config.draw n % 3 with
  | 0 => .com2
  | 1 => .com3
  | _ => .com4

/-- A drawn time-base frequency. -/
def Config.drawTbFreq (n : Nat) : TbFreq :=
  match Config.draw n % 8 with
  | 0 => .hz1
  | 1 => .hz2
  | 2 => .hz4
  | 3 => .hz8
  | 4 => .hz16
  | 5 => .hz32
  | 6 => .hz64
  | _ => .hz128

/-- A drawn mode. -/
def Config.drawMode (n : Nat) : Mode := if Config.drawBool n then .test else .normal

/-- A drawn nibble. -/
def Config.drawNibble (n : Nat) : Nibble := BitVec.ofNat 4 (Config.draw n)

/-- The code table of R80, the default of `CMD_CODE`, from the HT1621 family's command summary (PRESUMED, log 7). -/
def Config.codes : CodeTable where
  sysDis := ⟨0b00000000#8, 0xFF#8⟩
  sysEn := ⟨0b00000001#8, 0xFF#8⟩
  lcdOff := ⟨0b00000010#8, 0xFF#8⟩
  lcdOn := ⟨0b00000011#8, 0xFF#8⟩
  timerDis := ⟨0b00000100#8, 0xFF#8⟩
  wdtDis := ⟨0b00000101#8, 0xFF#8⟩
  timerEn := ⟨0b00000110#8, 0xFF#8⟩
  wdtEn := ⟨0b00000111#8, 0xFF#8⟩
  toneOff := ⟨0b00001000#8, 0xFF#8⟩
  toneOn := ⟨0b00001001#8, 0xFF#8⟩
  clrTimer := ⟨0b00001100#8, 0xFC#8⟩
  clrWdt := ⟨0b00001110#8, 0xFE#8⟩
  xtal32k := ⟨0b00010100#8, 0xFC#8⟩
  rc256k := ⟨0b00011000#8, 0xFC#8⟩
  ext256k := ⟨0b00011100#8, 0xFC#8⟩
  bias1_2_2com := ⟨0b00100000#8, 0xFD#8⟩
  bias1_2_3com := ⟨0b00100100#8, 0xFD#8⟩
  bias1_2_4com := ⟨0b00101000#8, 0xFD#8⟩
  bias1_3_2com := ⟨0b00100001#8, 0xFD#8⟩
  bias1_3_3com := ⟨0b00100101#8, 0xFD#8⟩
  bias1_3_4com := ⟨0b00101001#8, 0xFD#8⟩
  tone4k := ⟨0b01000000#8, 0xE0#8⟩
  tone2k := ⟨0b01100000#8, 0xF0#8⟩
  irqDis := ⟨0b10000000#8, 0xE8#8⟩
  irqEn := ⟨0b10001000#8, 0xE8#8⟩
  f1 := ⟨0b10100000#8, 0xE7#8⟩
  f2 := ⟨0b10100001#8, 0xE7#8⟩
  f4 := ⟨0b10100010#8, 0xE7#8⟩
  f8 := ⟨0b10100011#8, 0xE7#8⟩
  f16 := ⟨0b10100100#8, 0xE7#8⟩
  f32 := ⟨0b10100101#8, 0xE7#8⟩
  f64 := ⟨0b10100110#8, 0xE7#8⟩
  f128 := ⟨0b10100111#8, 0xE7#8⟩
  test := ⟨0b11100000#8, 0xFF#8⟩
  normal := ⟨0b11100011#8, 0xFF#8⟩

/-- The default of `POR_CONFIG`: the table of R37 (log 7). -/
def Config.porCfg : PorCfg where
  osc := some .off
  lcd := some .off
  timerOut := none
  wdtOut := none
  tone := some .off
  toneFreq := none
  clkSrc := some .rc256k
  bias := none
  com := none
  irq := some .dis
  tbFreq := none
  mode := some .normal

/-- The meanings of the HT1621 family, which the spec gives the fields (R27 to R36, R43; PRESUMED, log 7). -/
def Config.meanings : Meanings where
  sysDisStopsLcd := true
  lcdNeedsOsc := true
  toneNeedsOsc := true
  values :=
    { timerOutput := .timeBase
      wdtOutput := .wdtTimeOutFlag
      irqOutput := .irqPin
      clockSources := (⟨.crystal, 32⟩, ⟨.onChipRc, 256⟩, ⟨.external, 256⟩)
      toneHertz := (4000, 2000)
      biasRatio := (1 / 2, 1 / 3)
      commons := (2, 3, 4)
      timebaseHertz := #v[1, 2, 4, 8, 16, 32, 64, 128]
      wdtPeriods := 4
      userModes := (true, false) }

/-- A configuration at power-on: the values of the table, and the draws `n` to `n + 11`, one for each field in the
order of R26 to R36, for its `Unknown` fields (R37, log 5). -/
def PorCfg.drawn (c : PorCfg) (n : Nat) : Cfg where
  osc := c.osc.getD (Config.drawOnOff n)
  lcd := c.lcd.getD (Config.drawOnOff (n + 1))
  timerOut := c.timerOut.getD (Config.drawEnable (n + 2))
  wdtOut := c.wdtOut.getD (Config.drawEnable (n + 3))
  tone := c.tone.getD (Config.drawOnOff (n + 4))
  toneFreq := c.toneFreq.getD (Config.drawToneFreq (n + 5))
  clkSrc := c.clkSrc.getD (Config.drawClkSrc (n + 6))
  bias := c.bias.getD (Config.drawBias (n + 7))
  com := c.com.getD (Config.drawCom (n + 8))
  irq := c.irq.getD (Config.drawEnable (n + 9))
  tbFreq := c.tbFreq.getD (Config.drawTbFreq (n + 10))
  mode := c.mode.getD (Config.drawMode (n + 11))

/-- `INIT_DEFAULTS` (R182). -/
def Config.initDefaults : InitArgs Command where
  timer := .timerDis
  watchdog := .wdtDis
  clock := .rc256k
  biasCom := .bias1_3_4com
  toneFreq := .tone4k
  irq := .irqDis
  timebase := .f128
  mode := .normal

/-- The nominal bounds of R11 in microseconds: `T_EDGE` is 4, and the others are `T_EDGE` (D6). -/
def Config.nominalTiming : Timing where
  edge := ⟨4, by decide⟩
  css := ⟨4, by decide⟩
  csh := ⟨4, by decide⟩
  gap := ⟨4, by decide⟩

/-- The default parameters of R13, which State.reset holds; for the parameters without a default, the free constants
above (log 31). -/
def Config.params : Params where
  codes := Config.codes
  porCfg := Config.porCfg
  meanings := Config.meanings
  porRam := []
  initDefaults := Config.initDefaults
  glyphT := Config.glyphT
  glyphH := Config.glyphH
  floatFmt := Config.floatFmt
  sleepGran := ⟨0, by decide⟩
  timing := Config.nominalTiming

/-- `N_RAM` (R10). -/
abbrev Config.nRam : Nat := 32

/-- `HUM_BASE`, `TEMP_BASE` and `REGION_LEN` (R12). -/
abbrev Config.humBase : Int := 0x00
abbrev Config.tempBase : Int := 0x0A
abbrev Config.regionLen : Int := 10

end Sys2Proof
end

