-- ==== Sys2Proof/WellFormed.lean ====
section
/-! DEFINITION. Which instructions the ENCODER may send (30_encoding R77): canonical commands other than TEST, and write
frames that stay inside the 32 cells. -/

namespace Sys2Proof

/-- A write of `n` nibbles at `a` is admitted: `0 <= a <= 31` and `n <= 32 - a` (R77, R163). -/
def writeFits (a : Addr) (n : Nat) : Bool := a.toNat < Config.nRam && a.toNat + n ≤ Config.nRam

/-- R77: a command is admitted with every ignored bit 0 (its canonical value), TEST never; a write when it fits. -/
def Instr.wellFormed (i : Instr) : Bool :=
  match i.fields with
  | .command n x => n != .test && x == 0
  | .write a ds => writeFits a ds.length

end Sys2Proof
end

