-- ==== Sys2Proof/Decode.lean ====
section
/-! DEFINITION. Frames: the emission of fields (30_encoding R15, R53, R76), the decoder of 9-bit commands (R81), the decoder
of whole frames (R71 to R75) and after it the encoder (R72 to R74, R80), for any code table (00_scope R13, R14). Then the
host's reading of a table word. -/

namespace Sys2Proof

/-- `bits(v, w)` (R15): the low `w` bits of `v`, most significant first. -/
def bitsOf : Nat → Nat → List Bool
  | 0, _ => []
  | w + 1, v => v.testBit w :: bitsOf w v

/-- `value(bs)` (R121): the list as a binary number, first bit most significant. -/
def valueOf (bs : List Bool) : Nat := bs.foldl (fun n b => 2 * n + b.toNat) 0

/-- The flag of a command frame (R71). -/
def commandFlag : List Bool := [true, false, false]

/-- The flag of a write frame (R71). -/
def writeFlag : List Bool := [true, false, true]

/-- `CommandFrame(c)` (R120). -/
def commandFrame (c : Code) : Frame := commandFlag ++ bitsOf 9 c.toNat

/-- `WriteFrame(a, ds)` (R163). -/
def writeFrame (a : Addr) (ds : List Nibble) : Frame :=
  writeFlag ++ bitsOf 6 a.toNat ++ ds.flatMap (fun d => bitsOf 4 d.toNat)

/-- A row of the code table (R80). -/
structure Row where
  cmd : Command
  code : CodePattern
  deriving DecidableEq, Repr

/-- A row of the code table matches an 8-bit function code: `(c[8:1] AND mask) = (pattern with X as 0)` (R81). -/
def Row.hits (r : Row) (k : BitVec 8) : Bool := k &&& r.code.mask == r.code.pattern &&& r.code.mask

/-- How many bits a row compares. -/
def Row.weight (r : Row) : Nat := (bitsOf 8 r.code.mask.toNat).count true

/-- Of two matching rows, the one whose mask has more 1 bits (R81). Where both have equally many, which R80's table never
gives and R81 does not settle for another, the row that stands first in R80's order: the model's choice (log 36). -/
def Row.better (r : Row) : Option Row → Row
  | none => r
  | some q => if q.weight < r.weight then r else q

/-- The row of a received 9-bit command, `c[0]` ignored (R79, R81); none for a reserved code (R82). -/
def findRow (rows : List Row) (c : Code) : Option Row :=
  rows.foldl (fun best r => if r.hits (c.extractLsb' 1 8) then some (r.better best) else best) none

/-- The command names in the order of R80. -/
def Command.all : List Command :=
  [.sysDis, .sysEn, .lcdOff, .lcdOn, .timerDis, .wdtDis, .timerEn, .wdtEn, .toneOff, .toneOn, .clrTimer, .clrWdt] ++
  [.xtal32k, .rc256k, .ext256k, .bias1_2_2com, .bias1_2_3com, .bias1_2_4com, .bias1_3_2com, .bias1_3_3com] ++
  [.bias1_3_4com, .tone4k, .tone2k, .irqDis, .irqEn, .f1, .f2, .f4, .f8, .f16, .f32, .f64, .f128, .test, .normal]

/-- The rows of a code table. -/
def CodeTable.rows (codes : CodeTable) : List Row := Command.all.map (fun n => ⟨n, codes.entry n⟩)

/-- The command a received 9-bit value stands for (R81). -/
def CodeTable.lookup (codes : CodeTable) (c : Code) : Option Command := (findRow codes.rows c).map Row.cmd

/-- `CMD_CODE[n]`, the canonical 9-bit value of a command (R79, R80). -/
def CodeTable.code (codes : CodeTable) (n : Command) : Code := (codes.entry n).canonical

/-- The bits of `c` that stand in the places marked in `places`. -/
def gather : List Bool → Nat → Nat
  | [], _ => 0
  | true :: places, c => c % 2 + 2 * gather places (c / 2)
  | false :: places, c => gather places (c / 2)

/-- The instruction of a command with ignored bits `x`, as many as it holds. -/
def Command.toInstr (x : Nat) : Command → Instr
  | .sysDis => .sysDis (BitVec.ofNat 1 x)
  | .sysEn => .sysEn (BitVec.ofNat 1 x)
  | .lcdOff => .lcdOff (BitVec.ofNat 1 x)
  | .lcdOn => .lcdOn (BitVec.ofNat 1 x)
  | .timerDis => .timerDis (BitVec.ofNat 1 x)
  | .wdtDis => .wdtDis (BitVec.ofNat 1 x)
  | .timerEn => .timerEn (BitVec.ofNat 1 x)
  | .wdtEn => .wdtEn (BitVec.ofNat 1 x)
  | .toneOff => .toneOff (BitVec.ofNat 1 x)
  | .toneOn => .toneOn (BitVec.ofNat 1 x)
  | .clrTimer => .clrTimer (BitVec.ofNat 2 x)
  | .clrWdt => .clrWdt (BitVec.ofNat 2 x)
  | .xtal32k => .xtal32k (BitVec.ofNat 3 x)
  | .rc256k => .rc256k (BitVec.ofNat 3 x)
  | .ext256k => .ext256k (BitVec.ofNat 3 x)
  | .bias1_2_2com => .bias1_2_2com (BitVec.ofNat 1 (x / 2)) (BitVec.ofNat 1 x)
  | .bias1_2_3com => .bias1_2_3com (BitVec.ofNat 1 (x / 2)) (BitVec.ofNat 1 x)
  | .bias1_2_4com => .bias1_2_4com (BitVec.ofNat 1 (x / 2)) (BitVec.ofNat 1 x)
  | .bias1_3_2com => .bias1_3_2com (BitVec.ofNat 1 (x / 2)) (BitVec.ofNat 1 x)
  | .bias1_3_3com => .bias1_3_3com (BitVec.ofNat 1 (x / 2)) (BitVec.ofNat 1 x)
  | .bias1_3_4com => .bias1_3_4com (BitVec.ofNat 1 (x / 2)) (BitVec.ofNat 1 x)
  | .tone4k => .tone4k (BitVec.ofNat 6 x)
  | .tone2k => .tone2k (BitVec.ofNat 5 x)
  | .irqDis => .irqDis (BitVec.ofNat 1 (x / 16)) (BitVec.ofNat 4 x)
  | .irqEn => .irqEn (BitVec.ofNat 1 (x / 16)) (BitVec.ofNat 4 x)
  | .f1 => .f1 (BitVec.ofNat 2 (x / 2)) (BitVec.ofNat 1 x)
  | .f2 => .f2 (BitVec.ofNat 2 (x / 2)) (BitVec.ofNat 1 x)
  | .f4 => .f4 (BitVec.ofNat 2 (x / 2)) (BitVec.ofNat 1 x)
  | .f8 => .f8 (BitVec.ofNat 2 (x / 2)) (BitVec.ofNat 1 x)
  | .f16 => .f16 (BitVec.ofNat 2 (x / 2)) (BitVec.ofNat 1 x)
  | .f32 => .f32 (BitVec.ofNat 2 (x / 2)) (BitVec.ofNat 1 x)
  | .f64 => .f64 (BitVec.ofNat 2 (x / 2)) (BitVec.ofNat 1 x)
  | .f128 => .f128 (BitVec.ofNat 2 (x / 2)) (BitVec.ofNat 1 x)
  | .test => .test (BitVec.ofNat 1 x)
  | .normal => .normal (BitVec.ofNat 1 x)

/-- Why a list of bits is no instruction. -/
inductive DecodeError where
  /-- A flag other than `100` and `101` (R71). -/
  | unknownFlag (flag : List Bool)
  /-- A reserved command code (R82). -/
  | unknownCommand (c : Code)
  /-- A command code with more ignored bits than its instruction holds, under another code table (log 31). -/
  | unrepresentable (c : Code)
  /-- Not the 12 bits of a command frame, nor the 9 + 4N of a write frame (R75). -/
  | badLength (n : Nat)
  deriving DecidableEq, Repr

/-- The nibbles of a write frame's data part; none if the last one is partial (R74). -/
def nibblesOf : List Bool → Option (List Nibble)
  | [] => some []
  | d3 :: d2 :: d1 :: d0 :: rest =>
    (nibblesOf rest).map (fun ds => BitVec.ofNat 4 (valueOf [d3, d2, d1, d0]) :: ds)
  | _ => none

/-- A write frame: one nibble is WR (R73), any other number is WRB (R74). -/
def writeInstr (a : Addr) : List Nibble → Instr
  | [d] => .wr a d
  | ds => .wrb a ds

/-- The payload of a command frame (R72, R81): the command and the ignored bits, which its instruction has to hold. -/
def decodeCommand (codes : CodeTable) (payload : List Bool) : Except DecodeError Instr :=
  if payload.length = 9 then
    let c : Code := BitVec.ofNat 9 (valueOf payload)
    match codes.lookup c with
    | some n =>
      let x := gather (codes.entry n).free c.toNat
      if (n.toInstr x).fields = .command n x then .ok (n.toInstr x) else .error (.unrepresentable c)
    | none => .error (.unknownCommand c)
  else .error (.badLength (payload.length + 3))

/-- The payload of a write frame (R73, R74). -/
def decodeWrite (payload : List Bool) : Except DecodeError Instr :=
  if payload.length < 6 then .error (.badLength (payload.length + 3))
  else
    match nibblesOf (payload.drop 6) with
    | some ds => .ok (writeInstr (BitVec.ofNat 6 (valueOf (payload.take 6))) ds)
    | none => .error (.badLength (payload.length + 3))

/-- The instruction of a frame, or why there is none (R71 to R75, R81, R82). Total on every list of bits. -/
def decode (codes : CodeTable) (f : Frame) : Except DecodeError Instr :=
  if f.length < 3 then .error (.badLength f.length)
  else if f.take 3 = commandFlag then decodeCommand codes (f.drop 3)
  else if f.take 3 = writeFlag then decodeWrite (f.drop 3)
  else .error (.unknownFlag (f.take 3))

/-! ## The encoder, from the same table -/

/-- The bits of `x` put into the places marked in `places`, lowest place first. -/
def spread : List Bool → Nat → Nat
  | [], _ => 0
  | true :: places, x => x % 2 + 2 * spread places (x / 2)
  | false :: places, x => 2 * spread places x

/-- The 9-bit value of a command with its ignored bits `x` in their places (R80). -/
def CodeTable.codeWith (codes : CodeTable) (n : Command) (x : Nat) : Code :=
  codes.code n ||| BitVec.ofNat 9 (spread (codes.entry n).free x)

/-- The bits of an instruction's frame (R72 to R74, R80). -/
def encode (codes : CodeTable) (i : Instr) : Frame :=
  match i.fields with
  | .command n x => commandFrame (codes.codeWith n x)
  | .write a ds => writeFrame a ds

/-- The one instruction of each frame that the decoder answers: a burst of one nibble is WR (R165, log 24). -/
def Instr.canon : Instr → Instr
  | .wrb a [d] => .wr a d
  | i => i

/-! ## A word of the opcode table -/

/-- A frame shorter than the 9 bits of an empty burst gets the 0 bits the table's word left out (log 26). -/
def padFrame (f : Frame) : Frame := f ++ List.replicate (9 - f.length) false

/-- The frame of a table word (log 26): the table numbers a frame's last bit 0, and every flag starts with 1, so the
frame starts at the word's highest 1 bit. -/
def frameOfWord (nbits w : Nat) : Frame := padFrame ((bitsOf nbits w).dropWhile (fun b => !b))

/-- The instruction of a word of spec/opcode_table.json, whose codes are the default ones (R80). -/
def decodeTableWord (nbits w : Nat) : Option Instr :=
  match decode Config.codes (frameOfWord nbits w) with
  | .ok i => some i
  | .error _ => none

end Sys2Proof
end

