-- ==== Sys2Proof/Machine/Memory.lean ====
section
/-! DEFINITION. The display memory and the named operations over it (20_memory R50 to R56). -/

namespace Sys2Proof.Machine

/-- The display memory (R39): the cells that hold a value, as (cell number, value) pairs with rising cell numbers.
A cell that is not listed is `Unknown` (log 6). -/
abbrev Memory := List Host.Cell

/-- The canonical form: rising cell numbers below 32, and values of 4 bits (R50, log 29). -/
abbrev Memory.wf (m : Memory) : Prop :=
  m.Pairwise (fun c d => c.1 < d.1) ∧ ∀ c ∈ m, c.1 < Config.nRam ∧ c.2.toNat < 16

/-- The content of a cell; none is `Unknown` (R39). The block performs no read (R52): claims use this. -/
def Memory.get (m : Memory) (a : Nat) : Option Nibble :=
  match m with
  | [] => none
  | c :: rest => if c.1 = a then some (c.2.setWidth 4) else Memory.get rest a

/-- `MemWrite(a, 1, v)` (R16, R55). -/
def Memory.put (m : Memory) (a : Nat) (v : Nibble) : Memory :=
  match m with
  | [] => [(a, v.setWidth 8)]
  | c :: rest =>
    if a < c.1 then (a, v.setWidth 8) :: c :: rest
    else if a = c.1 then (a, v.setWidth 8) :: rest
    else c :: Memory.put rest a v

/-- The cells `a`, `a + 1`, … written in increasing order (R165). -/
def Memory.putAll (m : Memory) (a : Nat) : List Nibble → Memory
  | [] => m
  | d :: ds => Memory.putAll (m.put a d) (a + 1) ds

/-- The display memory at power-on: `POR_RAM`'s values in the cells that exist (R39, R50). -/
def Memory.powerOn (cells : List (Nat × Nibble)) : Memory :=
  cells.foldl (fun m c => if c.1 < Config.nRam then m.put c.1 c.2 else m) []

end Sys2Proof.Machine
end

