-- ==== Sys2Proof/Machine/State.lean ====
section
/-! DEFINITION. The state of the three agents as plain data (10_state R22 to R42, R45), the spec's fault records
(60_exceptions R231 to R242), the model's stop reasons, and the state after power-on (70_reset_and_hazards R260). -/

namespace Sys2Proof.Machine

/-- Why a step stops. The block has no trap (R230): each of its own errors is a record in `faults`, and the machine goes
on (R231). -/
inductive Fault where
  /-- A race on the wire. Raised by `onQuietWire` where a frame or a window would start while another agent's edges have
  left CS, RD or WR low: R102's precondition CS = RD = WR = 1 fails, and R273 says "the model has no such run" (log
  34). Safe: nothing is claimed of such a run. -/
  | lineConflict
  deriving DecidableEq, Repr

/-- Why an instruction has no meaning here. -/
inductive Refusal where
  /-- Raised by an arm of `exec` for an instruction that has no meaning yet, by its mnemonic. Safe: nothing is claimed
  of it. No arm raises it. -/
  | notModelled (mnemonic : String)
  deriving DecidableEq, Repr

/-- A line level (R22): low, high, or `Unknown`, which stands for either (log 9). -/
inductive Level where
  | low | high | unknown
  deriving DecidableEq, Repr

/-- The level of a driven bit: 1 is high (R22). -/
def Level.ofBool (b : Bool) : Level := if b then .high else .low

/-- Construction status (R23). -/
inductive Status where
  | unclaimed | ready | failed
  deriving DecidableEq, Repr

/-- The position inside SendFrame (R24, R102). -/
inductive Phase where
  | idle | csSetup | bitLow | bitHigh | csHold | gap
  deriving DecidableEq, Repr

/-- What an operation still has to do: send a frame, or sleep some seconds (beep, R191). -/
inductive Action where
  | frame (f : Frame)
  | sleep (seconds : Rat)
  deriving DecidableEq, Repr

/-- The ENCODER's status and sequencing position (R23, R24). -/
structure Encoder where
  status : Status
  /-- The operation in progress. -/
  op : Option HostOp
  /-- The frames of that operation still to send. -/
  todo : List Action
  /-- The frame being sent; empty outside a frame. -/
  frame : Frame
  /-- The index of the next bit to send. -/
  k : Nat
  phase : Phase
  deriving DecidableEq, Repr

/-- The operand an `OperandRange` fault names (R234). -/
inductive Operand where
  | command (c : CmdArg)
  | address (a : Int)
  | nibble (d : Int)
  | count (n : Int)
  | duration (s : HostNum)
  | value (v : HostNum)
  /-- Bits queued for the ENCODER that are no instruction: no canonical command and no write frame (log 33). -/
  | frame (f : Frame)
  deriving DecidableEq, Repr

/-- The spec's faults with the values they record (R232 to R241). -/
inductive BlockFault where
  | lineAccessError (l : Line)
  | alreadyClaimed (status : Status)
  | notConstructed
  | operandRange (o : Operand)
  | addressOverflow (a : Int)
  | unknownFrameId (bits : List Bool)
  | unknownCommand (c : Code)
  | testModeUnmodelled (c : Code)
  | frameOverrun
  deriving DecidableEq, Repr

/-- Who raised a fault (R231); the renderer for its own inputs (R234, log 21). -/
inductive Agent where
  | encoder | target | renderer
  deriving DecidableEq, Repr

/-- `(F, info, agent, op)` (R231). -/
structure FaultRecord where
  fault : BlockFault
  agent : Agent
  op : Option HostOp
  deriving DecidableEq, Repr

/-- An abstract counter value (R38): 0 at the clear itself, `Unknown` once time has passed (log 8). -/
inductive Count where
  | unknown | zero
  deriving DecidableEq, Repr

/-- The time-base and watchdog counters and their clear events (R38, R45). -/
structure Counters where
  tbCount : Count
  wdtCount : Count
  tbClears : Nat
  wdtClears : Nat
  deriving DecidableEq, Repr

/-- The receiver's states (R40). -/
inductive RxState where
  | idle
  | id (b : List Bool)
  | cmd (b : List Bool)
  | cmdDone
  | addr (b : List Bool)
  | data (b : List Bool)
  | discard
  deriving DecidableEq, Repr

/-- The serial receiver (R40 to R42). -/
structure Receiver where
  st : RxState
  ptr : Nat
  csPrev : Level
  wrPrev : Level
  deriving DecidableEq, Repr

/-- The TARGET (R9): configuration, counters, display memory and receiver. -/
structure Target where
  cfg : Cfg
  counters : Counters
  ram : Memory
  rx : Receiver
  deriving DecidableEq, Repr

/-- A named lower bound of R11, or beep's sleep of some seconds (R191). -/
inductive Delay where
  | edge | css | csh | gap
  | sleep (seconds : Rat)
  deriving DecidableEq, Repr

/-- An event of the waveform (R111). -/
inductive WaveEvent where
  | set (l : Line) (b : Bool)
  | wait (d : Delay)
  deriving DecidableEq, Repr

/-- What an operation returned to the HOST (R192). -/
inductive Result where
  | ok
  | refused (k : BlockFault)
  deriving DecidableEq, Repr

/-- Who makes the chip-select window now on the wire: the ENCODER, or, in hand-made waveforms only, another agent
(R115, 95_test_vectors P5; log 1). -/
inductive Driver where
  | encoder | foreign
  deriving DecidableEq, Repr

/-- What the outside world does next. -/
inductive Item where
  /-- A call the HOST has issued and that waits for its turn (R186). -/
  | call (op : HostOp)
  /-- Another agent's correctly timed chip-select window with these bits (95_test_vectors P5 part B). -/
  | window (f : Frame)
  /-- Another agent drives one line (V-B5). -/
  | edge (l : Line) (b : Bool)
  /-- Another agent's interval below the timing bounds (R114). -/
  | tooShort
  /-- A power cycle (R269). -/
  | powerCycle
  deriving DecidableEq, Repr

/-- The whole state (R45), grouped by agent, with the model's own fields at the end. -/
structure State where
  line : Lines Level
  enc : Encoder
  faults : List FaultRecord
  target : Target
  /-- The model's own: who makes the window now on the wire. -/
  driver : Driver
  /-- The model's own: the inputs that wait, oldest first (log 15). -/
  inbox : List Item
  /-- The model's own: the waveform recorded so far, oldest event first (R16, R111, log 13). -/
  wave : List WaveEvent
  /-- The model's own: what the last finished operation returned (R192). -/
  result : Option Result
  /-- The model's own: the number of the next draw (log 5). -/
  draws : Nat
  /-- The model's own: the parameters the machine is built with (R13, R14); no step changes them (R44, log 31). -/
  params : Params
  deriving DecidableEq, Repr

/-- One thing for all four lines. -/
def allLines (l : Level) : Lines Level := ⟨l, l, l, l⟩

/-- The TARGET at power-on (R260), its `Unknown` values the draws `n` to `n + 12` (log 5). -/
def Target.powerOn (p : Params) (n : Nat) : Target where
  cfg := p.porCfg.drawn n
  counters := ⟨.unknown, .unknown, 0, 0⟩
  ram := Memory.powerOn p.porRam
  rx := ⟨.idle, Config.draw (n + 12), .unknown, .unknown⟩

/-- The state at power-on (R260) of a machine with parameters `p`, with the draws from `n` on and the inputs `inbox`
waiting. -/
def State.powerOn (p : Params) (n : Nat) (inbox : List Item) : State where
  line := allLines .unknown
  enc := ⟨.unclaimed, none, [], [], 0, .idle⟩
  faults := []
  target := Target.powerOn p n
  driver := .encoder
  inbox := inbox
  wave := []
  result := none
  draws := n + 13
  params := p

/-- The machine right after power-on, the only reset (R260, R261): no operation has been issued. Its parameters are the
defaults of R13. -/
def State.reset : State := State.powerOn Config.params 0 []

end Sys2Proof.Machine
end

