-- ==== Sys2Proof/Machine/Ops.lean ====
section
/-! DEFINITION. The named operations over the lines, the waveform and the fault set; raising a fault
(60_exceptions R231) is one operation for each agent. -/

namespace Sys2Proof.Machine

/-! ## Faults -/

/-- A set insertion: a record already there is not listed twice (R25, log 20). -/
def addFault (r : FaultRecord) (fs : List FaultRecord) : List FaultRecord :=
  if r ∈ fs then fs else fs ++ [r]

/-- `raise F(info)` (R16, R231): add the record, with the operation given. -/
def raise (k : BlockFault) (agent : Agent) (op : Option HostOp) (s : State) : State :=
  { s with faults := addFault ⟨k, agent, op⟩ s.faults }

/-- The agent that raises a fault before any line moves: the renderer for its own input values (R234, log 21), the
ENCODER for everything else. -/
def BlockFault.raiser : BlockFault → Agent
  | .operandRange (.value _) => .renderer
  | _ => .encoder

/-- An ENCODER fault ends the operation (R231): the record is added, the operation returns it, nothing is left to
send. -/
def refuse (k : BlockFault) (op : Option HostOp) (s : State) : State :=
  { raise k k.raiser op s with
    enc := { s.enc with op := none, todo := [] }
    result := some (.refused k) }

/-- The faults the TARGET raised at a sampling edge (R231); the ENCODER is not told. `op` is the operation in
progress. -/
def noteTarget (ks : List BlockFault) (s : State) : State :=
  ks.foldl (fun s k => raise k .target s.enc.op s) s

/-- The return of an admitted operation (R192). There is no handler and so no return from a fault (R245): this is the
only return the block has. -/
def finishOp (s : State) : State :=
  { s with enc := { s.enc with op := none }, result := some .ok }

/-! ## Lines and waveform -/

/-- The level of one line set. -/
def setLine (l : Line) (v : Level) (ls : Lines Level) : Lines Level :=
  match l with
  | .cs => { ls with cs := v }
  | .rd => { ls with rd := v }
  | .wr => { ls with wr := v }
  | .data => { ls with data := v }

/-- Record waveform events (R111). -/
def record (es : List WaveEvent) (s : State) : State := { s with wave := s.wave ++ es }

/-- The bit an agent sees on a line; an `Unknown` level is a draw (R22, R42, log 9). -/
def sense (l : Level) (s : State) : Bool × State :=
  match l with
  | .low => (false, s)
  | .high => (true, s)
  | .unknown => (Config.drawBool s.draws, { s with draws := s.draws + 1 })

/-- Time passes: the counters run on to values nobody knows (R38, log 8). -/
def Target.age (t : Target) : Target :=
  { t with counters := { t.counters with tbCount := .unknown, wdtCount := .unknown } }

/-- `wait(t)` of the ENCODER (R16): recorded in the waveform, and time passes. -/
def wait (d : Delay) (s : State) : State :=
  { record [.wait d] s with target := s.target.age }

/-! ## The least time a waveform takes -/

/-- The lower bound of one wait in microseconds (R11, R277). -/
def Delay.bound (t : Timing) (gran : Duration) : Delay → Rat
  | .edge => t.edge.val
  | .css => t.css.val
  | .csh => t.csh.val
  | .gap => t.gap.val
  | .sleep s => max 0 (s - gran.val) * 1000000

/-- The least duration of a waveform in microseconds: the sum of its waits' bounds (R113). -/
def minDuration (t : Timing) (gran : Duration) : List WaveEvent → Rat
  | [] => 0
  | .set _ _ :: es => minDuration t gran es
  | .wait d :: es => d.bound t gran + minDuration t gran es

end Sys2Proof.Machine
end

