-- ==== Sys2Proof/Machine/Operands.lean ====
section
/-! DEFINITION. Operand forms and their admission by the ENCODER (30_encoding R77, 43_host_operations R193, R194): each check
answers the fault it raises, or none. The code table and the defaults are parameters (00_scope R13). -/

namespace Sys2Proof.Machine

/-- The first check that fails (R193, R243). Where one check of R243 covers several operands, the operand it names is the
first in the order of this list: the model's choice (log 35). -/
def firstFault : List (Option BlockFault) → Option BlockFault
  | [] => none
  | some k :: _ => some k
  | none :: rest => firstFault rest

/-- The fault `k` unless `ok`. -/
def faultUnless (ok : Bool) (k : BlockFault) : Option BlockFault := if ok then none else some k

/-- An address is 0 to 31 (R77). -/
def checkAddress (a : Int) : Option BlockFault :=
  faultUnless (0 ≤ a && a < Config.nRam) (.operandRange (.address a))

/-- A nibble is 0 to 15 (R77). -/
def checkNibble (d : Int) : Option BlockFault := faultUnless (0 ≤ d && d ≤ 15) (.operandRange (.nibble d))

/-- A count is at least 0 (R193). -/
def checkCount (n : Int) : Option BlockFault := faultUnless (0 ≤ n) (.operandRange (.count n))

/-- The beep duration is finite and at least 0 (R191, R193). -/
def checkDuration (d : HostNum) : Option BlockFault :=
  match d with
  | .finite q => faultUnless (0 ≤ q) (.operandRange (.duration d))
  | _ => some (.operandRange (.duration d))

/-- The last nibble of `n` at `a` lands below 32, else `AddressOverflow(a + n - 1)` (R193). -/
def checkFit (a n : Int) : Option BlockFault := faultUnless (a + n ≤ Config.nRam) (.addressOverflow (a + n - 1))

/-- The 9-bit value a command operand gives (R183). -/
def argCode (codes : CodeTable) : CmdArg → Int
  | .named c => (codes.code c).toNat
  | .value v => v

/-- The commands the ENCODER admits: every name but TEST (R77). -/
def admitted (n : Command) : Bool := n != .test

/-- Is the value the canonical one of an admitted command (R77)? Only values are compared: under another code table that
gives TEST the canonical value of such a command, which R77, R155 and R183 do not speak of, that value and its frame are
admitted, as the other command's: the model's choice (log 38). -/
def canonicalCode (codes : CodeTable) (v : Int) : Bool :=
  Command.all.any (fun n => admitted n && ((codes.code n).toNat : Int) == v)

/-- The command operand of `write_command` (R183): canonical, and not TEST, which by its name is refused under every code
table (R155); a non-canonical value is refused, not normalised. -/
def checkCommand (codes : CodeTable) (c : CmdArg) : Option BlockFault :=
  faultUnless (c != .named .test && canonicalCode codes (argCode codes c)) (.operandRange (.command c))

/-! ## Categories of initialize's arguments (R194) -/

def timerCmds : List Command := [.timerDis, .timerEn]
def watchdogCmds : List Command := [.wdtDis, .wdtEn]
def clockCmds : List Command := [.xtal32k, .rc256k, .ext256k]
def biasComCmds : List Command :=
  [.bias1_2_2com, .bias1_2_3com, .bias1_2_4com, .bias1_3_2com, .bias1_3_3com, .bias1_3_4com]
def toneFreqCmds : List Command := [.tone4k, .tone2k]
def irqCmds : List Command := [.irqDis, .irqEn]
def timebaseCmds : List Command := [.f1, .f2, .f4, .f8, .f16, .f32, .f64, .f128]
def modeCmds : List Command := [.normal]

/-- An argument of `initialize` is of its category (R194). -/
def checkCategory (category : List Command) (c : Command) : Option BlockFault :=
  faultUnless (category.contains c) (.operandRange (.command (.named c)))

/-- The eight category checks (R194); the first wrong argument in the argument order is the one named (log 35). -/
def checkInit (a : InitArgs Command) : Option BlockFault :=
  firstFault [checkCategory timerCmds a.timer, checkCategory watchdogCmds a.watchdog, checkCategory clockCmds a.clock,
    checkCategory biasComCmds a.biasCom, checkCategory toneFreqCmds a.toneFreq, checkCategory irqCmds a.irq,
    checkCategory timebaseCmds a.timebase, checkCategory modeCmds a.mode]

/-- An omitted argument takes its default from `d` (R181, R182). -/
def withDefaults (d : InitArgs Command) (a : InitArgs (Option Command)) : InitArgs Command :=
  { timer := a.timer.getD d.timer, watchdog := a.watchdog.getD d.watchdog, clock := a.clock.getD d.clock
    biasCom := a.biasCom.getD d.biasCom, toneFreq := a.toneFreq.getD d.toneFreq, irq := a.irq.getD d.irq
    timebase := a.timebase.getD d.timebase, mode := a.mode.getD d.mode }

/-! ## An instruction's own operands (R77) -/

/-- The fault of a write of `n` nibbles at the 6-bit address `a`: the address first, then the end (R193, R243). -/
def writeFault (a : Addr) (n : Nat) : Option BlockFault := firstFault [checkAddress a.toNat, checkFit a.toNat n]

/-- The fault the ENCODER raises for an instruction it may not send (R77), none if it may. -/
def instrFault (codes : CodeTable) (i : Instr) : Option BlockFault :=
  match i.fields with
  | .command n x => checkCommand codes (.value (codes.codeWith n x).toNat)
  | .write a ds => writeFault a ds.length

/-- The fault the ENCODER raises for bits that decode to no instruction: it never emits them (R71, R82, log 33), but for the
frame of a canonical command, which R77 and R120 admit. Another code table may have such a frame (R14, log 31). -/
def bitsFault (codes : CodeTable) (f : Frame) : Option BlockFault :=
  faultUnless (Command.all.any (fun n => admitted n && commandFrame (codes.code n) == f)) (.operandRange (.frame f))

end Sys2Proof.Machine
end

