-- ==== Sys2Proof/Machine/BiasCom.lean ====
section
/-! DEFINITION. What the TARGET does at the 9th bit of a command of this family: bias and commons (41_command_frames R137 to R142); each command writes both fields. -/

namespace Sys2Proof.Machine

/-- R137: BIAS_1_2_2COM: 1/2 bias, 2 commons. -/
def bias1_2_2comEffect (t : Target) : Target :=
  { t with cfg := { t.cfg with bias := .b1_2, com := .com2 } }

/-- R138: BIAS_1_2_3COM: 1/2 bias, 3 commons. -/
def bias1_2_3comEffect (t : Target) : Target :=
  { t with cfg := { t.cfg with bias := .b1_2, com := .com3 } }

/-- R139: BIAS_1_2_4COM: 1/2 bias, 4 commons. -/
def bias1_2_4comEffect (t : Target) : Target :=
  { t with cfg := { t.cfg with bias := .b1_2, com := .com4 } }

/-- R140: BIAS_1_3_2COM: 1/3 bias, 2 commons. -/
def bias1_3_2comEffect (t : Target) : Target :=
  { t with cfg := { t.cfg with bias := .b1_3, com := .com2 } }

/-- R141: BIAS_1_3_3COM: 1/3 bias, 3 commons. -/
def bias1_3_3comEffect (t : Target) : Target :=
  { t with cfg := { t.cfg with bias := .b1_3, com := .com3 } }

/-- R142: BIAS_1_3_4COM: 1/3 bias, 4 commons. -/
def bias1_3_4comEffect (t : Target) : Target :=
  { t with cfg := { t.cfg with bias := .b1_3, com := .com4 } }

end Sys2Proof.Machine
end

