-- ==== Sys2Proof/Machine/Clock.lean ====
section
/-! DEFINITION. What the TARGET does at the 9th bit of a command of this family: the clock source (41_command_frames R134 to R136); it has no effect on any other field or on timing (D35). -/

namespace Sys2Proof.Machine

/-- R134: XTAL_32K. -/
def xtal32kEffect (t : Target) : Target :=
  { t with cfg := { t.cfg with clkSrc := .xtal32k } }

/-- R135: RC_256K. -/
def rc256kEffect (t : Target) : Target :=
  { t with cfg := { t.cfg with clkSrc := .rc256k } }

/-- R136: EXT_256K. -/
def ext256kEffect (t : Target) : Target :=
  { t with cfg := { t.cfg with clkSrc := .ext256k } }

end Sys2Proof.Machine
end

