-- ==== Sys2Proof/Machine/Interrupt.lean ====
section
/-! DEFINITION. What the TARGET does at the 9th bit of a command of this family: the IRQ output enable (41_command_frames R145, R146). No interrupt reaches the HOST either way (60_exceptions R240). -/

namespace Sys2Proof.Machine

/-- R145: IRQ_DIS. -/
def irqDisEffect (t : Target) : Target :=
  { t with cfg := { t.cfg with irq := .dis } }

/-- R146: IRQ_EN. -/
def irqEnEffect (t : Target) : Target :=
  { t with cfg := { t.cfg with irq := .en } }

end Sys2Proof.Machine
end

