-- ==== Sys2Proof/Machine/OperatingMode.lean ====
section
/-! DEFINITION. What the TARGET does at the 9th bit of a command of this family: the operating mode (41_command_frames R155, R156). -/

namespace Sys2Proof.Machine

/-- R156: NORMAL. -/
def normalEffect (t : Target) : Target :=
  { t with cfg := { t.cfg with mode := .normal } }

/-- R155, the TARGET's half of TEST: `raise TestModeUnmodelled` with the received value (R238), the receiver discards the rest
of the frame, `cfg.mode` stays. -/
def testEffect (c : Code) (t : Target) : Target × Option BlockFault :=
  ({ t with rx := { t.rx with st := .discard } }, some (.testModeUnmodelled c))

end Sys2Proof.Machine
end

