-- ==== Sys2Proof/Machine/Oscillator.lean ====
section
/-! DEFINITION. What the TARGET does at the 9th bit of a command of this family: the system oscillator and the LCD bias generator (41_command_frames R122 to R125). -/

namespace Sys2Proof.Machine

/-- `cfg.lcd` after SYS_DIS: off where the chip's SYS_DIS stops the bias generator too, else as it was (R27, R14). -/
def lcdAfterSysDis (m : Meanings) (lcd : OnOff) : OnOff := if m.sysDisStopsLcd then .off else lcd

/-- R122: SYS_DIS: the oscillator and, as `m` says, the LCD bias generator go off. RAM and every other field stay
(R250). -/
def sysDisEffect (m : Meanings) (t : Target) : Target :=
  { t with cfg := { t.cfg with osc := .off, lcd := lcdAfterSysDis m t.cfg.lcd } }

/-- R123: SYS_EN: the oscillator goes on; `cfg.lcd` stays. -/
def sysEnEffect (t : Target) : Target :=
  { t with cfg := { t.cfg with osc := .on } }

/-- R124: LCD_OFF; RAM keeps its contents. -/
def lcdOffEffect (t : Target) : Target :=
  { t with cfg := { t.cfg with lcd := .off } }

/-- R125: LCD_ON. -/
def lcdOnEffect (t : Target) : Target :=
  { t with cfg := { t.cfg with lcd := .on } }

end Sys2Proof.Machine
end

