-- ==== Sys2Proof/Machine/TimeBase.lean ====
section
/-! DEFINITION. What the TARGET does at the 9th bit of a command of this family: the time base and the watchdog (41_command_frames R126 to R129, R132, R133, R147 to R154). -/

namespace Sys2Proof.Machine

/-- R126: TIMER_DIS; the counter keeps its value. -/
def timerDisEffect (t : Target) : Target :=
  { t with cfg := { t.cfg with timerOut := .dis } }

/-- R127: WDT_DIS. -/
def wdtDisEffect (t : Target) : Target :=
  { t with cfg := { t.cfg with wdtOut := .dis } }

/-- R128: TIMER_EN. -/
def timerEnEffect (t : Target) : Target :=
  { t with cfg := { t.cfg with timerOut := .en } }

/-- R129: WDT_EN. -/
def wdtEnEffect (t : Target) : Target :=
  { t with cfg := { t.cfg with wdtOut := .en } }

/-- R132: CLR_TIMER: `tb_count <- 0`, recorded as a clear event (R38). -/
def clrTimerEffect (t : Target) : Target :=
  { t with counters := { t.counters with tbCount := .zero, tbClears := t.counters.tbClears + 1 } }

/-- R133: CLR_WDT: `wdt_count <- 0`, recorded as a clear event (R38); the time base is not cleared. -/
def clrWdtEffect (t : Target) : Target :=
  { t with counters := { t.counters with wdtCount := .zero, wdtClears := t.counters.wdtClears + 1 } }

/-- R147: F1: time-base frequency 1 Hz. -/
def f1Effect (t : Target) : Target :=
  { t with cfg := { t.cfg with tbFreq := .hz1 } }

/-- R148: F2: time-base frequency 2 Hz. -/
def f2Effect (t : Target) : Target :=
  { t with cfg := { t.cfg with tbFreq := .hz2 } }

/-- R149: F4: time-base frequency 4 Hz. -/
def f4Effect (t : Target) : Target :=
  { t with cfg := { t.cfg with tbFreq := .hz4 } }

/-- R150: F8: time-base frequency 8 Hz. -/
def f8Effect (t : Target) : Target :=
  { t with cfg := { t.cfg with tbFreq := .hz8 } }

/-- R151: F16: time-base frequency 16 Hz. -/
def f16Effect (t : Target) : Target :=
  { t with cfg := { t.cfg with tbFreq := .hz16 } }

/-- R152: F32: time-base frequency 32 Hz. -/
def f32Effect (t : Target) : Target :=
  { t with cfg := { t.cfg with tbFreq := .hz32 } }

/-- R153: F64: time-base frequency 64 Hz. -/
def f64Effect (t : Target) : Target :=
  { t with cfg := { t.cfg with tbFreq := .hz64 } }

/-- R154: F128: time-base frequency 128 Hz. -/
def f128Effect (t : Target) : Target :=
  { t with cfg := { t.cfg with tbFreq := .hz128 } }

end Sys2Proof.Machine
end

