-- ==== Sys2Proof/Machine/Tone.lean ====
section
/-! DEFINITION. What the TARGET does at the 9th bit of a command of this family: the tone output and its frequency (41_command_frames R130, R131, R143, R144). -/

namespace Sys2Proof.Machine

/-- R130: TONE_OFF; `cfg.tone_freq` stays. -/
def toneOffEffect (t : Target) : Target :=
  { t with cfg := { t.cfg with tone := .off } }

/-- R131: TONE_ON; nothing checks `cfg.osc`. -/
def toneOnEffect (t : Target) : Target :=
  { t with cfg := { t.cfg with tone := .on } }

/-- R143: TONE_4K; `cfg.tone` stays. -/
def tone4kEffect (t : Target) : Target :=
  { t with cfg := { t.cfg with toneFreq := .f4k } }

/-- R144: TONE_2K; `cfg.tone` stays. -/
def tone2kEffect (t : Target) : Target :=
  { t with cfg := { t.cfg with toneFreq := .f2k } }

end Sys2Proof.Machine
end

