-- ==== Sys2Proof/Machine/Receiver.lean ====
section
/-! DEFINITION. The TARGET's receiver: framing by chip select (40_bus_signalling R109), sampling (R105), the command and write
receivers (41_command_frames R121, 42_write_frames R160 to R162), and the bus between the agents. -/

namespace Sys2Proof.Machine

/-- The pseudocode of a command's rule (R122 to R156), with the fault it raises if any. `m` are the
meanings of the fields (R14). -/
def perform (m : Meanings) (c : Code) (t : Target) : Command → Target × Option BlockFault
  | .sysDis => (sysDisEffect m t, none)
  | .sysEn => (sysEnEffect t, none)
  | .lcdOff => (lcdOffEffect t, none)
  | .lcdOn => (lcdOnEffect t, none)
  | .timerDis => (timerDisEffect t, none)
  | .wdtDis => (wdtDisEffect t, none)
  | .timerEn => (timerEnEffect t, none)
  | .wdtEn => (wdtEnEffect t, none)
  | .toneOff => (toneOffEffect t, none)
  | .toneOn => (toneOnEffect t, none)
  | .clrTimer => (clrTimerEffect t, none)
  | .clrWdt => (clrWdtEffect t, none)
  | .xtal32k => (xtal32kEffect t, none)
  | .rc256k => (rc256kEffect t, none)
  | .ext256k => (ext256kEffect t, none)
  | .bias1_2_2com => (bias1_2_2comEffect t, none)
  | .bias1_2_3com => (bias1_2_3comEffect t, none)
  | .bias1_2_4com => (bias1_2_4comEffect t, none)
  | .bias1_3_2com => (bias1_3_2comEffect t, none)
  | .bias1_3_3com => (bias1_3_3comEffect t, none)
  | .bias1_3_4com => (bias1_3_4comEffect t, none)
  | .tone4k => (tone4kEffect t, none)
  | .tone2k => (tone2kEffect t, none)
  | .irqDis => (irqDisEffect t, none)
  | .irqEn => (irqEnEffect t, none)
  | .f1 => (f1Effect t, none)
  | .f2 => (f2Effect t, none)
  | .f4 => (f4Effect t, none)
  | .f8 => (f8Effect t, none)
  | .f16 => (f16Effect t, none)
  | .f32 => (f32Effect t, none)
  | .f64 => (f64Effect t, none)
  | .f128 => (f128Effect t, none)
  | .test => testEffect c t
  | .normal => (normalEffect t, none)

/-- The receiver's state set. -/
def Target.setSt (st : RxState) (t : Target) : Target := { t with rx := { t.rx with st := st } }

/-- `Execute(c)` (R121) and the receiver's state after it: CMD_DONE, or DISCARD where a fault was raised (R40, R231;
log 3). -/
def execute (p : Params) (c : Code) (t : Target) : Target × Option BlockFault :=
  match p.codes.lookup c with
  | none => (t.setSt .discard, some (.unknownCommand c))
  | some n =>
    match perform p.meanings c t n with
    | (t', none) => (t'.setSt .cmdDone, none)
    | (t', some k) => (t'.setSt .discard, some k)

/-- A completed nibble (R162): written at the pointer, which then moves on; past cell 31 a fault and nothing
written. -/
def storeNibble (v : Nibble) (t : Target) : Target × Option BlockFault :=
  if t.rx.ptr < Config.nRam then
    ({ t with
        ram := t.ram.put t.rx.ptr v
        rx := { t.rx with ptr := t.rx.ptr + 1, st := .data [] } }, none)
  else (t.setSt .discard, some (.addressOverflow t.rx.ptr))

/-- `Receive(b)` (R121, R160, R162): one sampled bit, with the parameters of the TARGET. -/
def receive (p : Params) (b : Bool) (t : Target) : Target × Option BlockFault :=
  match t.rx.st with
  | .idle => (t, none)
  | .discard => (t, none)
  | .id bs =>
    let bs' := bs ++ [b]
    if bs'.length < 3 then (t.setSt (.id bs'), none)
    else if bs' = commandFlag then (t.setSt (.cmd []), none)
    else if bs' = writeFlag then (t.setSt (.addr []), none)
    else (t.setSt .discard, some (.unknownFrameId bs'))
  | .cmd bs =>
    let bs' := bs ++ [b]
    if bs'.length < 9 then (t.setSt (.cmd bs'), none)
    else execute p (BitVec.ofNat 9 (valueOf bs')) t
  | .cmdDone => (t.setSt .discard, some .frameOverrun)
  | .addr bs =>
    let bs' := bs ++ [b]
    if bs'.length < 6 then (t.setSt (.addr bs'), none)
    else ({ t with rx := { t.rx with ptr := valueOf bs', st := .data [] } }, none)
  | .data bs =>
    let bs' := bs ++ [b]
    if bs'.length < 4 then (t.setSt (.data bs'), none)
    else storeNibble (BitVec.ofNat 4 (valueOf bs')) t

/-- The sampling edge (R105): while CS is low, and in a frame, the bit on DATA is received. A WR edge while CS is high
carries no bit (R112). -/
def sample (s : State) : State :=
  let (cs, s) := sense s.line.cs s
  if cs || s.target.rx.st == .idle then s
  else
    let (b, s) := sense s.line.data s
    let r := receive s.params b s.target
    noteTarget r.2.toList { s with target := r.1 }

/-- The TARGET's view of CS (R109): a falling edge starts a frame, a rising edge ends it in any state and drops a
partial field. `rx.ptr` is left as it is, since R109's pseudocode names no write of it (R17); R41, R67 and R164 only say
that it means nothing outside a frame: the model's choice (log 32). -/
def onCs (b : Bool) (s : State) : State :=
  let (was, s) := sense s.target.rx.csPrev s
  let st := if was && !b then .id [] else if !was && b then .idle else s.target.rx.st
  { s with target := { s.target with rx := { s.target.rx with st := st, csPrev := .ofBool b } } }

/-- The TARGET's view of WR (R105): it samples at a rising edge and ignores a falling one. -/
def onWr (b : Bool) (s : State) : State :=
  let (was, s) := sense s.target.rx.wrPrev s
  let s := if !was && b then sample s else s
  { s with target := { s.target with rx := { s.target.rx with wrPrev := .ofBool b } } }

/-- A line takes a level and the TARGET sees it. It reads RD never, and DATA only at sampling edges (R100). -/
def busSet (l : Line) (b : Bool) (s : State) : State :=
  let s := { s with line := setLine l (.ofBool b) s.line }
  match l with
  | .cs => onCs b s
  | .wr => onWr b s
  | .rd | .data => s

end Sys2Proof.Machine
end

