-- ==== Sys2Proof/Machine/Wire.lean ====
section
/-! DEFINITION. The bit and frame primitives of the ENCODER (40_bus_signalling R101, R102) as micro steps driven by its
sequencing position (10_state R24), a window made by another agent, and what one instruction does: `transmit`. -/

namespace Sys2Proof.Machine

/-- `line[L] <- b` of the ENCODER (R16): recorded in the waveform and seen by the TARGET. -/
def drive (l : Line) (b : Bool) (s : State) : State := busSet l b (record [.set l b] s)

/-- The sequencing position's phase set. -/
def setPhase (p : Phase) (s : State) : State := { s with enc := { s.enc with phase := p } }

/-- The head of SendFrame (R102): the frame is taken up, CS falls, `T_CSS` passes. -/
def startFrame (f : Frame) (s : State) : State :=
  wait .css (drive .cs false { s with enc := { s.enc with frame := f, k := 0, phase := .csSetup } })

/-- The first half of a bit cell (R101): DATA takes the bit, WR falls, `T_EDGE` passes. -/
def bitLow (b : Bool) (s : State) : State :=
  wait .edge (drive .wr false (drive .data b (setPhase .bitLow s)))

/-- The second half of a bit cell (R101, R102): WR rises, which is the sampling edge, and `T_EDGE` passes, or `T_CSH`
after the frame's final bit; the next bit is due. -/
def bitHigh (s : State) : State :=
  let s := setPhase .bitHigh (drive .wr true s)
  let s := wait (if s.enc.k + 1 = s.enc.frame.length then .csh else .edge) s
  { s with enc := { s.enc with k := s.enc.k + 1 } }

/-- One micro step of SendFrame, chosen by the sequencing position (R24, R102). Outside a frame it does nothing. -/
def tick (s : State) : State :=
  match s.enc.phase with
  | .idle => s
  | .csSetup | .bitHigh =>
    match s.enc.frame[s.enc.k]? with
    | some b => bitLow b s
    | none => drive .cs true (setPhase .csHold s)
  | .bitLow => bitHigh s
  | .csHold => wait .gap (setPhase .gap s)
  | .gap => { s with enc := { s.enc with frame := [], phase := .idle } }

/-- `n` micro steps. -/
def ticks : Nat → State → State
  | 0, s => s
  | n + 1, s => ticks n (tick s)

/-- `SendFrame(f)` (R102): two micro steps for each bit, then CS up, the gap, and idle again. `enc.k` keeps the
frame's length, since the rule's pseudocode does not name it at the end (R17, log 4). -/
def sendFrame (f : Frame) (s : State) : State := ticks (2 * f.length + 3) (startFrame f s)

/-! ## Windows of another agent (95_test_vectors P5 part B) -/

/-- One bit cell made by another agent: the lines move and the TARGET sees them; the ENCODER records nothing
(log 13). -/
def foreignBit (b : Bool) (s : State) : State :=
  busSet .wr true (busSet .wr false (busSet .data b s))

/-- An edge of one line made by another agent (V-B5). Time passes with it (log 8). -/
def foreignEdge (l : Line) (b : Bool) (s : State) : State :=
  let s := busSet l b s
  { s with target := s.target.age }

/-- A correctly timed window with the bits `f` (R109). Time passes in it. -/
def window (f : Frame) (s : State) : State :=
  let s := busSet .cs true (f.foldl (fun s b => foreignBit b s) (busSet .cs false s))
  { s with target := s.target.age }

/-! ## One instruction -/

/-- Another agent's edges have left CS, RD or WR low. -/
def wireBusy (s : State) : Bool := s.line.cs == .low || s.line.rd == .low || s.line.wr == .low

/-- A frame or a window that starts now and leaves `t`. Where CS, RD or WR is low its precondition fails (R102), and "the
model has no such run" (R273): a race, by name (log 34). -/
def onQuietWire (s t : State) : Host.Outcome State Fault Refusal :=
  if wireBusy s then .fault .lineConflict else .next t

/-- The ENCODER's frame `f`, whose operands have the fault `fault`: refused before any line moves unless the block is
constructed (R241, R263) and the operands are admitted (R77, R234, R243), else SendFrame (R120, R164, R165). -/
def sendChecked (fault : Option BlockFault) (f : Frame) (s : State) : Host.Outcome State Fault Refusal :=
  if s.enc.status = .ready then
    match fault with
    | some k => .next (refuse k s.enc.op s)
    | none => onQuietWire s (sendFrame f s)
  else .next (refuse .notConstructed s.enc.op s)

/-- What the frame of an instruction does (log 1). Sent by the ENCODER: `sendChecked`. In a window of another agent:
whatever the TARGET makes of its bits. -/
def transmit (i : Instr) (s : State) : Host.Outcome State Fault Refusal :=
  match s.driver with
  | .foreign => onQuietWire s (window (encode s.params.codes i) s)
  | .encoder => sendChecked (instrFault s.params.codes i) (encode s.params.codes i) s

end Sys2Proof.Machine
end

