-- ==== Sys2Proof/Machine/CommandFrames.lean ====
section
/-! DEFINITION. The meanings of the 35 command frames (41_command_frames R122 to R156). Each sends its own frame over the wire
(`transmit`); what the TARGET does at the 9th command bit is `<name>Effect` in the family files, reached through the receiver.
The arguments are the ignored bits of the code (30_encoding R79, R80). -/

namespace Sys2Proof.Machine

/-- R122: the frame of SYS_DIS. -/
def execSysDis (x : BitVec 1) (s : State) : Host.Outcome State Fault Refusal :=
  transmit (.sysDis x) s

/-- R123: the frame of SYS_EN. -/
def execSysEn (x : BitVec 1) (s : State) : Host.Outcome State Fault Refusal :=
  transmit (.sysEn x) s

/-- R124: the frame of LCD_OFF. -/
def execLcdOff (x : BitVec 1) (s : State) : Host.Outcome State Fault Refusal :=
  transmit (.lcdOff x) s

/-- R125: the frame of LCD_ON. -/
def execLcdOn (x : BitVec 1) (s : State) : Host.Outcome State Fault Refusal :=
  transmit (.lcdOn x) s

/-- R126: the frame of TIMER_DIS. -/
def execTimerDis (x : BitVec 1) (s : State) : Host.Outcome State Fault Refusal :=
  transmit (.timerDis x) s

/-- R127: the frame of WDT_DIS. -/
def execWdtDis (x : BitVec 1) (s : State) : Host.Outcome State Fault Refusal :=
  transmit (.wdtDis x) s

/-- R128: the frame of TIMER_EN. -/
def execTimerEn (x : BitVec 1) (s : State) : Host.Outcome State Fault Refusal :=
  transmit (.timerEn x) s

/-- R129: the frame of WDT_EN. -/
def execWdtEn (x : BitVec 1) (s : State) : Host.Outcome State Fault Refusal :=
  transmit (.wdtEn x) s

/-- R130: the frame of TONE_OFF. -/
def execToneOff (x : BitVec 1) (s : State) : Host.Outcome State Fault Refusal :=
  transmit (.toneOff x) s

/-- R131: the frame of TONE_ON. -/
def execToneOn (x : BitVec 1) (s : State) : Host.Outcome State Fault Refusal :=
  transmit (.toneOn x) s

/-- R132: the frame of CLR_TIMER. -/
def execClrTimer (x : BitVec 2) (s : State) : Host.Outcome State Fault Refusal :=
  transmit (.clrTimer x) s

/-- R133: the frame of CLR_WDT. -/
def execClrWdt (x : BitVec 2) (s : State) : Host.Outcome State Fault Refusal :=
  transmit (.clrWdt x) s

/-- R134: the frame of XTAL_32K. -/
def execXtal32k (x : BitVec 3) (s : State) : Host.Outcome State Fault Refusal :=
  transmit (.xtal32k x) s

/-- R135: the frame of RC_256K. -/
def execRc256k (x : BitVec 3) (s : State) : Host.Outcome State Fault Refusal :=
  transmit (.rc256k x) s

/-- R136: the frame of EXT_256K. -/
def execExt256k (x : BitVec 3) (s : State) : Host.Outcome State Fault Refusal :=
  transmit (.ext256k x) s

/-- R137: the frame of BIAS_1_2_2COM. -/
def execBias1_2_2com (y : BitVec 1) (x : BitVec 1) (s : State) : Host.Outcome State Fault Refusal :=
  transmit (.bias1_2_2com y x) s

/-- R138: the frame of BIAS_1_2_3COM. -/
def execBias1_2_3com (y : BitVec 1) (x : BitVec 1) (s : State) : Host.Outcome State Fault Refusal :=
  transmit (.bias1_2_3com y x) s

/-- R139: the frame of BIAS_1_2_4COM. -/
def execBias1_2_4com (y : BitVec 1) (x : BitVec 1) (s : State) : Host.Outcome State Fault Refusal :=
  transmit (.bias1_2_4com y x) s

/-- R140: the frame of BIAS_1_3_2COM. -/
def execBias1_3_2com (y : BitVec 1) (x : BitVec 1) (s : State) : Host.Outcome State Fault Refusal :=
  transmit (.bias1_3_2com y x) s

/-- R141: the frame of BIAS_1_3_3COM. -/
def execBias1_3_3com (y : BitVec 1) (x : BitVec 1) (s : State) : Host.Outcome State Fault Refusal :=
  transmit (.bias1_3_3com y x) s

/-- R142: the frame of BIAS_1_3_4COM. -/
def execBias1_3_4com (y : BitVec 1) (x : BitVec 1) (s : State) : Host.Outcome State Fault Refusal :=
  transmit (.bias1_3_4com y x) s

/-- R143: the frame of TONE_4K. -/
def execTone4k (x : BitVec 6) (s : State) : Host.Outcome State Fault Refusal :=
  transmit (.tone4k x) s

/-- R144: the frame of TONE_2K. -/
def execTone2k (x : BitVec 5) (s : State) : Host.Outcome State Fault Refusal :=
  transmit (.tone2k x) s

/-- R145: the frame of IRQ_DIS. -/
def execIrqDis (y : BitVec 1) (x : BitVec 4) (s : State) : Host.Outcome State Fault Refusal :=
  transmit (.irqDis y x) s

/-- R146: the frame of IRQ_EN. -/
def execIrqEn (y : BitVec 1) (x : BitVec 4) (s : State) : Host.Outcome State Fault Refusal :=
  transmit (.irqEn y x) s

/-- R147: the frame of F1. -/
def execF1 (y : BitVec 2) (x : BitVec 1) (s : State) : Host.Outcome State Fault Refusal :=
  transmit (.f1 y x) s

/-- R148: the frame of F2. -/
def execF2 (y : BitVec 2) (x : BitVec 1) (s : State) : Host.Outcome State Fault Refusal :=
  transmit (.f2 y x) s

/-- R149: the frame of F4. -/
def execF4 (y : BitVec 2) (x : BitVec 1) (s : State) : Host.Outcome State Fault Refusal :=
  transmit (.f4 y x) s

/-- R150: the frame of F8. -/
def execF8 (y : BitVec 2) (x : BitVec 1) (s : State) : Host.Outcome State Fault Refusal :=
  transmit (.f8 y x) s

/-- R151: the frame of F16. -/
def execF16 (y : BitVec 2) (x : BitVec 1) (s : State) : Host.Outcome State Fault Refusal :=
  transmit (.f16 y x) s

/-- R152: the frame of F32. -/
def execF32 (y : BitVec 2) (x : BitVec 1) (s : State) : Host.Outcome State Fault Refusal :=
  transmit (.f32 y x) s

/-- R153: the frame of F64. -/
def execF64 (y : BitVec 2) (x : BitVec 1) (s : State) : Host.Outcome State Fault Refusal :=
  transmit (.f64 y x) s

/-- R154: the frame of F128. -/
def execF128 (y : BitVec 2) (x : BitVec 1) (s : State) : Host.Outcome State Fault Refusal :=
  transmit (.f128 y x) s

/-- R155: the frame of TEST. The ENCODER refuses it; the TARGET records TestModeUnmodelled. -/
def execTest (x : BitVec 1) (s : State) : Host.Outcome State Fault Refusal :=
  transmit (.test x) s

/-- R156: the frame of NORMAL. -/
def execNormal (x : BitVec 1) (s : State) : Host.Outcome State Fault Refusal :=
  transmit (.normal x) s

end Sys2Proof.Machine
end

