-- ==== Sys2Proof/Machine/WriteFrames.lean ====
section
/-! DEFINITION. The meanings of the two write frames (42_write_frames R164, R165). Their cells are written by the receiver, nibble
by nibble (R160 to R162). -/

namespace Sys2Proof.Machine

/-- R164: the frame of WR. -/
def execWr (a : Addr) (d : Nibble) (s : State) : Host.Outcome State Fault Refusal :=
  transmit (.wr a d) s

/-- R165: the frame of WRB; with no nibble it writes nothing (R166). -/
def execWrb (a : Addr) (ds : List Nibble) (s : State) : Host.Outcome State Fault Refusal :=
  transmit (.wrb a ds) s

end Sys2Proof.Machine
end

