-- ==== Sys2Proof/Machine/Dispatch.lean ====
section
/-! DEFINITION. The dispatch: one arm per row of spec/opcode_table.json, each one direct call of its meaning. -/

namespace Sys2Proof.Machine

def exec (i : Instr) (s : State) : Host.Outcome State Fault Refusal :=
  match i with
  | .sysDis x => Sys2Proof.Machine.execSysDis x s
  | .sysEn x => Sys2Proof.Machine.execSysEn x s
  | .lcdOff x => Sys2Proof.Machine.execLcdOff x s
  | .lcdOn x => Sys2Proof.Machine.execLcdOn x s
  | .timerDis x => Sys2Proof.Machine.execTimerDis x s
  | .wdtDis x => Sys2Proof.Machine.execWdtDis x s
  | .timerEn x => Sys2Proof.Machine.execTimerEn x s
  | .wdtEn x => Sys2Proof.Machine.execWdtEn x s
  | .toneOff x => Sys2Proof.Machine.execToneOff x s
  | .toneOn x => Sys2Proof.Machine.execToneOn x s
  | .clrTimer x => Sys2Proof.Machine.execClrTimer x s
  | .clrWdt x => Sys2Proof.Machine.execClrWdt x s
  | .xtal32k x => Sys2Proof.Machine.execXtal32k x s
  | .rc256k x => Sys2Proof.Machine.execRc256k x s
  | .ext256k x => Sys2Proof.Machine.execExt256k x s
  | .bias1_2_2com y x => Sys2Proof.Machine.execBias1_2_2com y x s
  | .bias1_2_3com y x => Sys2Proof.Machine.execBias1_2_3com y x s
  | .bias1_2_4com y x => Sys2Proof.Machine.execBias1_2_4com y x s
  | .bias1_3_2com y x => Sys2Proof.Machine.execBias1_3_2com y x s
  | .bias1_3_3com y x => Sys2Proof.Machine.execBias1_3_3com y x s
  | .bias1_3_4com y x => Sys2Proof.Machine.execBias1_3_4com y x s
  | .tone4k x => Sys2Proof.Machine.execTone4k x s
  | .tone2k x => Sys2Proof.Machine.execTone2k x s
  | .irqDis y x => Sys2Proof.Machine.execIrqDis y x s
  | .irqEn y x => Sys2Proof.Machine.execIrqEn y x s
  | .f1 y x => Sys2Proof.Machine.execF1 y x s
  | .f2 y x => Sys2Proof.Machine.execF2 y x s
  | .f4 y x => Sys2Proof.Machine.execF4 y x s
  | .f8 y x => Sys2Proof.Machine.execF8 y x s
  | .f16 y x => Sys2Proof.Machine.execF16 y x s
  | .f32 y x => Sys2Proof.Machine.execF32 y x s
  | .f64 y x => Sys2Proof.Machine.execF64 y x s
  | .f128 y x => Sys2Proof.Machine.execF128 y x s
  | .test x => Sys2Proof.Machine.execTest x s
  | .normal x => Sys2Proof.Machine.execNormal x s
  | .wr a d => Sys2Proof.Machine.execWr a d s
  | .wrb a ds => Sys2Proof.Machine.execWrb a ds s

end Sys2Proof.Machine
end

