-- ==== Sys2Proof/Machine/Renderer.lean ====
section
/-! DEFINITION. The Glyph Renderer's numeric transform (44_glyph_renderer R210 to R217): the host's float arithmetic, the digit
string and the nibble sequence. -/

namespace Sys2Proof.Machine

/-! ## Host floats (R210) -/

/-- The bits of the significand of the format. -/
def precision : FloatFmt → Nat
  | .binary32 => 24
  | .binary64 => 53

/-- The exponent of the format's least bit (that of its subnormal numbers). -/
def minExp : FloatFmt → Int
  | .binary32 => -149
  | .binary64 => -1074

/-- The least power of two the format cannot hold is `2 ^ maxExp`. -/
def maxExp : FloatFmt → Nat
  | .binary32 => 128
  | .binary64 => 1024

/-- `num / den` rounded to an integer, to nearest, ties to even. -/
def roundHalfEven (num den : Nat) : Nat :=
  let q := num / den
  let r := num % den
  if 2 * r < den then q
  else if den < 2 * r then q + 1
  else if q % 2 = 0 then q else q + 1

/-- The exponent `e` of the greatest power of two not above `num / den` (both positive). -/
def floorLog2 (num den : Nat) : Int :=
  let e : Int := (num.log2 : Int) - den.log2
  let fits : Bool := if 0 ≤ e then den * 2 ^ e.toNat ≤ num else den ≤ num * 2 ^ (-e).toNat
  if fits then e else e - 1

/-- A positive magnitude `num / den` rounded to the format, as (significand, exponent) (R210: "rounding to nearest
even"). -/
def roundMagnitude (fmt : FloatFmt) (num den : Nat) : Nat × Int :=
  let e := max (floorLog2 num den - ((precision fmt : Int) - 1)) (minExp fmt)
  (if 0 ≤ e then roundHalfEven num (den * 2 ^ e.toNat) else roundHalfEven (num * 2 ^ (-e).toNat) den, e)

/-- `m * 2 ^ e`. -/
def scaleBy (m : Nat) (e : Int) : Rat :=
  if 0 ≤ e then ((m * 2 ^ e.toNat : Nat) : Rat) else mkRat m (2 ^ (-e).toNat)

/-- `fl` (R210): a number rounded to the format; none where the rounded number is past the format's range. -/
def toFloat (fmt : FloatFmt) (q : Rat) : Option Rat :=
  if q.num = 0 then some 0
  else
    let (m, e) := roundMagnitude fmt q.num.natAbs q.den
    let v := scaleBy m e
    if (2 ^ maxExp fmt : Nat) ≤ v.num.natAbs / v.den then none
    else some (if q.num < 0 then -v else v)

/-- What the renderer makes of its input (R210, R211). -/
inductive Scaled where
  /-- NaN or infinite: refused. -/
  | notFinite
  /-- Finite and negative: mis-rendered. -/
  | negative
  /-- `n = trunc(fl(value * 100))`. -/
  | number (n : Nat)
  /-- The product is past the format's range, and the spec states no `n` (log 12). -/
  | overflow
  deriving DecidableEq, Repr

/-- `n = trunc(fl(value * SCALE))` for a host float (R210, R211). A number that is no float of the format is first
rounded to it, as the host does with a decimal text (log 11). -/
def scaled (fmt : FloatFmt) : HostNum → Scaled
  | .finite q =>
    match toFloat fmt q with
    | none => .notFinite
    | some v =>
      if v.num < 0 then .negative
      else
        match toFloat fmt (v * 100) with
        | none => .overflow
        | some p => .number (p.num.natAbs / p.den)
  | _ => .notFinite

/-! ## Digits and glyphs -/

/-- `digits(n)` (R212): the five decimal digits of `n mod 100000`, most significant first. -/
def digits (n : Nat) : List (Fin 10) :=
  [Fin.ofNat 10 (n / 10000), Fin.ofNat 10 (n / 1000), Fin.ofNat 10 (n / 100), Fin.ofNat 10 (n / 10), Fin.ofNat 10 n]

/-- `glyphs(G, digits)` (R214). -/
def glyphs (g : GlyphTable) (ds : List (Fin 10)) : List Nibble :=
  ds.flatMap (fun d => [g[d].1, g[d].2])

/-- Draws `n`, `n + 1`, …, as `k` nibbles. -/
def drawNibbles (n : Nat) : Nat → List Nibble
  | 0 => []
  | k + 1 => Config.drawNibble n :: drawNibbles (n + 1) k

/-- The region a value is shown in, with its glyph table and digit order (R215, R216, R217). -/
inductive Region where
  | temperature | humidity
  deriving DecidableEq, Repr

/-- The region's base address (R12). -/
def regionBase : Region → Int
  | .temperature => Config.tempBase
  | .humidity => Config.humBase

/-- The digits in the order the region takes them: reversed for the temperature, natural for the humidity (R217). -/
def regionOrder (r : Region) (ds : List (Fin 10)) : List (Fin 10) :=
  match r with
  | .temperature => ds.reverse
  | .humidity => ds

/-- The region's glyph table (R213). -/
def regionGlyphs (p : Params) : Region → GlyphTable
  | .temperature => p.glyphT
  | .humidity => p.glyphH

/-- The ten nibbles of a number shown in a region (R214 to R216). -/
def shownNibbles (p : Params) (r : Region) (n : Nat) : List Nibble :=
  glyphs (regionGlyphs p r) (regionOrder r (digits n))

/-- The ten nibbles the renderer sends for an input and how many draws it takes from number `d` on: for a negative
input each nibble is a draw (R211); for an overflowed product the number is a draw (log 12). -/
def renderNibbles (p : Params) (r : Region) (v : HostNum) (d : Nat) : List Nibble × Nat :=
  match scaled p.floatFmt v with
  | .notFinite => ([], 0)
  | .negative => (drawNibbles d 10, 10)
  | .number n => (shownNibbles p r n, 0)
  | .overflow => (shownNibbles p r (Config.draw d), 1)

/-- A NaN or infinite input is refused (R211, R234). -/
def checkValue (fmt : FloatFmt) (v : HostNum) : Option BlockFault :=
  faultUnless (scaled fmt v != .notFinite) (.operandRange (.value v))

end Sys2Proof.Machine
end

