-- ==== Sys2Proof/Machine/Operations.lean ====
section
/-! DEFINITION. The host operations (43_host_operations R180 to R196, 44_glyph_renderer R215 to R222): admission, expansion into
frames, construction, and the other inputs from outside. -/

namespace Sys2Proof.Machine

/-! ## Expansion (R86) -/

/-- `CMD n`: the command frame of a command's canonical value (R120). -/
def cmdAction (codes : CodeTable) (n : Command) : Action := .frame (commandFrame (codes.code n))

/-- `WRB a, ds` for admitted operands (R163). -/
def writeAction (a : Int) (ds : List Nibble) : Action := .frame (writeFrame (BitVec.ofInt 6 a) ds)

/-- The 13 frames of `initialize` in their order (R181). -/
def initActions (codes : CodeTable) (a : InitArgs Command) : List Action :=
  [Command.sysDis, a.watchdog, .sysEn, a.timer, a.clock, a.biasCom, a.toneFreq, a.irq, a.timebase, a.mode, .clrTimer,
    .clrWdt].map (cmdAction codes) ++
  [writeAction 0 (List.replicate Config.nRam 0)]

/-- `clear_range` and `fill_range`: `count` copies of one nibble (R187, R188). -/
def rangeAction (a count : Int) (v : Nibble) : Action := writeAction a (List.replicate count.toNat v)

/-- The expansion of an admitted operation under the parameters `p` (R86, R181 to R191, R215 to R221), with how many draws it takes from number
`d` on. -/
def expand (p : Params) (op : HostOp) (d : Nat) : List Action × Nat :=
  match op with
  | .construct _ _ => (initActions p.codes p.initDefaults, 0)
  | .initialise a => (initActions p.codes (withDefaults p.initDefaults a), 0)
  | .writeCommand c => ([.frame (commandFrame (BitVec.ofInt 9 (argCode p.codes c)))], 0)
  | .writeOne a v => ([writeAction a [BitVec.ofInt 4 v]], 0)
  | .writeBurst a vs => ([writeAction a (vs.map (BitVec.ofInt 4))], 0)
  | .clearRange a n => ([rangeAction a n 0x0], 0)
  | .fillRange a n => ([rangeAction a n 0xF], 0)
  | .displayOn => ([cmdAction p.codes .lcdOn], 0)
  | .displayOff => ([cmdAction p.codes .lcdOff], 0)
  | .beep (.finite q) => ([cmdAction p.codes .toneOn, .sleep q, cmdAction p.codes .toneOff], 0)
  | .beep _ => ([], 0)
  | .showTemperature v =>
    let r := renderNibbles p .temperature v d
    ([writeAction Config.tempBase r.1], r.2)
  | .showHumidity v =>
    let r := renderNibbles p .humidity v d
    ([writeAction Config.humBase r.1], r.2)
  | .showAllSegments => ([rangeAction 0 Config.nRam 0xF], 0)
  | .clearAll => ([rangeAction 0 Config.nRam 0x0], 0)
  | .clearTemperatureRegion => ([rangeAction Config.tempBase Config.regionLen 0x0], 0)
  | .clearHumidityRegion => ([rangeAction Config.humBase Config.regionLen 0x0], 0)

/-! ## Admission (R193) -/

/-- The operand checks of an operation in the order of R193 (commands, then addresses, nibbles, counts and durations,
then the end of the write). Of several out-of-range operands in one check the one named is the model's choice: an
address before a nibble or a count, and of a burst's nibbles the first in the list (log 35). -/
def operandFault (p : Params) : HostOp → Option BlockFault
  | .initialise a => checkInit (withDefaults p.initDefaults a)
  | .writeCommand c => checkCommand p.codes c
  | .writeOne a v => firstFault [checkAddress a, checkNibble v]
  | .writeBurst a vs => firstFault (checkAddress a :: (vs.map checkNibble ++ [checkFit a vs.length]))
  | .clearRange a n | .fillRange a n => firstFault [checkAddress a, checkCount n, checkFit a n]
  | .beep s => checkDuration s
  | .showTemperature v | .showHumidity v => checkValue p.floatFmt v
  | .construct _ _ | .displayOn | .displayOff | .showAllSegments | .clearAll
  | .clearTemperatureRegion | .clearHumidityRegion => none

/-- The admission check of every operation but `construct` (R193): constructed first, then the operands (log 10). -/
def admissionFault (p : Params) (op : HostOp) (st : Status) : Option BlockFault :=
  if st = .ready then operandFault p op else some .notConstructed

/-- An admitted operation is taken up: its frames are still to send (R24). -/
def beginOp (op : HostOp) (s : State) : State :=
  let r := expand s.params op s.draws
  { s with enc := { s.enc with op := some op, todo := r.1 }, draws := s.draws + r.2 }

/-! ## Construction (R180) -/

/-- The lines in the order they are tried (R180, D30). -/
def lineOrder : List Line := [.cs, .rd, .wr, .data]

/-- What a record holds for one line. -/
def lineOf {α : Type} (l : Line) (ls : Lines α) : α :=
  match l with
  | .cs => ls.cs
  | .rd => ls.rd
  | .wr => ls.wr
  | .data => ls.data

/-- The first line for which the GPIO abstraction answered no. -/
def firstRefused (answers : Lines Bool) : Option Line := lineOrder.find? (fun l => !lineOf l answers)

/-- A line could not be claimed (R180, R232): the status is Failed, every line's level is `Unknown`, and the TARGET
keeps its state (R268, log 14). -/
def constructFailed (l : Line) (op : HostOp) (s : State) : State :=
  let s := refuse (.lineAccessError l) (some op) s
  { s with line := allLines .unknown, enc := { s.enc with status := .failed } }

/-- Every line is driven high, in order (R22, R180). R180 calls the GPIO abstraction's `drive(L, 1)` and does not write
`line[L] <- 1` (R16, R111): that it takes each line to 1 as that assignment does, the event in the waveform included, is the
model's choice (log 13). -/
def driveHigh (s : State) : State := lineOrder.foldl (fun s l => drive l true s) s

/-- `construct` (R180). Its `INIT_DEFAULTS` are sent without the category check of R194, from which R193 excepts
construct; R245 speaks only of admitted defaults, so what others do is the model's choice (log 37). -/
def construct (configured driven : Lines Bool) (s : State) : State :=
  let op := HostOp.construct configured driven
  if s.enc.status = .unclaimed then
    match firstRefused configured with
    | some l => constructFailed l op s
    | none =>
      match firstRefused driven with
      | some l => constructFailed l op s
      | none =>
        let s := driveHigh s
        beginOp op { s with enc := { s.enc with status := .ready } }
  else refuse (.alreadyClaimed s.enc.status) (some op) s

/-- A host operation is issued: checked (R193), then taken up, or refused with the first fault (R243). The record names
the operation the HOST called: a renderer operation itself, not the one it expands to (the model's choice, log 20). -/
def issue (op : HostOp) (s : State) : State :=
  match op with
  | .construct configured driven => construct configured driven s
  | op =>
    match admissionFault s.params op s.enc.status with
    | some k => refuse k (some op) s
    | none => beginOp op s

/-- beep's sleep (R191): a wait of at least the time given, less the granularity (R277). -/
def sleep (seconds : Rat) (s : State) : State := wait (.sleep seconds) s

/-! ## Other inputs -/

/-- A bit list drawn, `k` long. -/
def drawBits (n : Nat) : Nat → List Bool
  | 0 => []
  | k + 1 => Config.drawBool n :: drawBits (n + 1) k

/-- A drawn level. -/
def drawLevel (n : Nat) : Level := .ofBool (Config.drawBool n)

/-- A drawn legal receiver state (R40): its kind from draw `n`, its length from the next, its bits from those after
(at most 8). -/
def drawRxState (n : Nat) : RxState :=
  let len := Config.draw (n + 1)
  match Config.draw n % 7 with
  | 0 => .idle
  | 1 => .id (drawBits (n + 2) (len % 3))
  | 2 => .cmd (drawBits (n + 2) (len % 9))
  | 3 => .cmdDone
  | 4 => .addr (drawBits (n + 2) (len % 6))
  | 5 => .data (drawBits (n + 2) (len % 4))
  | _ => .discard

/-- Any TARGET state (R114): every field a draw from number `n` on; every cell `Unknown`. -/
def anyTarget (n : Nat) : Target where
  cfg := PorCfg.unknown.drawn n
  counters := ⟨.unknown, .unknown, Config.draw (n + 12), Config.draw (n + 13)⟩
  ram := []
  rx := ⟨drawRxState (n + 14), Config.draw (n + 24), drawLevel (n + 25), drawLevel (n + 26)⟩

/-- A drawn fault of the TARGET (R242): its kind from draw `n`, what it records from the next ones. -/
def drawTargetFault (n : Nat) : BlockFault :=
  match Config.draw n % 5 with
  | 0 => .addressOverflow (Config.nRam + Config.draw (n + 1))
  | 1 => .unknownFrameId (drawBits (n + 1) 3)
  | 2 => .unknownCommand (BitVec.ofNat 9 (Config.draw (n + 1)))
  | 3 => .testModeUnmodelled (BitVec.ofNat 9 (Config.draw (n + 1)))
  | _ => .frameOverrun

/-- `k` drawn faults of the TARGET, four draws each from number `n` on. -/
def drawTargetFaults (n : Nat) : Nat → List BlockFault
  | 0 => []
  | k + 1 => drawTargetFault n :: drawTargetFaults (n + 4) k

/-- An interval below the bounds, made by another driver: "any TARGET state may result" (R114), the faults it records
included (20_memory R67): as many as a draw says, each drawn; those recorded before stay (R25; log 22). -/
def shortInterval (s : State) : State :=
  let k := Config.draw (s.draws + 27)
  noteTarget (drawTargetFaults (s.draws + 28) k)
    { s with target := anyTarget s.draws, draws := s.draws + 28 + 4 * k }

/-- A power cycle (R269): every piece of state is as at power-on, with fresh draws; the calls that wait outside stay
(log 16), and so do the parameters (R44). -/
def powerCycle (s : State) : State := State.powerOn s.params s.draws s.inbox

end Sys2Proof.Machine
end

