-- ==== Sys2Proof/Machine/Run.lean ====
section
/-! DEFINITION. What one step does: the frame the ENCODER has next, the end of an operation, or the next input (43_host_operations
R186). There is no program counter and no fetch from memory (10_state R21). -/

namespace Sys2Proof.Machine

/-- A frame made by `d` runs as the instruction it is (R3). Where it is none (R71, R75, R82), another agent's window is
taken bit by bit, and the ENCODER, which "never emits" it, refuses it as it does every operand outside R77 (log 33), but
sends the frame of a canonical command even where another code table makes it no instruction (R120, R14). -/
def runFrame (d : Driver) (f : Frame) (s : State) : Host.Outcome State Fault Refusal :=
  let s := { s with driver := d }
  match decode s.params.codes f with
  | .ok i => exec i s
  | .error _ =>
    match d with
    | .foreign => onQuietWire s (window f s)
    | .encoder => sendChecked (bitsFault s.params.codes f) f s

/-- The next input is taken (R186, R114, R269). -/
def takeItem (it : Item) (s : State) : Host.Outcome State Fault Refusal :=
  match it with
  | .call op => .next (issue op s)
  | .window f => runFrame .foreign f s
  | .edge l b => .next (foreignEdge l b { s with driver := .foreign })
  | .tooShort => .next (shortInterval { s with driver := .foreign })
  | .powerCycle => .next (powerCycle s)

/-- The rest of the operation's work. -/
def setTodo (todo : List Action) (s : State) : State := { s with enc := { s.enc with todo := todo } }

/-- One step with the ENCODER idle: the running operation goes on and ends before the next input is looked at (R186).
With nothing to do the block waits for the HOST (R261). -/
def advance (s : State) : Host.Outcome State Fault Refusal :=
  match s.enc.todo with
  | .frame f :: rest => runFrame .encoder f (setTodo rest s)
  | .sleep q :: rest => .next (sleep q (setTodo rest s))
  | [] =>
    match s.enc.op with
    | some _ => .next (finishOp s)
    | none =>
      match s.inbox with
      | it :: rest => takeItem it { s with inbox := rest }
      | [] => .next s

/-- One step: a frame that is partly sent goes on by one micro step (R24, log 17), else `advance`. -/
def runStep (s : State) : Host.Outcome State Fault Refusal :=
  if s.enc.phase = .idle then advance s else .next (tick s)

/-- The state in which the ENCODER's next frame is `f`: the block is constructed, the lines are idle-high and seen so
(R22, R262), and `f` is what is left to send (log 15). -/
def loadFrame (f : Frame) (s : State) : State :=
  { s with
    line := allLines .high
    enc := { s.enc with status := .ready, todo := [.frame f], phase := .idle }
    target := { s.target with rx := { s.target.rx with csPrev := .high, wrPrev := .high } } }

end Sys2Proof.Machine
end

