-- ==== Sys2Proof/Machine/Step.lean ====
section
/-! DEFINITION. One step of the machine, and a table word placed where the next step takes it. -/

namespace Sys2Proof.Machine

/-- One step. -/
def step (s : State) : Host.Outcome State Fault Refusal := runStep s

/-- The state whose next step runs the frame of a table word (log 15, log 26). -/
def State.withFetchWord (s : State) (nbits w : Nat) : State := loadFrame (frameOfWord nbits w) s

end Sys2Proof.Machine
end

