-- ==== Sys2Proof/Machine/Flags.lean ====
section
/-! DEFINITION. The block has no condition codes (COVERAGE B3). Its status values are computed here: the derived outputs of
10_state R43, what the fields' values stand for (00_scope R14), and the fault codes of 60_exceptions R242. -/

namespace Sys2Proof.Machine

/-- `display_driven` (R43): the glass is driven from RAM. -/
def displayDriven (m : Meanings) (c : Cfg) : Bool := (c.osc == .on || !m.lcdNeedsOsc) && c.lcd == .on

/-- `tone_sounding` (R43): the buzzer outputs toggle at `cfg.tone_freq`. -/
def toneSounding (m : Meanings) (c : Cfg) : Bool := (c.osc == .on || !m.toneNeedsOsc) && c.tone == .on

/-- The system clock source (R32). The model gives it no effect on anything (92_eei_decisions D35). -/
def clockSource (v : FieldValues) : ClkSrc → ClockSource
  | .xtal32k => v.clockSources.1
  | .rc256k => v.clockSources.2.1
  | .ext256k => v.clockSources.2.2

/-- The tone's frequency in hertz (R31). -/
def toneFreqHertz (v : FieldValues) : ToneFreq → Nat
  | .f4k => v.toneHertz.1
  | .f2k => v.toneHertz.2

/-- The bias ratio (R33). -/
def biasRatio (v : FieldValues) : Bias → Rat
  | .b1_2 => v.biasRatio.1
  | .b1_3 => v.biasRatio.2

/-- The number of commons (R33). -/
def comCount (v : FieldValues) : Com → Nat
  | .com2 => v.commons.1
  | .com3 => v.commons.2.1
  | .com4 => v.commons.2.2

/-- The time-base frequency in hertz (R35). -/
def timebaseHertz (v : FieldValues) : TbFreq → Nat
  | .hz1 => v.timebaseHertz[0]
  | .hz2 => v.timebaseHertz[1]
  | .hz4 => v.timebaseHertz[2]
  | .hz8 => v.timebaseHertz[3]
  | .hz16 => v.timebaseHertz[4]
  | .hz32 => v.timebaseHertz[5]
  | .hz64 => v.timebaseHertz[6]
  | .hz128 => v.timebaseHertz[7]

/-- The watchdog's time-out in seconds at a time-base frequency (41_command_frames section 9): no rule reads it (R38). -/
def wdtTimeoutSeconds (v : FieldValues) (f : TbFreq) : Rat := v.wdtPeriods / timebaseHertz v f

/-- Is the operating mode one for users (R36, R155)? -/
def modeForUsers (v : FieldValues) : Mode → Bool
  | .normal => v.userModes.1
  | .test => v.userModes.2

/-- The fault code table (R242). -/
def BlockFault.code : BlockFault → Nat
  | .lineAccessError _ => 1
  | .alreadyClaimed _ => 2
  | .notConstructed => 3
  | .operandRange _ => 4
  | .addressOverflow _ => 5
  | .unknownFrameId _ => 6
  | .unknownCommand _ => 7
  | .testModeUnmodelled _ => 8
  | .frameOverrun => 9

/-- A run has not failed (R231: "any state with a recorded fault" is "a failed run"). -/
def faultFree (s : State) : Bool := s.faults.isEmpty

end Sys2Proof.Machine
end

