-- ==== Sys2Proof/Safety.lean ====
section
/-! DEFINITION. The terms claims use: when the ENCODER may send a frame (40_bus_signalling R102, R103), what a whole frame does to
everything but the TARGET's contents (R101 to R103), the waveform of a frame (R111), and the invariant of a block whose
lines only its own ENCODER drives (R115). -/

namespace Sys2Proof

/-- Every command's canonical value stands for that command (R80, R81): what a code table has to be for the ENCODER's
commands to reach the TARGET. -/
def CodeTable.Sound (codes : CodeTable) : Prop := ∀ n : Command, codes.lookup (codes.code n) = some n

/-- The instruction is one of the code table: its frame stands for it (R81). Under the default table every instruction
is. -/
def CodeTable.Has (codes : CodeTable) (i : Instr) : Prop := decode codes (encode codes i) = .ok i.canon

/-- An instruction that is a command frame (R72). -/
def isCommand (i : Instr) : Bool :=
  match i.fields with
  | .command _ _ => true
  | .write _ _ => false

namespace Machine

/-- The lines are idle (00_scope R19: "CS, RD and WR high") and the TARGET has seen CS and WR so (10_state R42). -/
structure Quiet (s : State) : Prop where
  cs : s.line.cs = .high
  rd : s.line.rd = .high
  wr : s.line.wr = .high
  csSeen : s.target.rx.csPrev = .high
  wrSeen : s.target.rx.wrPrev = .high

/-- The ENCODER may send a frame now: it drives the wire, the block is constructed (R23, R263) and the lines are idle
(R102's precondition). -/
structure CanSend (s : State) : Prop where
  encoder : s.driver = .encoder
  ready : s.enc.status = .ready
  quiet : Quiet s

/-- Another agent may make a window now (95_test_vectors P5 part B). -/
structure CanWindow (s : State) : Prop where
  foreign : s.driver = .foreign
  quiet : Quiet s

/-- The events of the bit cells of a frame (R101): the final cell ends with `T_CSH`, the others with `T_EDGE`. -/
def cellsWave : Frame → List WaveEvent
  | [] => []
  | [b] => [.set .data b, .set .wr false, .wait .edge, .set .wr true, .wait .csh]
  | b :: c :: f =>
    [.set .data b, .set .wr false, .wait .edge, .set .wr true, .wait .edge] ++ cellsWave (c :: f)

/-- The waveform of SendFrame up to the CS rising edge (R102). -/
def lowWave (f : Frame) : List WaveEvent :=
  [.set .cs false, .wait .css] ++ cellsWave f ++ [.set .cs true]

/-- The waveform of SendFrame (R102). -/
def frameWave (f : Frame) : List WaveEvent := lowWave f ++ [.wait .gap]

/-- The level DATA is left at: that of the last bit sent (R103). -/
def dataAfter (f : Frame) (l : Level) : Level :=
  match f.getLast? with
  | some b => .ofBool b
  | none => l

/-- The receiver and the counters once a window has closed: IDLE, both edge detectors high (R109), time has passed
(R38), and `rx.ptr` as it was (the model's choice, log 32). -/
def Target.closed (t : Target) : Target :=
  { t.age with rx := { t.rx with st := .idle, csPrev := .high, wrPrev := .high } }

/-- What a frame sent by the ENCODER leaves besides the effect of its bits, which has already been put into `s`: the
lines, the sequencing position, the waveform and the closed receiver (R101 to R103, R109). -/
def sentState (f : Frame) (s : State) : State :=
  { s with
    line := { s.line with cs := .high, wr := .high, data := dataAfter f s.line.data }
    enc := { s.enc with frame := [], k := f.length, phase := .idle }
    wave := s.wave ++ frameWave f
    target := s.target.closed }

/-- The same of a window made by another agent: the ENCODER's position and the waveform stay. -/
def windowState (f : Frame) (s : State) : State :=
  { s with
    line := { s.line with cs := .high, wr := .high, data := dataAfter f s.line.data }
    target := s.target.closed }

/-- The state with a function of the configuration applied. -/
def mapCfg (g : Cfg → Cfg) (s : State) : State := { s with target := { s.target with cfg := g s.target.cfg } }

/-- The state with a function of the counters applied. -/
def mapCounters (g : Counters → Counters) (s : State) : State :=
  { s with target := { s.target with counters := g s.target.counters } }

/-- The state with `ds` in the cells from `a` on and the pointer behind them (R165), where it stays when the frame has
ended (the model's choice, log 32). -/
def writeCells (a : Nat) (ds : List Nibble) (s : State) : State :=
  { s with
    target :=
      { s.target with
        ram := s.target.ram.putAll a ds
        rx := { s.target.rx with ptr := a + ds.length } } }

/-- The content of a display cell (R39); none is `Unknown`. -/
def cell (s : State) (a : Nat) : Option Nibble := s.target.ram.get a

/-- `i` completes with the effect `g` under every code table that has it: sent by the ENCODER where R77 admits it, and
received from another agent's window with any ignored bits (R79). -/
def Completes (i : Instr) (g : State → State) : Prop :=
  (∀ s, s.params.codes.Has i → i.wellFormed = true → CanSend s →
    exec i s = .next (sentState (encode s.params.codes i) (g s))) ∧
  ∀ s, s.params.codes.Has i → CanWindow s → exec i s = .next (windowState (encode s.params.codes i) (g s))

/-- The constructed block is at rest and the HOST's next call is `op` (R186). -/
structure CanCall (op : HostOp) (rest : List Item) (s : State) : Prop where
  ready : s.enc.status = .ready
  quiet : Quiet s
  phase : s.enc.phase = .idle
  noOp : s.enc.op = none
  noTodo : s.enc.todo = []
  next : s.inbox = .call op :: rest

/-- The call is taken out of the inbox and the ENCODER has the wire. -/
def takenUp (rest : List Item) (s : State) : State := { s with inbox := rest, driver := .encoder }

/-- The operation has returned `Ok` (R192). -/
def returnedOk (s : State) : State := { s with result := some .ok }

/-- The TIMER setting a command makes (R126, R128). -/
def timerSetting : Command → Enable
  | .timerEn => .en
  | _ => .dis

/-- The watchdog setting a command makes (R127, R129). -/
def watchdogSetting : Command → Enable
  | .wdtEn => .en
  | _ => .dis

/-- The clock source a command selects (R134 to R136). -/
def clockSetting : Command → ClkSrc
  | .xtal32k => .xtal32k
  | .ext256k => .ext256k
  | _ => .rc256k

/-- The bias a command selects (R137 to R142). -/
def biasSetting : Command → Bias
  | .bias1_2_2com | .bias1_2_3com | .bias1_2_4com => .b1_2
  | _ => .b1_3

/-- The number of commons a command selects (R137 to R142). -/
def comSetting : Command → Com
  | .bias1_2_2com | .bias1_3_2com => .com2
  | .bias1_2_3com | .bias1_3_3com => .com3
  | _ => .com4

/-- The tone frequency a command selects (R143, R144). -/
def toneFreqSetting : Command → ToneFreq
  | .tone2k => .f2k
  | _ => .f4k

/-- The IRQ setting a command makes (R145, R146). -/
def irqSetting : Command → Enable
  | .irqEn => .en
  | _ => .dis

/-- The time-base frequency a command selects (R147 to R154). -/
def timebaseSetting : Command → TbFreq
  | .f1 => .hz1
  | .f2 => .hz2
  | .f4 => .hz4
  | .f8 => .hz8
  | .f16 => .hz16
  | .f32 => .hz32
  | .f64 => .hz64
  | _ => .hz128

/-- The configuration after `initialize` with the arguments `a`, from one whose tone output was `tone`, where SYS_DIS left
`lcd` (R196). -/
def initialisedCfg (a : InitArgs Command) (tone lcd : OnOff) : Cfg where
  osc := .on
  lcd := lcd
  timerOut := timerSetting a.timer
  wdtOut := watchdogSetting a.watchdog
  tone := tone
  toneFreq := toneFreqSetting a.toneFreq
  clkSrc := clockSetting a.clock
  bias := biasSetting a.biasCom
  com := comSetting a.biasCom
  irq := irqSetting a.irq
  tbFreq := timebaseSetting a.timebase
  mode := .normal

/-- The frames of a list of work, in order. -/
def framesOf (as : List Action) : List Frame :=
  as.filterMap (fun a =>
    match a with
    | .frame f => some f
    | .sleep _ => none)

/-- The DATA levels at the WR rising edges of a waveform: the bits it carries (R111). `d` is DATA's level before. -/
def sampledBits : Bool → List WaveEvent → List Bool
  | _, [] => []
  | _, .set .data b :: es => sampledBits b es
  | d, .set .wr true :: es => d :: sampledBits d es
  | d, _ :: es => sampledBits d es

/-- The levels a waveform gives CS, in order: `false` is an assertion, `true` a release. -/
def csEvents (es : List WaveEvent) : List Bool :=
  es.filterMap (fun e =>
    match e with
    | .set .cs b => some b
    | _ => none)

/-- An input that the block's own use can bring: a call or a power cycle; no other agent drives a line (R115,
R273). -/
def Item.own : Item → Bool
  | .call _ | .powerCycle => true
  | .window _ | .edge _ _ | .tooShort => false

/-- What is still to send is admitted (R77, R193). -/
def Action.admitted (codes : CodeTable) : Action → Bool
  | .sleep _ => true
  | .frame f =>
    match decode codes f with
    | .ok i => i.wellFormed
    | .error _ => false

/-- The invariant of a block whose lines only its ENCODER drives (R115): between frames nothing is partly sent (R24); once
constructed the lines are idle and RD has stayed high (R103, R108); before, nothing is to be sent (R263); only admitted
frames are to be sent (R77); the receiver is idle; the display memory is canonical (R50); the mode is Normal (R156);
the TARGET has raised no fault (R242) and no record is there twice (R25). Of the parameters it asks that the code table
be sound, that the defaults of `initialize` be of their categories (R194), and that the chip power on in Normal (R37). -/
structure Owned (s : State) : Prop where
  codes : s.params.codes.Sound
  defaults : checkInit s.params.initDefaults = none
  porMode : s.params.porCfg.mode = some .normal
  own : s.inbox.all Item.own = true
  idle : s.enc.phase = .idle
  noFrame : s.enc.frame = []
  quiet : s.enc.status = .ready → Quiet s
  unsent : s.enc.status ≠ .ready → s.enc.todo = [] ∧ s.enc.op = none
  admitted : s.enc.todo.all (Action.admitted s.params.codes) = true
  receiver : s.target.rx.st = .idle
  memory : s.target.ram.wf
  mode : s.target.cfg.mode = .normal
  noTargetFault : ∀ r ∈ s.faults, r.agent ≠ .target
  faultsOnce : s.faults.Nodup

end Machine

end Sys2Proof
end

