-- ==== Sys2Proof/Certificates/Slice0/Obligations.lean ====
section
/-! DEFINITION. The statements for the provers. Each docstring names the rules it formalises and, where a clause rests on the
model's own choice, the log entry. -/

section Statements

open Sys2Proof Sys2Proof.Machine

/-! ## Encoding -/

/-- R53: a field of width `w` holding `v` goes out as `w` bits, most significant first (bit `i` sent is bit
`w - 1 - i` of `v`), and the fields of both frame kinds follow one another with no bit between them. -/
def Obligations.FieldsGoOutMsbFirst : Prop :=
  (∀ w v, (bitsOf w v).length = w) ∧
  (∀ w v i, i < w → (bitsOf w v)[i]? = some (v.testBit (w - 1 - i))) ∧
  (∀ c : Code, commandFrame c = bitsOf 3 0b100 ++ bitsOf 9 c.toNat) ∧
  ∀ (a : Addr) (ds : List Nibble),
    writeFrame a ds = bitsOf 3 0b101 ++ bitsOf 6 a.toNat ++ ds.flatMap (fun d => bitsOf 4 d.toNat)

/-- R72: the 12 bits of a command frame, one by one, and the frame as a 12-bit integer. -/
def Obligations.CommandFrameFormat : Prop :=
  ∀ c : Code,
    commandFrame c =
      [true, false, false, c.getLsbD 8, c.getLsbD 7, c.getLsbD 6, c.getLsbD 5, c.getLsbD 4, c.getLsbD 3, c.getLsbD 2,
        c.getLsbD 1, c.getLsbD 0] ∧
    (commandFrame c).length = 12 ∧ valueOf (commandFrame c) = 0x800 ||| c.toNat

/-- R73: the 13 bits of a single write frame, one by one, and the frame as a 13-bit integer. -/
def Obligations.SingleWriteFrameFormat : Prop :=
  ∀ (codes : CodeTable) (a : Addr) (d : Nibble),
    encode codes (.wr a d) =
      [true, false, true, a.getLsbD 5, a.getLsbD 4, a.getLsbD 3, a.getLsbD 2, a.getLsbD 1, a.getLsbD 0, d.getLsbD 3,
        d.getLsbD 2, d.getLsbD 1, d.getLsbD 0] ∧
    (encode codes (.wr a d)).length = 13 ∧
    valueOf (encode codes (.wr a d)) = 0x1400 ||| a.toNat <<< 4 ||| d.toNat

/-- R74, R75: the fields of a burst frame by their places, its length, and that one nibble makes the frame of WR. -/
def Obligations.BurstFrameFormat : Prop :=
  ∀ (codes : CodeTable) (a : Addr) (ds : List Nibble),
    (encode codes (.wrb a ds)).length = 9 + 4 * ds.length ∧
    (encode codes (.wrb a ds)).take 9 = [true, false, true] ++ bitsOf 6 a.toNat ∧
    (∀ i d, ds[i]? = some d → ((encode codes (.wrb a ds)).drop (9 + 4 * i)).take 4 = bitsOf 4 d.toNat) ∧
    ∀ d, encode codes (.wrb a [d]) = encode codes (.wr a d)

/-- Decode and encode agree. Under the default code table the frame of every instruction, with every operand at every
value its field admits, the ignored bits included, decodes to that instruction (R71 to R74, R80, R81); under any sound
code table the frame of every well-formed one does (R14). A burst of one nibble decodes as WR, whose frame it is (R165,
log 24). -/
def Obligations.EncodedInstructionsDecode : Prop :=
  (∀ i : Instr, decode Config.codes (encode Config.codes i) = .ok i.canon) ∧
  ∀ (codes : CodeTable) (i : Instr), codes.Sound → i.wellFormed = true →
    decode codes (encode codes i) = .ok i.canon

/-- No bit of a frame is dropped, whatever the code table: a frame that decodes is the frame of the instruction it
decodes to. Under the default table every code that stands for a command decodes to that command. -/
def Obligations.DecodedFramesReencode : Prop :=
  (∀ (codes : CodeTable) (f : Frame) (i : Instr), decode codes f = .ok i → encode codes i = f) ∧
  ∀ (c : Code) (n : Command), Config.codes.lookup c = some n →
    ∃ i x, decode Config.codes (commandFrame c) = .ok i ∧ i.fields = .command n x

/-- R81, R82 for any code table: the row found matches and no matching row compares more bits; none is found exactly
when no row matches. For the table of R80 the overlapping codes are CLR_WDT, and the reserved codes are those R82
lists. R81 speaks of two matching rows at most; the order by weight among more of them is the model's choice (log 36). -/
def Obligations.CommandDecoding : Prop :=
  (∀ (rows : List Row) (c : Code) (r : Row), findRow rows c = some r →
    r ∈ rows ∧ r.hits (c.extractLsb' 1 8) = true ∧
      ∀ q ∈ rows, q.hits (c.extractLsb' 1 8) = true → q.weight ≤ r.weight) ∧
  (∀ (rows : List Row) (c : Code), findRow rows c = none ↔ ∀ q ∈ rows, q.hits (c.extractLsb' 1 8) = false) ∧
  (∀ x : BitVec 1, Config.codes.lookup (0x0E#8 ++ x) = some .clrWdt ∧
    Config.codes.lookup (0x0F#8 ++ x) = some .clrWdt) ∧
  (∀ (k : BitVec 8) (x : BitVec 1), Config.codes.lookup (k ++ x) = none ↔
    (0x0A ≤ k.toNat ∧ k.toNat ≤ 0x0B) ∨ (0x10 ≤ k.toNat ∧ k.toNat ≤ 0x13) ∨ (0x2C ≤ k.toNat ∧ k.toNat ≤ 0x3F) ∨
      (0x70 ≤ k.toNat ∧ k.toNat ≤ 0x7F) ∨ (0xC0 ≤ k.toNat ∧ k.toNat ≤ 0xDF) ∨ (0xE1 ≤ k.toNat ∧ k.toNat ≤ 0xE2) ∨
        0xE4 ≤ k.toNat)

/-- Words of the spec's examples, one of each family, decode to the instruction they stand for (R80, R164, R165). -/
def Obligations.SpecWordsDecode : Prop :=
  decodeTableWord 12 0x800 = some (.sysDis 0) ∧ decodeTableWord 12 0x806 = some (.lcdOn 0) ∧
  decodeTableWord 12 0x80E = some (.wdtEn 0) ∧ decodeTableWord 12 0x812 = some (.toneOn 0) ∧
  decodeTableWord 12 0x81C = some (.clrWdt 0) ∧ decodeTableWord 12 0x830 = some (.rc256k 0) ∧
  decodeTableWord 12 0x852 = some (.bias1_3_4com 0 0) ∧ decodeTableWord 12 0x8C0 = some (.tone2k 0) ∧
  decodeTableWord 12 0x910 = some (.irqEn 0 0) ∧ decodeTableWord 12 0x94E = some (.f128 0 0) ∧
  decodeTableWord 12 0x9C0 = some (.test 0) ∧ decodeTableWord 12 0x9C6 = some (.normal 0) ∧
  decodeTableWord 13 0x1459 = some (.wr 0x05 0x9) ∧ decodeTableWord 17 0x15E12 = some (.wrb 0x1E [0x1, 0x2])

/-- R77, under every sound code table: the ENCODER has no fault for exactly the well-formed instructions: canonical
commands other than TEST, and writes at 0 to 31 that end by cell 31. -/
def Obligations.EncoderAdmitsWellFormed : Prop :=
  (∀ (codes : CodeTable) (i : Instr), codes.Sound → codes.Has i → (instrFault codes i = none ↔ i.wellFormed = true)) ∧
  (∀ (a : Addr) (ds : List Nibble),
    (Instr.wrb a ds).wellFormed = true ↔ a.toNat ≤ 31 ∧ a.toNat + ds.length ≤ 32) ∧
  (∀ (codes : CodeTable) (i : Instr), isCommand i = true → codes.Sound → codes.Has i →
    (i.wellFormed = true ↔ ∃ n : Command, n ≠ .test ∧ encode codes i = commandFrame (codes.code n)))

/-- R120: the frame of a command; a canonical command other than TEST is sent with SendFrame, any other code is refused
with OperandRange before any line moves; the don't-care bit `c[0]` of every canonical value is 0. The canonical frame is
sent under every code table (R14), one that makes its bits another instruction, or none, included; that it is sent also where
a table gives TEST the same value is the model's choice (log 38). -/
def Obligations.CommandFrameEncoder : Prop :=
  (∀ c : Code, commandFrame c = [true, false, false] ++ bitsOf 9 c.toNat) ∧
  (∀ (codes : CodeTable) (n : Command), (codes.code n).getLsbD 0 = false) ∧
  (∀ (n : Command) (s : State), n ≠ .test → s.params.codes.Sound → CanSend s →
    ∃ i, decode s.params.codes (commandFrame (s.params.codes.code n)) = .ok i ∧
      exec i s = .next (sendFrame (commandFrame (s.params.codes.code n)) s)) ∧
  (∀ (n : Command) (s : State), n ≠ .test → CanSend s →
    runFrame .encoder (commandFrame (s.params.codes.code n)) s =
      .next (sendFrame (commandFrame (s.params.codes.code n)) s)) ∧
  (∀ (c : Code) (i : Instr) (s : State), (∀ n : Command, n ≠ .test → c ≠ s.params.codes.code n) → CanSend s →
    decode s.params.codes (commandFrame c) = .ok i →
    ∃ o, exec i s = .next (refuse (.operandRange o) s.enc.op s) ∧
      (refuse (.operandRange o) s.enc.op s).line = s.line) ∧
  (∀ (p : Params) (v : Int), (∀ n : Command, n ≠ .test → v ≠ (p.codes.code n).toNat) →
    operandFault p (.writeCommand (.value v)) = some (.operandRange (.command (.value v))))

/-! ## What each command frame does -/

/-- R122 to R125: SYS_DIS turns the oscillator off, and the LCD bias generator where the meanings of the fields say so, as
the spec's do; SYS_EN turns the oscillator on, LCD_OFF and LCD_ON write `cfg.lcd`. That SYS_DIS also writes `cfg.lcd`
and that the glass is driven from both (R43) are the spec's general knowledge (log 7), which R14 makes parameters. -/
def Obligations.OscillatorAndLcdCommands : Prop :=
  (∀ x, Completes (.sysDis x) (fun s =>
      mapCfg (fun c => { c with osc := .off, lcd := lcdAfterSysDis s.params.meanings c.lcd }) s) ∧
    Completes (.sysEn x) (mapCfg (fun c => { c with osc := .on })) ∧
    Completes (.lcdOff x) (mapCfg (fun c => { c with lcd := .off })) ∧
    Completes (.lcdOn x) (mapCfg (fun c => { c with lcd := .on }))) ∧
  (∀ l, lcdAfterSysDis Config.meanings l = .off) ∧
  ∀ c, displayDriven Config.meanings c = true ↔ c.osc = .on ∧ c.lcd = .on

/-- R126 to R129: the time-base and watchdog output enables. -/
def Obligations.TimerAndWatchdogOutputs : Prop :=
  ∀ x, Completes (.timerDis x) (mapCfg (fun c => { c with timerOut := .dis })) ∧
    Completes (.timerEn x) (mapCfg (fun c => { c with timerOut := .en })) ∧
    Completes (.wdtDis x) (mapCfg (fun c => { c with wdtOut := .dis })) ∧
    Completes (.wdtEn x) (mapCfg (fun c => { c with wdtOut := .en }))

/-- R130, R131, R143, R144: the tone output and its frequency; under the spec's meanings of the fields (R14, log 7) the
tone sounds only while the oscillator runs (R43), at 4 or 2 kHz (R31). -/
def Obligations.ToneCommands : Prop :=
  (∀ x, Completes (.toneOff x) (mapCfg (fun c => { c with tone := .off })) ∧
    Completes (.toneOn x) (mapCfg (fun c => { c with tone := .on }))) ∧
  (∀ x, Completes (.tone4k x) (mapCfg (fun c => { c with toneFreq := .f4k }))) ∧
  (∀ x, Completes (.tone2k x) (mapCfg (fun c => { c with toneFreq := .f2k }))) ∧
  (∀ c, toneSounding Config.meanings c = true ↔ c.osc = .on ∧ c.tone = .on) ∧
  toneFreqHertz Config.meanings.values .f4k = 4000 ∧ toneFreqHertz Config.meanings.values .f2k = 2000

/-- R132, R133, R38: each clear is recorded as one event and sets its counter to 0 at the ninth command bit; by the end
of the frame the counter has run on (log 8). -/
def Obligations.CounterClears : Prop :=
  (∀ x, Completes (.clrTimer x) (mapCounters (fun k => { k with tbClears := k.tbClears + 1 }))) ∧
  (∀ x, Completes (.clrWdt x) (mapCounters (fun k => { k with wdtClears := k.wdtClears + 1 }))) ∧
  (∀ (p : Params) c t, p.codes.lookup c = some .clrTimer →
    (execute p c t).1.counters = { t.counters with tbCount := .zero, tbClears := t.counters.tbClears + 1 }) ∧
  ∀ (p : Params) c t, p.codes.lookup c = some .clrWdt →
    (execute p c t).1.counters = { t.counters with wdtCount := .zero, wdtClears := t.counters.wdtClears + 1 }

/-- R134 to R136: the clock source; under the spec's meanings of the fields (R14, log 7) a 32 kHz crystal, the 256 kHz RC
oscillator or an external 256 kHz clock (R32). -/
def Obligations.ClockSourceCommands : Prop :=
  (∀ x, Completes (.xtal32k x) (mapCfg (fun c => { c with clkSrc := .xtal32k })) ∧
    Completes (.rc256k x) (mapCfg (fun c => { c with clkSrc := .rc256k })) ∧
    Completes (.ext256k x) (mapCfg (fun c => { c with clkSrc := .ext256k }))) ∧
  clockSource Config.meanings.values .xtal32k = ⟨.crystal, 32⟩ ∧
  clockSource Config.meanings.values .rc256k = ⟨.onChipRc, 256⟩ ∧
  clockSource Config.meanings.values .ext256k = ⟨.external, 256⟩

/-- R137 to R142: each BIAS command writes the bias and the commons together. -/
def Obligations.BiasCommands : Prop :=
  ∀ y x, Completes (.bias1_2_2com y x) (mapCfg (fun c => { c with bias := .b1_2, com := .com2 })) ∧
    Completes (.bias1_2_3com y x) (mapCfg (fun c => { c with bias := .b1_2, com := .com3 })) ∧
    Completes (.bias1_2_4com y x) (mapCfg (fun c => { c with bias := .b1_2, com := .com4 })) ∧
    Completes (.bias1_3_2com y x) (mapCfg (fun c => { c with bias := .b1_3, com := .com2 })) ∧
    Completes (.bias1_3_3com y x) (mapCfg (fun c => { c with bias := .b1_3, com := .com3 })) ∧
    Completes (.bias1_3_4com y x) (mapCfg (fun c => { c with bias := .b1_3, com := .com4 }))

/-- R145, R146, R156: the IRQ output enable, and NORMAL. -/
def Obligations.IrqAndNormalCommands : Prop :=
  (∀ y x, Completes (.irqDis y x) (mapCfg (fun c => { c with irq := .dis })) ∧
    Completes (.irqEn y x) (mapCfg (fun c => { c with irq := .en }))) ∧
  ∀ x, Completes (.normal x) (mapCfg (fun c => { c with mode := .normal }))

/-- R147 to R154: the eight time-base frequencies. -/
def Obligations.TimeBaseCommands : Prop :=
  ∀ y x, Completes (.f1 y x) (mapCfg (fun c => { c with tbFreq := .hz1 })) ∧
    Completes (.f2 y x) (mapCfg (fun c => { c with tbFreq := .hz2 })) ∧
    Completes (.f4 y x) (mapCfg (fun c => { c with tbFreq := .hz4 })) ∧
    Completes (.f8 y x) (mapCfg (fun c => { c with tbFreq := .hz8 })) ∧
    Completes (.f16 y x) (mapCfg (fun c => { c with tbFreq := .hz16 })) ∧
    Completes (.f32 y x) (mapCfg (fun c => { c with tbFreq := .hz32 })) ∧
    Completes (.f64 y x) (mapCfg (fun c => { c with tbFreq := .hz64 })) ∧
    Completes (.f128 y x) (mapCfg (fun c => { c with tbFreq := .hz128 }))

/-- R155, R238: TEST completes in another agent's window with `TestModeUnmodelled` recorded and the configuration as it
was; the ENCODER refuses it with `OperandRange` before any line moves, as an instruction, and in `write_command` by its
name under every code table. -/
def Obligations.TestCommand : Prop :=
  (∀ (x : BitVec 1) (s : State), s.params.codes.Has (.test x) → CanWindow s →
    exec (.test x) s = .next (windowState (encode s.params.codes (.test x))
      (raise (.testModeUnmodelled (s.params.codes.codeWith .test x.toNat)) .target s.enc.op s))) ∧
  (∀ (x : BitVec 1) (s : State), s.params.codes.Sound → s.params.codes.Has (.test x) → CanSend s →
    exec (.test x) s = .next
      (refuse (.operandRange (.command (.value (s.params.codes.codeWith .test x.toNat).toNat))) s.enc.op s)) ∧
  (∀ p : Params, operandFault p (.writeCommand (.named .test)) = some (.operandRange (.command (.named .test)))) ∧
  ∀ x : BitVec 1, (Config.codes.codeWith .test x.toNat).toNat = 0x1C0 + x.toNat

/-- R59: a command other than a counter clear, sent twice in a row, leaves the TARGET as sending it once does. -/
def Obligations.RepeatedCommand : Prop :=
  ∀ (i : Instr) (s : State), isCommand i = true → i.wellFormed = true → s.params.codes.Has i → CanSend s →
    (∀ x, i ≠ .clrTimer x) → (∀ x, i ≠ .clrWdt x) →
    ∃ t u, exec i s = .next t ∧ exec i t = .next u ∧ u.target = t.target

/-! ## What write frames do -/

/-- R164: the frame of WR; WR writes one cell and moves the pointer behind it, at every address 0 to 31 and every
nibble (where the pointer stands when the frame has ended is the model's choice, log 32); at an address past 31 the
ENCODER refuses it with `OperandRange`, as an instruction and in `write_one`, and a nibble past 15 too. That `write_one`
names the address where the nibble is out of range as well is the model's choice (log 35). -/
def Obligations.SingleWrite : Prop :=
  (∀ (codes : CodeTable) (a : Addr) (d : Nibble),
    encode codes (.wr a d) = bitsOf 3 0b101 ++ bitsOf 6 a.toNat ++ bitsOf 4 d.toNat) ∧
  (∀ (a : Addr) (d : Nibble), a.toNat ≤ 31 → Completes (.wr a d) (writeCells a.toNat [d])) ∧
  (∀ (a : Addr) (d : Nibble) (s : State), 31 < a.toNat → CanSend s →
    exec (.wr a d) s = .next (refuse (.operandRange (.address a.toNat)) s.enc.op s)) ∧
  (∀ (p : Params) (a d : Int), 31 < a → operandFault p (.writeOne a d) = some (.operandRange (.address a))) ∧
  ∀ (p : Params) (a d : Int), 0 ≤ a → a ≤ 31 → 15 < d → operandFault p (.writeOne a d) = some (.operandRange (.nibble d))

/-- R165, R166, R169: WRB writes its nibbles to consecutive cells; with none it writes nothing and records nothing,
even at an address past 31 in another agent's window; what does not fit the ENCODER refuses, the address first. Where
`rx.ptr` stands when the frame has ended is the model's choice (log 32). -/
def Obligations.BurstWrite : Prop :=
  (∀ (a : Addr) (ds : List Nibble), a.toNat + ds.length ≤ 32 → Completes (.wrb a ds) (writeCells a.toNat ds)) ∧
  (∀ (a : Addr) (s : State), CanWindow s →
    exec (.wrb a []) s = .next (windowState (encode s.params.codes (.wrb a [])) (writeCells a.toNat [] s))) ∧
  (∀ (a : Addr) (ds : List Nibble) (s : State), 31 < a.toNat → CanSend s →
    exec (.wrb a ds) s = .next (refuse (.operandRange (.address a.toNat)) s.enc.op s)) ∧
  (∀ (a : Addr) (ds : List Nibble) (s : State), a.toNat ≤ 31 → 32 < a.toNat + ds.length → CanSend s →
    exec (.wrb a ds) s = .next (refuse (.addressOverflow (a.toNat + ds.length - 1)) s.enc.op s)) ∧
  ∀ (m : Memory) (a b : Nat) (ds : List Nibble),
    (m.putAll a ds).get b = if a ≤ b ∧ b < a + ds.length then ds[b - a]? else m.get b

/-- R161, R162, R168, R235: nibbles past cell 31, which only another agent can send: those that fit are written, the
first that does not records `AddressOverflow` with the pointer, and the rest of the window is ignored. Where `rx.ptr`
stands when the window has closed is the model's choice (log 32). -/
def Obligations.WriteOverflow : Prop :=
  (∀ (a : Addr) (ds : List Nibble) (s : State), ds ≠ [] → 32 < a.toNat + ds.length → CanWindow s →
    exec (.wrb a ds) s = .next (windowState (encode s.params.codes (.wrb a ds))
      (raise (.addressOverflow (max a.toNat 32)) .target s.enc.op (writeCells a.toNat (ds.take (32 - a.toNat)) s)))) ∧
  ∀ (a : Addr) (d : Nibble) (s : State), 31 < a.toNat → CanWindow s →
    exec (.wr a d) s = .next (windowState (encode s.params.codes (.wr a d))
      (raise (.addressOverflow a.toNat) .target s.enc.op (writeCells a.toNat [] s)))

/-! ## Windows that are no instruction (R109) -/

/-- R109, R167: a window that ends inside a field drops that field: inside the flag, the command or the address
nothing changes, inside a nibble the complete nibbles before it stay; a partial nibble leaves no fault at any address,
past cell 31 too. Where `rx.ptr` stands when the window has closed is the model's choice (log 32). -/
def Obligations.PartialFields : Prop :=
  (∀ (f : Frame) (s : State), f ≠ [] → f.length < 3 → Quiet s → window f s = windowState f s) ∧
  (∀ (bs : List Bool) (s : State), bs.length < 9 → Quiet s →
    window (commandFlag ++ bs) s = windowState (commandFlag ++ bs) s) ∧
  (∀ (bs : List Bool) (s : State), bs.length < 6 → Quiet s →
    window (writeFlag ++ bs) s = windowState (writeFlag ++ bs) s) ∧
  ∀ (a : Addr) (ds : List Nibble) (bs : List Bool) (s : State), bs.length < 4 →
    ds = [] ∨ a.toNat + ds.length ≤ 32 → Quiet s →
    window (writeFrame a ds ++ bs) s = windowState (writeFrame a ds ++ bs) (writeCells a.toNat ds s)

/-- R71, R82, R236, R237: a reserved flag and a reserved command code each record one fault with the bits received,
change nothing else, and the rest of the window is ignored: the receiver discards it after a recorded fault (R40, R231,
R243). That it discards after a reserved code too, although R121's pseudocode goes on to CMD_DONE, is log 3. -/
def Obligations.ReservedWindows : Prop :=
  (∀ (fl bs : List Bool) (s : State), fl.length = 3 → fl ≠ commandFlag → fl ≠ writeFlag → Quiet s →
    window (fl ++ bs) s = windowState (fl ++ bs) (raise (.unknownFrameId fl) .target s.enc.op s)) ∧
  ∀ (c : Code) (bs : List Bool) (s : State), s.params.codes.lookup c = none → Quiet s →
    window (commandFrame c ++ bs) s =
      windowState (commandFrame c ++ bs) (raise (.unknownCommand c) .target s.enc.op s)

/-- R84, R239: bits after the ninth command bit record one `FrameOverrun`; the command already executed stays in
effect. The mark of the receiver's end in a fault is log 3. -/
def Obligations.FrameOverrun : Prop :=
  ∀ (i : Instr) (bs : List Bool) (s t : State), isCommand i = true → (∀ x, i ≠ .test x) → bs ≠ [] →
    s.params.codes.Has i → CanWindow s → exec i s = .next t →
    window (encode s.params.codes i ++ bs) s =
      windowState (encode s.params.codes i ++ bs) (raise .frameOverrun .target s.enc.op t)

/-! ## Frames of the instructions -/

/-- What a command frame leaves alone (41_command_frames: "No command frame ... reads `RAM`, or writes `RAM`"; R17, R39):
every cell, RD, the operation under way and the model's own fields; the fault set only grows. That it leaves `rx.ptr`
alone is the model's choice (log 32). -/
def Obligations.CommandFramesKeepTheRest : Prop :=
  ∀ (i : Instr) (s t : State), isCommand i = true → CanWindow s ∨ CanSend s ∧ i.wellFormed = true →
    exec i s = .next t →
    (∀ a, cell t a = cell s a) ∧ t.target.ram = s.target.ram ∧ t.target.rx.ptr = s.target.rx.ptr ∧
    t.line.rd = s.line.rd ∧ t.enc.status = s.enc.status ∧ t.enc.op = s.enc.op ∧ t.enc.todo = s.enc.todo ∧
    t.inbox = s.inbox ∧ t.driver = s.driver ∧ t.result = s.result ∧ t.draws = s.draws ∧ t.params = s.params ∧
    (∀ r ∈ s.faults, r ∈ t.faults) ∧ ((∀ x, i ≠ .test x) → s.params.codes.Has i → t.faults = s.faults)

/-- What a write frame leaves alone (R169): the configuration, the clear events, every cell outside the addresses it
stores to, RD, the operation under way and the model's own fields. The cells stored to are those from the frame's own
address on, one for each nibble. -/
def Obligations.WriteFramesKeepTheRest : Prop :=
  ∀ (i : Instr) (a : Addr) (ds : List Nibble) (s t : State), (i = .wrb a ds ∨ ∃ d, ds = [d] ∧ i = .wr a d) →
    CanWindow s ∨ CanSend s ∧ i.wellFormed = true → exec i s = .next t →
    t.target.cfg = s.target.cfg ∧ t.target.counters.tbClears = s.target.counters.tbClears ∧
    t.target.counters.wdtClears = s.target.counters.wdtClears ∧
    (∀ b, b < a.toNat ∨ a.toNat + ds.length ≤ b → cell t b = cell s b) ∧
    t.line.rd = s.line.rd ∧ t.enc.status = s.enc.status ∧ t.enc.op = s.enc.op ∧ t.enc.todo = s.enc.todo ∧
    t.inbox = s.inbox ∧ t.driver = s.driver ∧ t.result = s.result ∧ t.draws = s.draws ∧ t.params = s.params ∧
    (∀ r ∈ s.faults, r ∈ t.faults) ∧ (a.toNat + ds.length ≤ 32 → t.faults = s.faults)

/-- 10_state section 3: "Each field is written only by the command frames named in its rule" (R26 to R36, R38), and the
display memory only by write frames (R39). -/
def Obligations.OnlyItsCommandsWriteAField : Prop :=
  ∀ (i : Instr) (s t : State), Quiet s → s.params.codes.Has i → exec i s = .next t →
    (t.target.cfg.osc ≠ s.target.cfg.osc → ∃ x, i = .sysDis x ∨ i = .sysEn x) ∧
    (t.target.cfg.lcd ≠ s.target.cfg.lcd → ∃ x, i = .sysDis x ∨ i = .lcdOff x ∨ i = .lcdOn x) ∧
    (t.target.cfg.timerOut ≠ s.target.cfg.timerOut → ∃ x, i = .timerDis x ∨ i = .timerEn x) ∧
    (t.target.cfg.wdtOut ≠ s.target.cfg.wdtOut → ∃ x, i = .wdtDis x ∨ i = .wdtEn x) ∧
    (t.target.cfg.tone ≠ s.target.cfg.tone → ∃ x, i = .toneOff x ∨ i = .toneOn x) ∧
    (t.target.cfg.toneFreq ≠ s.target.cfg.toneFreq → (∃ x, i = .tone4k x) ∨ ∃ x, i = .tone2k x) ∧
    (t.target.cfg.clkSrc ≠ s.target.cfg.clkSrc → ∃ x, i = .xtal32k x ∨ i = .rc256k x ∨ i = .ext256k x) ∧
    (t.target.cfg.bias ≠ s.target.cfg.bias ∨ t.target.cfg.com ≠ s.target.cfg.com →
      ∃ y x, i = .bias1_2_2com y x ∨ i = .bias1_2_3com y x ∨ i = .bias1_2_4com y x ∨ i = .bias1_3_2com y x ∨
        i = .bias1_3_3com y x ∨ i = .bias1_3_4com y x) ∧
    (t.target.cfg.irq ≠ s.target.cfg.irq → ∃ y x, i = .irqDis y x ∨ i = .irqEn y x) ∧
    (t.target.cfg.tbFreq ≠ s.target.cfg.tbFreq →
      ∃ y x, i = .f1 y x ∨ i = .f2 y x ∨ i = .f4 y x ∨ i = .f8 y x ∨ i = .f16 y x ∨ i = .f32 y x ∨
        i = .f64 y x ∨ i = .f128 y x) ∧
    (t.target.cfg.mode ≠ s.target.cfg.mode → ∃ x, i = .normal x) ∧
    (t.target.counters.tbClears ≠ s.target.counters.tbClears → ∃ x, i = .clrTimer x) ∧
    (t.target.counters.wdtClears ≠ s.target.counters.wdtClears → ∃ x, i = .clrWdt x) ∧
    (t.target.ram ≠ s.target.ram → (∃ a d, i = .wr a d) ∨ ∃ a ds, i = .wrb a ds)

/-! ## Steps and the wire -/

/-- A step runs the decoded instruction (log 15): the frame the running operation has next, sent by the ENCODER, and the
window another agent makes. A window that is no instruction is taken bit by bit, and a single edge moves its line (R109,
R115; time passes with it, log 8). A frame for the ENCODER that is no instruction is refused (log 33), unless it is the frame of a canonical command, which
another code table may make no instruction: it is sent (R120, R14), where that table gives TEST the same value too (log 38).
That each of
these is one step, and that a frame that is partly sent goes on by one micro step, is log 17. A table word placed by
`withFetchWord` is run by the very next step. -/
def Obligations.StepRunsTheInstruction : Prop :=
  (∀ (s : State) (f : Frame) (rest : List Action) (i : Instr), s.enc.phase = .idle → s.enc.todo = .frame f :: rest →
    decode s.params.codes f = .ok i →
    step s = exec i { s with driver := .encoder, enc := { s.enc with todo := rest } }) ∧
  (∀ (s : State) (f : Frame) (rest : List Item) (i : Instr), s.enc.phase = .idle → s.enc.todo = [] →
    s.enc.op = none → s.inbox = .window f :: rest → decode s.params.codes f = .ok i →
    step s = exec i { s with driver := .foreign, inbox := rest }) ∧
  (∀ (s : State) (f : Frame) (rest : List Item) (e : DecodeError), s.enc.phase = .idle → s.enc.todo = [] →
    s.enc.op = none → s.inbox = .window f :: rest → decode s.params.codes f = .error e →
    s.line.cs ≠ .low → s.line.rd ≠ .low → s.line.wr ≠ .low →
    step s = .next (window f { s with driver := .foreign, inbox := rest })) ∧
  (∀ (s : State) (l : Line) (b : Bool) (rest : List Item), s.enc.phase = .idle → s.enc.todo = [] →
    s.enc.op = none → s.inbox = .edge l b :: rest →
    ∃ t, t = busSet l b { s with driver := .foreign, inbox := rest } ∧
      step s = .next { t with target := t.target.age }) ∧
  (∀ (s : State) (f : Frame) (rest : List Action) (e : DecodeError), s.enc.phase = .idle →
    s.enc.todo = .frame f :: rest → decode s.params.codes f = .error e → s.enc.status = .ready →
    (∀ n : Command, n ≠ .test → f ≠ commandFrame (s.params.codes.code n)) →
    step s = .next (refuse (.operandRange (.frame f)) s.enc.op { s with driver := .encoder })) ∧
  (∀ (s : State) (f : Frame) (rest : List Action) (e : DecodeError) (n : Command), s.enc.phase = .idle →
    s.enc.todo = .frame f :: rest → decode s.params.codes f = .error e → s.enc.status = .ready →
    n ≠ .test → f = commandFrame (s.params.codes.code n) →
    s.line.cs ≠ .low → s.line.rd ≠ .low → s.line.wr ≠ .low →
    step s = .next (sendFrame f { s with driver := .encoder, enc := { s.enc with todo := rest } })) ∧
  (∀ s : State, s.enc.phase ≠ .idle → step s = .next (tick s)) ∧
  ∀ (s : State) (nbits w : Nat) (i : Instr), s.params.codes = Config.codes → decodeTableWord nbits w = some i →
    step (s.withFetchWord nbits w) =
      exec i { loadFrame (frameOfWord nbits w) s with
        driver := .encoder
        enc := { (loadFrame (frameOfWord nbits w) s).enc with todo := [] } }

/-- R24, R101, R102: SendFrame taken in micro steps, two for each bit and three at the end, each one a step of the
machine, ends where the whole frame in one step does. That the bit cells are cut so, and that a whole frame is one step, is
the model's choice (log 17). -/
def Obligations.MicroStepsMakeTheFrame : Prop :=
  ∀ (f : Frame) (s : State), f ≠ [] →
    Host.Core.run Sys2Proof.core (2 * f.length + 3) (startFrame f s) = .next (sendFrame f s)

/-- R110, for every instruction the ENCODER sends: exactly one CS window, opened by the frame's first event, and the bits
sampled in it are the frame and nothing else. -/
def Obligations.OneWindowPerFrame : Prop :=
  ∀ (i : Instr) (s : State), i.wellFormed = true → CanSend s →
    ∃ t w, exec i s = .next t ∧ t.wave = s.wave ++ w ∧ w.head? = some (.set .cs false) ∧ csEvents w = [false, true] ∧
      (∀ d, sampledBits d (w.takeWhile (fun e => e != .set .cs true)) = encode s.params.codes i) ∧
      ∀ d, sampledBits d w = encode s.params.codes i

/-- R113, R276: the least time of a frame of `n` bits for any timing bounds, and the number of microseconds R276 gives
for a command frame at the nominal ones, which are the spec's choice (log 19). -/
def Obligations.FrameDuration : Prop :=
  (∀ (t : Timing) (g : Duration) (f : Frame), f ≠ [] →
    minDuration t g (lowWave f) = t.css + (2 * f.length - 1) * t.edge + t.csh ∧
    minDuration t g (frameWave f) = t.css + (2 * f.length - 1) * t.edge + t.csh + t.gap) ∧
  ∀ (g : Duration) (c : Code), minDuration Config.nominalTiming g (lowWave (commandFrame c)) = 100 ∧
    minDuration Config.nominalTiming g (frameWave (commandFrame c)) = 104

/-- R105, R112: a WR edge while CS is high carries no bit: from any state, whatever the receiver stands at. -/
def Obligations.WrEdgeWithCsHigh : Prop :=
  ∀ (b : Bool) (s : State), s.line.cs = .high →
    (busSet .wr b s).target.cfg = s.target.cfg ∧ (busSet .wr b s).target.ram = s.target.ram ∧
    (busSet .wr b s).target.counters = s.target.counters ∧ (busSet .wr b s).target.rx.st = s.target.rx.st ∧
    (busSet .wr b s).target.rx.ptr = s.target.rx.ptr ∧ (busSet .wr b s).faults = s.faults

/-- R160: the address field at the TARGET, bit by bit. -/
def Obligations.AddressField : Prop :=
  (∀ (p : Params) (t : Target), t.rx.st = .id [true, false] →
    receive p true t = (t.setSt (.addr []), none)) ∧
  ∀ (p : Params) (b : Bool) (bs : List Bool) (t : Target), t.rx.st = .addr bs →
    ((bs ++ [b]).length < 6 → receive p b t = (t.setSt (.addr (bs ++ [b])), none)) ∧
    (6 ≤ (bs ++ [b]).length →
      receive p b t = ({ t with rx := { t.rx with ptr := valueOf (bs ++ [b]), st := .data [] } }, none))

/-- R55: a received bit writes at most one cell, the one at the pointer, by one whole nibble, and the pointer moves on by
one; a burst is the sequence of such writes at consecutive addresses. -/
def Obligations.OneNibbleAtATime : Prop :=
  (∀ (p : Params) (b : Bool) (t : Target),
    (receive p b t).1.ram = t.ram ∨
      t.rx.ptr < 32 ∧ (receive p b t).1.rx.ptr = t.rx.ptr + 1 ∧ ∃ v, (receive p b t).1.ram = t.ram.put t.rx.ptr v) ∧
  ∀ (a : Addr) (ds : List Nibble) (s : State), a.toNat + ds.length ≤ 32 → CanWindow s →
    ∃ t, exec (.wrb a ds) s = .next t ∧
      t.target.ram = (ds.zipIdx a.toNat).foldl (fun m p => m.put p.2 p.1) s.target.ram

/-- R39, R50, R59: writes to a cell and to others, on a canonical memory: a cell reads what was last written to it and
the write changes no other; a second write to a cell replaces the first; writes to two cells commute; writing the value
a cell already holds changes nothing. -/
def Obligations.MemoryWrites : Prop :=
  ∀ (m : Memory) (a : Nat) (v : Nibble), m.wf → a < 32 →
    (∀ b, (m.put a v).get b = if b = a then some v else m.get b) ∧
    (∀ w, (m.put a v).put a w = m.put a w) ∧
    (∀ b w, b < 32 → b ≠ a → (m.put a v).put b w = (m.put b w).put a v) ∧
    (m.get a = some v → m.put a v = m)

/-- The display memory keeps its canonical form in every step from any state: rising cell numbers below 32 (R50) and
values of four bits (log 29). -/
def Obligations.EveryStepKeepsMemory : Prop :=
  ∀ s t : State, s.target.ram.wf → step s = .next t → t.target.ram.wf

/-- Every step of every state answers a next state with the same parameters: the block has no trap (R230, R231), and
parameters are no state (R44, log 31). The one exception is the race of R273, a run the spec rules out, as `lineConflict`
(log 34): only with CS, RD or WR low, and for an instruction exactly then, where its frame would start. -/
def Obligations.EveryStepGoesOn : Prop :=
  (∀ s : State, (∃ t, step s = .next t ∧ t.params = s.params) ∨
    step s = .fault .lineConflict ∧ (s.line.cs = .low ∨ s.line.rd = .low ∨ s.line.wr = .low)) ∧
  ∀ (i : Instr) (s : State), exec i s = .fault .lineConflict ↔
    (s.line.cs = .low ∨ s.line.rd = .low ∨ s.line.wr = .low) ∧
      (s.driver = .foreign ∨ s.enc.status = .ready ∧ instrFault s.params.codes i = none)

/-- R25: a recorded fault stays recorded in every step from every state but the one that takes a power cycle (R269). That a
running operation or frame makes a power cycle wait, which the premise uses, is the model's choice (log 16), and so is that
the fault set is a list in which no record is there twice (log 20). -/
def Obligations.FaultsStay : Prop :=
  ∀ s t : State, step s = .next t →
    ¬(s.enc.phase = .idle ∧ s.enc.todo = [] ∧ s.enc.op = none ∧ ∃ rest, s.inbox = .powerCycle :: rest) →
    (∀ r ∈ s.faults, r ∈ t.faults) ∧ (s.faults.Nodup → t.faults.Nodup)

/-- The invariant `Owned` of a block whose lines only its ENCODER drives (R115) holds at reset. -/
def Obligations.OwnedAtReset : Prop := Owned State.reset

/-- Every step keeps the invariant `Owned`, from every state that meets it: in such a block the lines are idle between
frames (R103), RD is never moved (R108), only admitted frames are sent (R77), the mode stays Normal (R156) and the
TARGET never raises a fault (R242). -/
def Obligations.EveryStepKeepsOwned : Prop :=
  ∀ s t : State, Owned s → step s = .next t → Owned t

/-! ## Reset -/

/-- R260: every field after power-on. The values of the configuration are the spec's default `POR_CONFIG` (R37, log 7);
its Unknown fields and the pointer are draws, the draw of a field being its number in the order of R26 to R36 (log 5);
no clear event has happened (R45, log 8); the parameters are the defaults of R13 (log 31). -/
def Obligations.ResetValues : Prop :=
  State.reset.line = ⟨.unknown, .unknown, .unknown, .unknown⟩ ∧ State.reset.enc.status = .unclaimed ∧
  State.reset.enc.frame = [] ∧ State.reset.enc.k = 0 ∧ State.reset.enc.phase = .idle ∧ State.reset.enc.op = none ∧
  State.reset.enc.todo = [] ∧ State.reset.faults = [] ∧
  State.reset.target.cfg =
    { osc := .off, lcd := .off, timerOut := Config.drawEnable 2, wdtOut := Config.drawEnable 3, tone := .off
      toneFreq := Config.drawToneFreq 5, clkSrc := .rc256k, bias := Config.drawBias 7, com := Config.drawCom 8
      irq := .dis, tbFreq := Config.drawTbFreq 10, mode := .normal } ∧
  State.reset.target.counters.tbCount = .unknown ∧ State.reset.target.counters.wdtCount = .unknown ∧
  State.reset.target.counters.tbClears = 0 ∧ State.reset.target.counters.wdtClears = 0 ∧
  (∀ a, cell State.reset a = none) ∧ State.reset.target.rx = ⟨.idle, Config.draw 12, .unknown, .unknown⟩ ∧
  State.reset.params = Config.params

/-- R269: a power cycle, from any state between operations, returns every piece of the block's state to R260: the status,
the lines, the fault set, the display memory, the receiver, and the configuration with fresh draws (log 16). What the
parameters POR_CONFIG and POR_RAM give is taken from them, and they stay (R44). -/
def Obligations.PowerCycle : Prop :=
  ∀ (s : State) (rest : List Item), s.enc.phase = .idle → s.enc.todo = [] → s.enc.op = none →
    s.inbox = .powerCycle :: rest →
    ∃ t, step s = .next t ∧ t.line = State.reset.line ∧ t.enc = State.reset.enc ∧ t.faults = [] ∧
      t.target.rx.ptr = Config.draw (s.draws + 12) ∧
      t.target.cfg = s.params.porCfg.drawn s.draws ∧ t.target.counters = State.reset.target.counters ∧
      (∀ a, cell t a = (Memory.powerOn s.params.porRam).get a) ∧ (s.params.porRam = [] → ∀ a, cell t a = none) ∧
      t.target.rx.st = .idle ∧ t.target.rx.csPrev = .unknown ∧ t.target.rx.wrPrev = .unknown ∧ t.inbox = rest ∧
      t.params = s.params

/-! ## Host operations -/

/-- R180, R23, R232, R233, R243: `construct`. With every answer yes the status is Ready, every line is high, the TARGET
keeps its contents and the 13 frames of `initialize` with the defaults are to be sent; the first line refused, first to
configure and then to drive, in the order CS, RD, WR, DATA, makes the status Failed; a second `construct` changes only
the fault set. That the frames go out without a check of the defaults, where these are not admitted, is the model's choice
(log 37), and so are the levels after a refused line (log 14). -/
def Obligations.Construct : Prop :=
  (∀ (s : State) (c d : Lines Bool), s.enc.status = .unclaimed → s.target.rx.st = .idle →
    c = ⟨true, true, true, true⟩ → d = ⟨true, true, true, true⟩ →
    (construct c d s).enc.status = .ready ∧ (construct c d s).line = allLines .high ∧
    (construct c d s).enc.op = some (.construct c d) ∧
    (construct c d s).enc.todo = initActions s.params.codes s.params.initDefaults ∧
    (construct c d s).target.cfg = s.target.cfg ∧ (construct c d s).target.ram = s.target.ram ∧
    (construct c d s).target.rx.st = .idle ∧ (construct c d s).target.rx.csPrev = .high ∧
    (construct c d s).target.rx.wrPrev = .high ∧ (construct c d s).faults = s.faults) ∧
  (∀ (s : State) (c d : Lines Bool) (l : Line), s.enc.status = .unclaimed →
    (if c.cs = false then some Line.cs else if c.rd = false then some .rd else if c.wr = false then some .wr
      else if c.data = false then some .data else if d.cs = false then some .cs else if d.rd = false then some .rd
      else if d.wr = false then some .wr else if d.data = false then some .data else none) = some l →
    construct c d s =
      { s with
        line := ⟨.unknown, .unknown, .unknown, .unknown⟩
        enc := { s.enc with status := .failed, op := none, todo := [] }
        faults := addFault ⟨.lineAccessError l, .encoder, some (.construct c d)⟩ s.faults
        result := some (.refused (.lineAccessError l)) }) ∧
  ∀ (s : State) (c d : Lines Bool), s.enc.status ≠ .unclaimed →
    construct c d s = refuse (.alreadyClaimed s.enc.status) (some (.construct c d)) s

/-- R23, R241, R263: before construction, and after a failed one, every operation but `construct` is refused with
`NotConstructed`, and so is every frame of the ENCODER. That a renderer operation is so refused even where its value is
not finite (log 10), and that its record names that operation and not the one it expands to (log 20), are the model's
choices. -/
def Obligations.NotConstructed : Prop :=
  (∀ (op : HostOp) (s : State), (∀ c d, op ≠ .construct c d) → s.enc.status ≠ .ready →
    issue op s = refuse .notConstructed (some op) s) ∧
  ∀ (i : Instr) (s : State), s.driver = .encoder → s.enc.status ≠ .ready →
    exec i s = .next (refuse .notConstructed s.enc.op s)

/-- R193, R231, R244: a call that fails its admission check is answered in one step with the fault, and the step changes
nothing of the block but the fault set. For a renderer operation the record's operation (log 20) and agent (log 21) are
the model's choices. -/
def Obligations.RefusalIsPrecise : Prop :=
  ∀ (op : HostOp) (rest : List Item) (k : BlockFault) (s : State), (∀ c d, op ≠ .construct c d) →
    s.enc.phase = .idle → s.enc.todo = [] → s.enc.op = none → s.inbox = .call op :: rest →
    admissionFault s.params op s.enc.status = some k →
    step s = .next { s with
      inbox := rest
      faults := addFault ⟨k, k.raiser, some op⟩ s.faults
      result := some (.refused k) }

/-- R193, R194, R243: the first check that fails gives the fault: addresses, then nibbles or counts, then the end of the
write; a beep's duration; the categories of initialize's arguments. Of several operands that fail in one check the one
named is the model's choice: the address before a nibble or a count, the first nibble in the list (log 35). -/
def Obligations.AdmissionOrder : Prop :=
  (∀ (p : Params) (a : Int) (vs : List Int), operandFault p (.writeBurst a vs) =
    if a < 0 ∨ 31 < a then some (.operandRange (.address a))
    else match vs.find? (fun d => d < 0 ∨ 15 < d) with
      | some d => some (.operandRange (.nibble d))
      | none => if a + vs.length ≤ 32 then none else some (.addressOverflow (a + vs.length - 1))) ∧
  (∀ (p : Params) (a n : Int), operandFault p (.clearRange a n) = operandFault p (.fillRange a n) ∧ operandFault p (.clearRange a n) =
    if a < 0 ∨ 31 < a then some (.operandRange (.address a))
    else if n < 0 then some (.operandRange (.count n))
    else if a + n ≤ 32 then none else some (.addressOverflow (a + n - 1))) ∧
  (∀ (p : Params) (q : Rat), operandFault p (.beep (.finite q)) =
    if q < 0 then some (.operandRange (.duration (.finite q))) else none) ∧
  (∀ (p : Params) (n : HostNum), (∀ q, n ≠ .finite q) → operandFault p (.beep n) = some (.operandRange (.duration n))) ∧
  ∀ (p : Params) (a : InitArgs (Option Command)), operandFault p (.initialise a) = none ↔
    ∃ b, b = withDefaults p.initDefaults a ∧ b.timer ∈ timerCmds ∧ b.watchdog ∈ watchdogCmds ∧ b.clock ∈ clockCmds ∧
      b.biasCom ∈ biasComCmds ∧ b.toneFreq ∈ toneFreqCmds ∧ b.irq ∈ irqCmds ∧ b.timebase ∈ timebaseCmds ∧
      b.mode ∈ modeCmds

/-- R163: the bits of a write frame; `write_burst` sends it with one SendFrame exactly when the address, the number of
nibbles and every nibble are in range, and is otherwise refused with `OperandRange` or `AddressOverflow` and moves no
line. -/
def Obligations.WriteFrameEncoder : Prop :=
  (∀ (a : Addr) (ds : List Nibble), writeFrame a ds =
    [true, false, true] ++ bitsOf 6 a.toNat ++ (ds.map (fun d => bitsOf 4 d.toNat)).flatten) ∧
  (∀ (a : Int) (vs : List Int) (rest : List Item) (s : State), CanCall (.writeBurst a vs) rest s →
    0 ≤ a → a ≤ 31 → vs.length ≤ 32 - a → (∀ v ∈ vs, 0 ≤ v ∧ v ≤ 15) →
    Host.Core.run Sys2Proof.core 2 s = .next (sendFrame (writeFrame (BitVec.ofInt 6 a) (vs.map (BitVec.ofInt 4)))
      { takenUp rest s with enc := { s.enc with op := some (.writeBurst a vs) } })) ∧
  ∀ (a : Int) (vs : List Int) (rest : List Item) (s : State), CanCall (.writeBurst a vs) rest s →
    ¬(0 ≤ a ∧ a ≤ 31 ∧ vs.length ≤ 32 - a ∧ ∀ v ∈ vs, 0 ≤ v ∧ v ≤ 15) →
    ∃ k t, ((∃ o, k = .operandRange o) ∨ ∃ e, k = .addressOverflow e) ∧ step s = .next t ∧
      t.result = some (.refused k) ∧ t.line = s.line ∧ t.wave = s.wave ∧ t.target = s.target ∧ t.enc = s.enc

/-- R184: `write_one`, admitted and refused. Where `rx.ptr` stands when the frame has ended is the model's choice (log
32). -/
def Obligations.WriteOne : Prop :=
  ∀ (a v : Int) (rest : List Item) (s : State),
    (CanCall (.writeOne a v) rest s → 0 ≤ a → a ≤ 31 → 0 ≤ v → v ≤ 15 →
      Host.Core.run Sys2Proof.core 3 s =
        .next (returnedOk (sentState (writeFrame (BitVec.ofInt 6 a) [BitVec.ofInt 4 v])
          (writeCells a.toNat [BitVec.ofInt 4 v] (takenUp rest s))))) ∧
    (CanCall (.writeOne a v) rest s → ¬(0 ≤ a ∧ a ≤ 31 ∧ 0 ≤ v ∧ v ≤ 15) →
      ∃ o t, step s = .next t ∧ t.result = some (.refused (.operandRange o)) ∧ t.target = s.target ∧
        t.wave = s.wave) ∧
    (s.enc.status ≠ .ready → issue (.writeOne a v) s = refuse .notConstructed (some (.writeOne a v)) s)

/-- R185: an admitted `write_burst` writes its nibbles from its address on and returns `Ok`. Where `rx.ptr` stands when the
frame has ended is the model's choice (log 32). -/
def Obligations.WriteBurst : Prop :=
  ∀ (a : Int) (vs : List Int) (rest : List Item) (s : State), CanCall (.writeBurst a vs) rest s →
    0 ≤ a → a ≤ 31 → a + vs.length ≤ 32 → (∀ v ∈ vs, 0 ≤ v ∧ v ≤ 15) →
    Host.Core.run Sys2Proof.core 3 s =
      .next (returnedOk (sentState (writeFrame (BitVec.ofInt 6 a) (vs.map (BitVec.ofInt 4)))
        (writeCells a.toNat (vs.map (BitVec.ofInt 4)) (takenUp rest s))))

/-- R187, R188: `clear_range` and `fill_range`, admitted (a count of 0 included) and refused. Where `rx.ptr` stands when the
frame has ended is the model's choice (log 32), and so is that the address is the operand named where the count is
negative too (log 35). -/
def Obligations.ClearAndFillRange : Prop :=
  ∀ (a n : Int) (rest : List Item) (s : State),
    (0 ≤ a → a ≤ 31 → 0 ≤ n → a + n ≤ 32 →
      (CanCall (.clearRange a n) rest s → Host.Core.run Sys2Proof.core 3 s =
        .next (returnedOk (sentState (writeFrame (BitVec.ofInt 6 a) (List.replicate n.toNat 0x0))
          (writeCells a.toNat (List.replicate n.toNat 0x0) (takenUp rest s))))) ∧
      (CanCall (.fillRange a n) rest s → Host.Core.run Sys2Proof.core 3 s =
        .next (returnedOk (sentState (writeFrame (BitVec.ofInt 6 a) (List.replicate n.toNat 0xF))
          (writeCells a.toNat (List.replicate n.toNat 0xF) (takenUp rest s)))))) ∧
    (0 ≤ a → a ≤ 31 → n < 0 → operandFault s.params (.clearRange a n) = some (.operandRange (.count n)) ∧
      operandFault s.params (.fillRange a n) = some (.operandRange (.count n))) ∧
    (a < 0 ∨ 31 < a → operandFault s.params (.clearRange a n) = some (.operandRange (.address a)) ∧
      operandFault s.params (.fillRange a n) = some (.operandRange (.address a))) ∧
    (0 ≤ a → a ≤ 31 → 32 < a + n → operandFault s.params (.clearRange a n) = some (.addressOverflow (a + n - 1)) ∧
      operandFault s.params (.fillRange a n) = some (.addressOverflow (a + n - 1))) ∧
    (s.enc.status ≠ .ready → issue (.clearRange a n) s = refuse .notConstructed (some (.clearRange a n)) s ∧
      issue (.fillRange a n) s = refuse .notConstructed (some (.fillRange a n)) s)

/-- R183: `write_command` with a command other than TEST, by its name or by its canonical value, runs that command's
frame and returns `Ok`; under a code table that reads another instruction there, or none, it still sends that frame and
returns `Ok` (R14), where that table gives TEST the same value too (the model's choice, log 38). -/
def Obligations.WriteCommand : Prop :=
  (∀ (n : Command) (c : CmdArg) (rest : List Item) (s : State), n ≠ .test →
    (c = .named n ∨ c = .value (s.params.codes.code n).toNat) → CanCall (.writeCommand c) rest s →
    Host.Core.run Sys2Proof.core 3 s = .next (finishOp (sendFrame (commandFrame (s.params.codes.code n))
      { takenUp rest s with enc := { s.enc with op := some (.writeCommand c) } }))) ∧
  ∀ (n : Command) (c : CmdArg) (rest : List Item) (s : State), n ≠ .test → s.params.codes.Sound →
    (c = .named n ∨ c = .value (s.params.codes.code n).toNat) → CanCall (.writeCommand c) rest s →
    ∃ i t, decode s.params.codes (commandFrame (s.params.codes.code n)) = .ok i ∧ i.wellFormed = true ∧
      exec i { takenUp rest s with enc := { s.enc with op := some (.writeCommand c) } } = .next t ∧
      Host.Core.run Sys2Proof.core 3 s = .next (returnedOk { t with enc := { t.enc with op := none } })

/-- R189, R190: `display_on` and `display_off` send LCD_ON and LCD_OFF. -/
def Obligations.DisplayOnAndOff : Prop :=
  ∀ (rest : List Item) (s : State), s.params.codes.Sound →
    (CanCall .displayOn rest s → Host.Core.run Sys2Proof.core 3 s =
      .next (returnedOk (sentState (commandFrame (s.params.codes.code .lcdOn))
        (mapCfg (fun c => { c with lcd := .on }) (takenUp rest s))))) ∧
    (CanCall .displayOff rest s → Host.Core.run Sys2Proof.core 3 s =
      .next (returnedOk (sentState (commandFrame (s.params.codes.code .lcdOff))
        (mapCfg (fun c => { c with lcd := .off }) (takenUp rest s)))))

/-- R191, R277: an admitted `beep`, a duration of 0 included: tone on, the sleep, tone off, then `Ok`; the sleep's least
length is the duration less the granularity, in microseconds. -/
def Obligations.Beep : Prop :=
  ∀ (q : Rat) (rest : List Item) (s : State), 0 ≤ q → s.params.codes.Sound → CanCall (.beep (.finite q)) rest s →
    Host.Core.run Sys2Proof.core 5 s =
      .next (returnedOk (sentState (commandFrame (s.params.codes.code .toneOff))
        (mapCfg (fun c => { c with tone := .off })
          (wait (.sleep q) (sentState (commandFrame (s.params.codes.code .toneOn))
            (mapCfg (fun c => { c with tone := .on }) (takenUp rest s))))))) ∧
    minDuration s.params.timing s.params.sleepGran [.wait (.sleep q)] = max 0 (q - s.params.sleepGran) * 1000000

/-- R181, R196, R266, R267: an admitted `initialize`, from any earlier contents of the TARGET: 13 frames, then `Ok`; the
configuration as its arguments set it with the tone as it was and `cfg.lcd` as SYS_DIS leaves it (Off under the spec's
meanings, log 7), every cell 0, one clear event for each counter, the
faults and the status as they were; the waveform is that of the 13 frames in their order. And `construct` with every
answer yes ends in the state of the defaults (R180, log 18). -/
def Obligations.Initialise : Prop :=
  (∀ (a : InitArgs (Option Command)) (rest : List Item) (s : State), CanCall (.initialise a) rest s →
    s.params.codes.Sound → checkInit (withDefaults s.params.initDefaults a) = none →
    ∃ b t, b = withDefaults s.params.initDefaults a ∧ Host.Core.run Sys2Proof.core 15 s = .next t ∧
      t.target.cfg = initialisedCfg b s.target.cfg.tone (lcdAfterSysDis s.params.meanings s.target.cfg.lcd) ∧
      (s.params.meanings = Config.meanings → t.target.cfg.lcd = .off) ∧ (∀ k, k < 32 → cell t k = some 0) ∧
      t.target.counters.tbClears = s.target.counters.tbClears + 1 ∧
      t.target.counters.wdtClears = s.target.counters.wdtClears + 1 ∧
      t.faults = s.faults ∧ t.enc.status = .ready ∧ t.enc.phase = .idle ∧ t.target.rx.st = .idle ∧ Quiet t ∧
      t.enc.op = none ∧ t.enc.todo = [] ∧ t.inbox = rest ∧ t.result = some .ok ∧
      t.wave = s.wave ++ ((framesOf (initActions s.params.codes b)).map frameWave).flatten) ∧
  ∀ (rest : List Item) (s : State), s.enc.status = .unclaimed → s.enc.phase = .idle → s.enc.todo = [] →
    s.enc.op = none → s.target.rx.st = .idle → s.params.codes.Sound → checkInit s.params.initDefaults = none →
    s.inbox = .call (.construct ⟨true, true, true, true⟩ ⟨true, true, true, true⟩) :: rest →
    ∃ t, Host.Core.run Sys2Proof.core 15 s = .next t ∧
      t.target.cfg = initialisedCfg s.params.initDefaults s.target.cfg.tone
        (lcdAfterSysDis s.params.meanings s.target.cfg.lcd) ∧ (∀ k, k < 32 → cell t k = some 0) ∧
      t.faults = s.faults ∧ t.enc.status = .ready ∧ Quiet t ∧ t.inbox = rest ∧ t.result = some .ok

/-- R192: an operation whose frames are all sent returns `Ok`, whatever the TARGET did; a refused one returns the fault
it raised, which is in the fault set; for a renderer operation the record's operation (log 20) and agent (log 21) are the
model's choices. -/
def Obligations.Results : Prop :=
  (∀ (o : HostOp) (s : State), s.enc.phase = .idle → s.enc.todo = [] → s.enc.op = some o →
    step s = .next { s with enc := { s.enc with op := none }, result := some .ok }) ∧
  ∀ (op : HostOp) (k : BlockFault) (s : State), (∀ c d, op ≠ .construct c d) →
    admissionFault s.params op s.enc.status = some k →
    (issue op s).result = some (.refused k) ∧ ⟨k, k.raiser, some op⟩ ∈ (issue op s).faults

/-! ## The Glyph Renderer -/

/-- R212, R214: the digit string is the five decimal digits of `n mod 100000`, and the nibble sequence two nibbles for
each digit in order. -/
def Obligations.DigitsAndGlyphs : Prop :=
  (∀ n : Nat, (digits n).map Fin.val =
    [n / 10 ^ 4 % 10, n / 10 ^ 3 % 10, n / 100 % 10, n / 10 % 10, n % 10]) ∧
  (∀ n : Nat, ((digits n).map Fin.val).foldl (fun v d => 10 * v + d) 0 = n % 100000) ∧
  ∀ (g : GlyphTable) (e0 e1 e2 e3 e4 : Fin 10), glyphs g [e0, e1, e2, e3, e4] =
    [g[e0].1, g[e0].2, g[e1].1, g[e1].2, g[e2].1, g[e2].2, g[e3].1, g[e3].2, g[e4].1, g[e4].2]

/-- R211, R215 to R217: a shown number goes in one burst of ten nibbles to its region, the digits reversed for the
temperature and in natural order for the humidity; a negative value sends ten nibbles that nothing fixes to the same
region; a value that is not finite is refused. Where `rx.ptr` stands when the frame has ended is the model's choice (log
32). -/
def Obligations.ShowNumbers : Prop :=
  (∀ (v : HostNum) (n : Nat) (rest : List Item) (s : State), scaled s.params.floatFmt v = .number n →
    (CanCall (.showTemperature v) rest s → ∃ ns, ns = glyphs s.params.glyphT (digits n).reverse ∧
      Host.Core.run Sys2Proof.core 3 s =
        .next (returnedOk (sentState (writeFrame 0x0A ns) (writeCells 0x0A ns (takenUp rest s))))) ∧
    (CanCall (.showHumidity v) rest s → ∃ ns, ns = glyphs s.params.glyphH (digits n) ∧
      Host.Core.run Sys2Proof.core 3 s =
        .next (returnedOk (sentState (writeFrame 0x00 ns) (writeCells 0x00 ns (takenUp rest s)))))) ∧
  (∀ (v : HostNum) (rest : List Item) (s : State), scaled s.params.floatFmt v = .negative →
    (CanCall (.showTemperature v) rest s → ∃ ns, ns.length = 10 ∧ ∃ t, Host.Core.run Sys2Proof.core 3 s = .next t ∧
      t.wave = s.wave ++ frameWave (writeFrame 0x0A ns) ∧ t.target.cfg = s.target.cfg ∧ t.result = some .ok ∧
      ∀ b, b < 0x0A ∨ 0x14 ≤ b → cell t b = cell s b) ∧
    (CanCall (.showHumidity v) rest s → ∃ ns, ns.length = 10 ∧ ∃ t, Host.Core.run Sys2Proof.core 3 s = .next t ∧
      t.wave = s.wave ++ frameWave (writeFrame 0x00 ns) ∧ t.target.cfg = s.target.cfg ∧ t.result = some .ok ∧
      ∀ b, 0x0A ≤ b → cell t b = cell s b)) ∧
  (∀ (p : Params) (v : HostNum), (∀ q, v ≠ .finite q) →
    operandFault p (.showTemperature v) = some (.operandRange (.value v)) ∧
    operandFault p (.showHumidity v) = some (.operandRange (.value v))) ∧
  ∀ fmt : FloatFmt, scaled fmt (.finite (24543 / 1000)) = .number 2454 ∧ scaled fmt (.finite (71 / 10)) = .number 710

/-- R218, R219: `show_all_segments` fills every cell with 0xF and `clear_all` with 0; R220, R221: the two region clears
zero their ten cells and leave every other cell (where a region starts is what R220 and R221 derive from R215 and
R216). That a refusal's record names the renderer's operation is the model's choice (log 20). -/
def Obligations.RendererFills : Prop :=
  ∀ (rest : List Item) (s : State),
    (CanCall .showAllSegments rest s → ∃ t, Host.Core.run Sys2Proof.core 3 s = .next t ∧
      t.result = some .ok ∧ t.target.cfg = s.target.cfg ∧
      t.wave = s.wave ++ frameWave (writeFrame 0 (List.replicate 32 0xF)) ∧ ∀ b, b < 32 → cell t b = some 0xF) ∧
    (CanCall .clearAll rest s → ∃ t, Host.Core.run Sys2Proof.core 3 s = .next t ∧
      t.result = some .ok ∧ t.target.cfg = s.target.cfg ∧
      t.wave = s.wave ++ frameWave (writeFrame 0 (List.replicate 32 0x0)) ∧ ∀ b, b < 32 → cell t b = some 0) ∧
    (CanCall .clearTemperatureRegion rest s → ∃ t, Host.Core.run Sys2Proof.core 3 s = .next t ∧
      t.result = some .ok ∧ t.target.cfg = s.target.cfg ∧
      t.wave = s.wave ++ frameWave (writeFrame 0x0A (List.replicate 10 0x0)) ∧
      ∀ b, cell t b = if 0x0A ≤ b ∧ b ≤ 0x13 then some 0 else cell s b) ∧
    (CanCall .clearHumidityRegion rest s → ∃ t, Host.Core.run Sys2Proof.core 3 s = .next t ∧
      t.result = some .ok ∧ t.target.cfg = s.target.cfg ∧
      t.wave = s.wave ++ frameWave (writeFrame 0x00 (List.replicate 10 0x0)) ∧
      ∀ b, cell t b = if b ≤ 0x09 then some 0 else cell s b) ∧
    (s.enc.status ≠ .ready →
      ∀ op ∈ [HostOp.showAllSegments, .clearAll, .clearTemperatureRegion, .clearHumidityRegion],
        issue op s = refuse .notConstructed (some op) s)

end Statements
end

