-- ==== Sys2Proof/Laws/Bits.lean ====
section
/-! SUPPORT. Field emission and its inverse (30_encoding R15, R76, 41_command_frames R121): lengths, values, and the shapes of the
frames. -/

namespace Sys2Proof

@[simp] theorem bitsOf_length (w v : Nat) : (bitsOf w v).length = w := by
  induction w with
  | zero => rfl
  | succ w ih => simp only [bitsOf, List.length_cons, ih]

/-- The low `w + 1` bits are the low `w` bits and bit `w`. -/
theorem mod_two_pow_succ (v w : Nat) : v % 2 ^ (w + 1) = v % 2 ^ w + 2 ^ w * (v.testBit w).toNat := by
  rw [Nat.mod_pow_succ, Nat.toNat_testBit]

theorem valueOf_acc (w v n : Nat) :
    (bitsOf w v).foldl (fun n b => 2 * n + b.toNat) n = n * 2 ^ w + v % 2 ^ w := by
  induction w generalizing n with
  | zero => simp [bitsOf, Nat.mod_one]
  | succ w ih =>
    rw [bitsOf, List.foldl_cons, ih, mod_two_pow_succ, Nat.add_mul, Nat.pow_succ]
    rw [show 2 * n * 2 ^ w = n * (2 ^ w * 2) by ac_rfl, Nat.mul_comm (v.testBit w).toNat]
    omega

/-- The receiver reads back the field the ENCODER sent. -/
theorem valueOf_bitsOf (w v : Nat) : valueOf (bitsOf w v) = v % 2 ^ w := by
  rw [valueOf, valueOf_acc, Nat.zero_mul, Nat.zero_add]

theorem ofNat_valueOf_bitsOf {w : Nat} (c : BitVec w) : BitVec.ofNat w (valueOf (bitsOf w c.toNat)) = c := by
  rw [valueOf_bitsOf, Nat.mod_eq_of_lt c.isLt, BitVec.ofNat_toNat, BitVec.setWidth_eq]

theorem bitsOf_eq_of_mod {w v v' : Nat} (h : v % 2 ^ w = v' % 2 ^ w) : bitsOf w v = bitsOf w v' := by
  induction w with
  | zero => rfl
  | succ w ih =>
    have hp : 2 ^ w ∣ 2 ^ (w + 1) := ⟨2, by rw [Nat.pow_succ]⟩
    have h1 : v % 2 ^ w = v' % 2 ^ w := by
      rw [← Nat.mod_mod_of_dvd v hp, h, Nat.mod_mod_of_dvd v' hp]
    rw [mod_two_pow_succ, mod_two_pow_succ, h1] at h
    have h2 : (v.testBit w).toNat = (v'.testBit w).toNat :=
      Nat.eq_of_mul_eq_mul_left (Nat.two_pow_pos w) (Nat.add_left_cancel h)
    have h3 : v.testBit w = v'.testBit w := by
      cases hv : v.testBit w <;> cases hv' : v'.testBit w <;> simp_all
    rw [bitsOf, bitsOf, h3, ih h1]

theorem valueOf_append_acc (bs : List Bool) (n : Nat) :
    bs.foldl (fun n b => 2 * n + b.toNat) n = n * 2 ^ bs.length + valueOf bs := by
  induction bs generalizing n with
  | nil => simp [valueOf]
  | cons b bs ih =>
    have hv : valueOf (b :: bs) = b.toNat * 2 ^ bs.length + valueOf bs := by
      unfold valueOf
      rw [List.foldl_cons, ih, Nat.mul_zero, Nat.zero_add]
      rfl
    rw [List.foldl_cons, ih, hv, List.length_cons, Nat.pow_succ, Nat.add_mul]
    rw [show 2 * n * 2 ^ bs.length = n * (2 ^ bs.length * 2) by ac_rfl]
    omega

theorem valueOf_cons (b : Bool) (bs : List Bool) : valueOf (b :: bs) = b.toNat * 2 ^ bs.length + valueOf bs := by
  rw [valueOf, List.foldl_cons, valueOf_append_acc, Nat.mul_zero, Nat.zero_add]

theorem valueOf_lt (bs : List Bool) : valueOf bs < 2 ^ bs.length := by
  induction bs with
  | nil => exact Nat.one_pos
  | cons b bs ih =>
    rw [valueOf_cons, List.length_cons, Nat.pow_succ]
    have : b.toNat ≤ 1 := Bool.toNat_le b
    nlinarith [Nat.two_pow_pos bs.length]

/-- Emitting the value of a list of bits gives the list. -/
theorem bitsOf_valueOf (bs : List Bool) : bitsOf bs.length (valueOf bs) = bs := by
  induction bs with
  | nil => rfl
  | cons b bs ih =>
    have hlt := valueOf_lt bs
    have hbit : (valueOf (b :: bs)).testBit bs.length = b := by
      rw [valueOf_cons, Nat.mul_comm, Nat.testBit_two_pow_mul_add _ hlt]
      cases b <;> simp
    have hmod : valueOf (b :: bs) % 2 ^ bs.length = valueOf bs % 2 ^ bs.length := by
      rw [valueOf_cons, Nat.mul_comm, Nat.mul_add_mod]
    rw [List.length_cons, bitsOf, hbit, bitsOf_eq_of_mod hmod, ih]

theorem bitsOf_toNat_ofNat (bs : List Bool) {w : Nat} (h : bs.length = w) :
    bitsOf w (BitVec.ofNat w (valueOf bs)).toNat = bs := by
  subst h
  rw [BitVec.toNat_ofNat, Nat.mod_eq_of_lt (valueOf_lt bs), bitsOf_valueOf]

theorem commandFrame_length (c : Code) : (commandFrame c).length = 12 := by
  simp [commandFrame, commandFlag]

theorem nibbleBits_length (ds : List Nibble) : (ds.flatMap (fun d => bitsOf 4 d.toNat)).length = 4 * ds.length := by
  induction ds with
  | nil => rfl
  | cons d ds ih => rw [List.flatMap_cons, List.length_append, bitsOf_length, ih, List.length_cons]; omega

theorem writeFrame_length (a : Addr) (ds : List Nibble) : (writeFrame a ds).length = 9 + 4 * ds.length := by
  simp only [writeFrame, writeFlag, List.length_append, List.length_cons, List.length_nil, bitsOf_length,
    nibbleBits_length]

theorem nibblesOf_cons (d : Nibble) (rest : List Bool) :
    nibblesOf (bitsOf 4 d.toNat ++ rest) = (nibblesOf rest).map (fun ds => d :: ds) := by
  have h : bitsOf 4 d.toNat = [d.toNat.testBit 3, d.toNat.testBit 2, d.toNat.testBit 1, d.toNat.testBit 0] := rfl
  have hv := ofNat_valueOf_bitsOf d
  rw [h] at hv ⊢
  show (nibblesOf rest).map _ = _
  rw [hv]

theorem nibblesOf_bits (ds : List Nibble) : nibblesOf (ds.flatMap (fun d => bitsOf 4 d.toNat)) = some ds := by
  induction ds with
  | nil => rfl
  | cons d ds ih => rw [List.flatMap_cons, nibblesOf_cons, ih]; rfl

/-! ## Bits in marked places (R80) -/

/-- The bits of `c` in the marked places, taken out and put back. -/
theorem testBit_spread_gather (places : List Bool) (c i : Nat) :
    (spread places (gather places c)).testBit i = (places.getD i false && c.testBit i) := by
  induction places generalizing c i with
  | nil => simp [spread]
  | cons p places ih =>
    have hd : ∀ n, (2 * n).testBit 0 = false := fun n => by simp
    cases p with
    | true =>
      have h1 : (c % 2 + 2 * gather places (c / 2)) % 2 = c % 2 := by omega
      have h2 : (c % 2 + 2 * gather places (c / 2)) / 2 = gather places (c / 2) := by omega
      rw [gather, spread, h1, h2]
      cases i with
      | zero =>
        rw [Nat.testBit_zero, Nat.testBit_zero, show ∀ n, (c % 2 + 2 * n) % 2 = c % 2 by omega]
        rfl
      | succ i =>
        rw [Nat.testBit_succ, Nat.testBit_succ, show ∀ n, (c % 2 + 2 * n) / 2 = n by omega, ih]
        rfl
    | false =>
      rw [gather, spread]
      cases i with
      | zero => rw [hd]; rfl
      | succ i => rw [Nat.testBit_succ, Nat.testBit_succ, show ∀ n, 2 * n / 2 = n by omega, ih]; rfl

/-- With 0 in every marked place there is nothing to take out. -/
theorem gather_eq_zero (places : List Bool) (c : Nat)
    (h : ∀ i, places.getD i false = true → c.testBit i = false) : gather places c = 0 := by
  induction places generalizing c with
  | nil => rfl
  | cons p places ih =>
    have hr : gather places (c / 2) = 0 := ih (c / 2) (fun i hi => by rw [← Nat.testBit_succ]; exact h (i + 1) hi)
    cases p with
    | true =>
      have h0 := h 0 rfl
      rw [Nat.testBit_zero, decide_eq_false_iff_not] at h0
      rw [gather, hr]
      omega
    | false => rw [gather, hr]

theorem spread_zero (places : List Bool) : spread places 0 = 0 := by
  induction places with
  | nil => rfl
  | cons p places ih => cases p <;> simp [spread, ih]

end Sys2Proof
end

