-- ==== Sys2Proof/Laws/State.lean ====
section
/-! SUPPORT. The small lemmas of the named updates: what each one leaves in each part of the state, by rfl. -/

namespace Sys2Proof.Machine

section record_update
variable (es : List WaveEvent) (s : State)
@[simp] theorem record_line : (record es s).line = s.line := rfl
@[simp] theorem record_enc : (record es s).enc = s.enc := rfl
@[simp] theorem record_faults : (record es s).faults = s.faults := rfl
@[simp] theorem record_target : (record es s).target = s.target := rfl
@[simp] theorem record_driver : (record es s).driver = s.driver := rfl
@[simp] theorem record_inbox : (record es s).inbox = s.inbox := rfl
@[simp] theorem record_wave : (record es s).wave = s.wave ++ es := rfl
@[simp] theorem record_result : (record es s).result = s.result := rfl
@[simp] theorem record_draws : (record es s).draws = s.draws := rfl
@[simp] theorem record_params : (record es s).params = s.params := rfl
end record_update

section wait_update
variable (d : Delay) (s : State)
@[simp] theorem wait_line : (wait d s).line = s.line := rfl
@[simp] theorem wait_enc : (wait d s).enc = s.enc := rfl
@[simp] theorem wait_faults : (wait d s).faults = s.faults := rfl
@[simp] theorem wait_target : (wait d s).target = s.target.age := rfl
@[simp] theorem wait_driver : (wait d s).driver = s.driver := rfl
@[simp] theorem wait_inbox : (wait d s).inbox = s.inbox := rfl
@[simp] theorem wait_wave : (wait d s).wave = s.wave ++ [.wait d] := rfl
@[simp] theorem wait_result : (wait d s).result = s.result := rfl
@[simp] theorem wait_draws : (wait d s).draws = s.draws := rfl
@[simp] theorem wait_params : (wait d s).params = s.params := rfl
end wait_update

section setPhase_update
variable (p : Phase) (s : State)
@[simp] theorem setPhase_line : (setPhase p s).line = s.line := rfl
@[simp] theorem setPhase_enc : (setPhase p s).enc = { s.enc with phase := p } := rfl
@[simp] theorem setPhase_faults : (setPhase p s).faults = s.faults := rfl
@[simp] theorem setPhase_target : (setPhase p s).target = s.target := rfl
@[simp] theorem setPhase_driver : (setPhase p s).driver = s.driver := rfl
@[simp] theorem setPhase_inbox : (setPhase p s).inbox = s.inbox := rfl
@[simp] theorem setPhase_wave : (setPhase p s).wave = s.wave := rfl
@[simp] theorem setPhase_result : (setPhase p s).result = s.result := rfl
@[simp] theorem setPhase_draws : (setPhase p s).draws = s.draws := rfl
@[simp] theorem setPhase_params : (setPhase p s).params = s.params := rfl
end setPhase_update

section setTodo_update
variable (td : List Action) (s : State)
@[simp] theorem setTodo_line : (setTodo td s).line = s.line := rfl
@[simp] theorem setTodo_enc : (setTodo td s).enc = { s.enc with todo := td } := rfl
@[simp] theorem setTodo_faults : (setTodo td s).faults = s.faults := rfl
@[simp] theorem setTodo_target : (setTodo td s).target = s.target := rfl
@[simp] theorem setTodo_driver : (setTodo td s).driver = s.driver := rfl
@[simp] theorem setTodo_inbox : (setTodo td s).inbox = s.inbox := rfl
@[simp] theorem setTodo_wave : (setTodo td s).wave = s.wave := rfl
@[simp] theorem setTodo_result : (setTodo td s).result = s.result := rfl
@[simp] theorem setTodo_draws : (setTodo td s).draws = s.draws := rfl
@[simp] theorem setTodo_params : (setTodo td s).params = s.params := rfl
end setTodo_update

section raise_update
variable (k : BlockFault) (ag : Agent) (op : Option HostOp) (s : State)
@[simp] theorem raise_line : (raise k ag op s).line = s.line := rfl
@[simp] theorem raise_enc : (raise k ag op s).enc = s.enc := rfl
@[simp] theorem raise_faults : (raise k ag op s).faults = addFault ⟨k, ag, op⟩ s.faults := rfl
@[simp] theorem raise_target : (raise k ag op s).target = s.target := rfl
@[simp] theorem raise_driver : (raise k ag op s).driver = s.driver := rfl
@[simp] theorem raise_inbox : (raise k ag op s).inbox = s.inbox := rfl
@[simp] theorem raise_wave : (raise k ag op s).wave = s.wave := rfl
@[simp] theorem raise_result : (raise k ag op s).result = s.result := rfl
@[simp] theorem raise_draws : (raise k ag op s).draws = s.draws := rfl
@[simp] theorem raise_params : (raise k ag op s).params = s.params := rfl
end raise_update

section refuse_update
variable (k : BlockFault) (op : Option HostOp) (s : State)
@[simp] theorem refuse_line : (refuse k op s).line = s.line := rfl
@[simp] theorem refuse_enc : (refuse k op s).enc = { s.enc with op := none, todo := [] } := rfl
@[simp] theorem refuse_faults : (refuse k op s).faults = addFault ⟨k, k.raiser, op⟩ s.faults := rfl
@[simp] theorem refuse_target : (refuse k op s).target = s.target := rfl
@[simp] theorem refuse_driver : (refuse k op s).driver = s.driver := rfl
@[simp] theorem refuse_inbox : (refuse k op s).inbox = s.inbox := rfl
@[simp] theorem refuse_wave : (refuse k op s).wave = s.wave := rfl
@[simp] theorem refuse_result : (refuse k op s).result = some (.refused k) := rfl
@[simp] theorem refuse_draws : (refuse k op s).draws = s.draws := rfl
@[simp] theorem refuse_params : (refuse k op s).params = s.params := rfl
end refuse_update

section finishOp_update
variable (s : State)
@[simp] theorem finishOp_line : (finishOp s).line = s.line := rfl
@[simp] theorem finishOp_enc : (finishOp s).enc = { s.enc with op := none } := rfl
@[simp] theorem finishOp_faults : (finishOp s).faults = s.faults := rfl
@[simp] theorem finishOp_target : (finishOp s).target = s.target := rfl
@[simp] theorem finishOp_driver : (finishOp s).driver = s.driver := rfl
@[simp] theorem finishOp_inbox : (finishOp s).inbox = s.inbox := rfl
@[simp] theorem finishOp_wave : (finishOp s).wave = s.wave := rfl
@[simp] theorem finishOp_result : (finishOp s).result = some .ok := rfl
@[simp] theorem finishOp_draws : (finishOp s).draws = s.draws := rfl
@[simp] theorem finishOp_params : (finishOp s).params = s.params := rfl
end finishOp_update

section target_updates
variable (t : Target) (st : RxState)
@[simp] theorem age_cfg : t.age.cfg = t.cfg := rfl
@[simp] theorem age_ram : t.age.ram = t.ram := rfl
@[simp] theorem age_rx : t.age.rx = t.rx := rfl
@[simp] theorem age_counters :
    t.age.counters = { t.counters with tbCount := .unknown, wdtCount := .unknown } := rfl
@[simp] theorem age_age : t.age.age = t.age := rfl
@[simp] theorem setSt_cfg : (t.setSt st).cfg = t.cfg := rfl
@[simp] theorem setSt_ram : (t.setSt st).ram = t.ram := rfl
@[simp] theorem setSt_rx : (t.setSt st).rx = { t.rx with st := st } := rfl
@[simp] theorem setSt_counters : (t.setSt st).counters = t.counters := rfl
@[simp] theorem closed_cfg : t.closed.cfg = t.cfg := rfl
@[simp] theorem closed_ram : t.closed.ram = t.ram := rfl
@[simp] theorem closed_counters :
    t.closed.counters = { t.counters with tbCount := .unknown, wdtCount := .unknown } := rfl
@[simp] theorem closed_rx :
    t.closed.rx = { t.rx with st := .idle, csPrev := .high, wrPrev := .high } := rfl
end target_updates

end Sys2Proof.Machine
end

