-- ==== Sys2Proof/Laws/Memory.lean ====
section
/-! SUPPORT. The laws of the display memory: reading after writing, and that every write keeps the canonical form. -/

namespace Sys2Proof.Machine

theorem get_put_same (m : Memory) (a : Nat) (v : Nibble) : (m.put a v).get a = some v := by
  have hv : (v.setWidth 8).setWidth 4 = v := by
    rw [BitVec.setWidth_setWidth_of_le v (by omega), BitVec.setWidth_eq]
  induction m with
  | nil => simp only [Memory.put, Memory.get, if_true, hv]
  | cons c rest ih =>
    unfold Memory.put
    split_ifs with h1 h2
    · simp only [Memory.get, if_true, hv]
    · simp only [Memory.get, if_true, hv]
    · rw [Memory.get, if_neg (Ne.symm h2), ih]

theorem get_put_ne (m : Memory) {a b : Nat} (v : Nibble) (h : b ≠ a) : (m.put a v).get b = m.get b := by
  induction m with
  | nil => simp only [Memory.put, Memory.get, if_neg (Ne.symm h)]
  | cons c rest ih =>
    unfold Memory.put
    split_ifs with h1 h2
    · rw [Memory.get, if_neg (Ne.symm h)]
    · rw [Memory.get, if_neg (Ne.symm h), Memory.get, if_neg (fun e => h (e.symm.trans h2.symm))]
    · rw [Memory.get, Memory.get, ih]

/-- What every cell holds after a write of one cell. -/
theorem get_put (m : Memory) (a b : Nat) (v : Nibble) :
    (m.put a v).get b = if b = a then some v else m.get b := by
  split_ifs with h
  · rw [h, get_put_same]
  · exact get_put_ne m v h

/-- What every cell holds after a write of consecutive cells (R165). -/
theorem get_putAll (ds : List Nibble) (m : Memory) (a b : Nat) :
    (m.putAll a ds).get b = if a ≤ b ∧ b < a + ds.length then ds[b - a]? else m.get b := by
  induction ds generalizing m a with
  | nil =>
    rw [Memory.putAll, if_neg (by simp only [List.length_nil]; omega)]
  | cons d ds ih =>
    rw [Memory.putAll, ih, get_put]
    simp only [List.length_cons]
    by_cases h : b = a
    · subst h
      rw [if_neg (by omega), if_pos rfl, if_pos (by omega), Nat.sub_self]
      rfl
    · rw [if_neg h]
      by_cases h2 : a + 1 ≤ b ∧ b < a + 1 + ds.length
      · rw [if_pos h2, if_pos (by omega), show b - a = (b - (a + 1)) + 1 by omega, List.getElem?_cons_succ]
      · rw [if_neg h2, if_neg (by omega)]

theorem mem_put (m : Memory) (a : Nat) (v : Nibble) (c : Host.Cell) (h : c ∈ m.put a v) :
    c = (a, v.setWidth 8) ∨ c ∈ m := by
  induction m with
  | nil => exact Or.inl (by simpa [Memory.put] using h)
  | cons d rest ih =>
    unfold Memory.put at h
    split_ifs at h with h1 h2
    · simpa using h
    · rcases List.mem_cons.mp h with h | h
      · exact Or.inl h
      · exact Or.inr (List.mem_cons_of_mem _ h)
    · rcases List.mem_cons.mp h with h | h
      · exact Or.inr (h ▸ List.mem_cons_self ..)
      · exact (ih h).imp id (List.mem_cons_of_mem _)

/-- A write of an existing cell keeps the canonical form. -/
theorem put_wf {m : Memory} {a : Nat} (v : Nibble) (ha : a < Config.nRam) (h : m.wf) : (m.put a v).wf := by
  refine ⟨?_, fun c hc => ?_⟩
  · induction m with
    | nil => exact List.pairwise_singleton ..
    | cons d rest ih =>
      obtain ⟨hp, hall⟩ := h
      obtain ⟨hd, hr⟩ := List.pairwise_cons.mp hp
      unfold Memory.put
      split_ifs with h1 h2
      · refine List.pairwise_cons.mpr ⟨fun c hc => ?_, hp⟩
        rcases List.mem_cons.mp hc with rfl | hc
        · exact h1
        · exact Nat.lt_trans h1 (hd c hc)
      · exact List.pairwise_cons.mpr ⟨fun c hc => h2 ▸ hd c hc, hr⟩
      · refine List.pairwise_cons.mpr ⟨fun c hc => ?_, ih ⟨hr, fun c hc => hall c (List.mem_cons_of_mem _ hc)⟩⟩
        rcases mem_put rest a v c hc with rfl | hc
        · exact show d.1 < a by omega
        · exact hd c hc
  · rcases mem_put m a v c hc with rfl | hc
    · refine ⟨ha, ?_⟩
      have := v.isLt
      rw [BitVec.toNat_setWidth]
      omega
    · exact h.2 c hc

/-- A write of consecutive existing cells keeps the canonical form. -/
theorem putAll_wf (ds : List Nibble) {m : Memory} {a : Nat} (ha : a + ds.length ≤ Config.nRam) (h : m.wf) :
    (m.putAll a ds).wf := by
  induction ds generalizing m a with
  | nil => exact h
  | cons d ds ih =>
    rw [List.length_cons] at ha
    exact ih (by omega) (put_wf d (by omega) h)

theorem get_eq_none_of_lt {m : Memory} {a : Nat} (h : ∀ c ∈ m, a < c.1) : m.get a = none := by
  induction m with
  | nil => rfl
  | cons c rest ih =>
    rw [Memory.get, if_neg (Nat.ne_of_gt (h c (List.mem_cons_self ..))),
      ih (fun d hd => h d (List.mem_cons_of_mem _ hd))]

/-- A cell that holds a value is one of the 32. -/
theorem lt_of_get {m : Memory} (h : m.wf) {a : Nat} {v : Nibble} (hg : m.get a = some v) : a < Config.nRam := by
  induction m with
  | nil => cases hg
  | cons c rest ih =>
    obtain ⟨hp, hall⟩ := h
    unfold Memory.get at hg
    split_ifs at hg with e
    · exact e ▸ (hall c (List.mem_cons_self ..)).1
    · exact ih ⟨(List.pairwise_cons.mp hp).2, fun d hd => hall d (List.mem_cons_of_mem _ hd)⟩ hg

theorem cellByte_eq {b b' : BitVec 8} (h : b.toNat < 16) (h' : b'.toNat < 16) (e : b.setWidth 4 = b'.setWidth 4) :
    b = b' := by
  apply BitVec.eq_of_toNat_eq
  have := congrArg BitVec.toNat e
  rw [BitVec.toNat_setWidth, BitVec.toNat_setWidth] at this
  omega

/-- Canonical memories that hold the same are the same data. -/
theorem eq_of_get {m m' : Memory} (h : m.wf) (h' : m'.wf) (e : ∀ a, m.get a = m'.get a) : m = m' := by
  induction m generalizing m' with
  | nil =>
    cases m' with
    | nil => rfl
    | cons c rest =>
      have := e c.1
      rw [Memory.get, Memory.get, if_pos rfl] at this
      cases this
  | cons c rest ih =>
    obtain ⟨hp, hall⟩ := h
    obtain ⟨hc, hr⟩ := List.pairwise_cons.mp hp
    have hwr : Memory.wf rest := ⟨hr, fun d hd => hall d (List.mem_cons_of_mem _ hd)⟩
    cases m' with
    | nil =>
      have := e c.1
      rw [Memory.get, Memory.get, if_pos rfl] at this
      cases this
    | cons c' rest' =>
      obtain ⟨hp', hall'⟩ := h'
      obtain ⟨hc', hr'⟩ := List.pairwise_cons.mp hp'
      have hwr' : Memory.wf rest' := ⟨hr', fun d hd => hall' d (List.mem_cons_of_mem _ hd)⟩
      have hk : c.1 = c'.1 := by
        rcases Nat.lt_trichotomy c.1 c'.1 with hlt | heq | hgt
        · have := e c.1
          rw [Memory.get, if_pos rfl, Memory.get, if_neg (Nat.ne_of_gt hlt),
            get_eq_none_of_lt (fun d hd => Nat.lt_trans hlt (hc' d hd))] at this
          cases this
        · exact heq
        · have := e c'.1
          rw [Memory.get, if_neg (Nat.ne_of_gt hgt), Memory.get, if_pos rfl,
            get_eq_none_of_lt (fun d hd => Nat.lt_trans hgt (hc d hd))] at this
          cases this
      have hv : c.2 = c'.2 := by
        have := e c.1
        rw [Memory.get, if_pos rfl, Memory.get, if_pos hk.symm] at this
        exact cellByte_eq (hall c (List.mem_cons_self ..)).2 (hall' c' (List.mem_cons_self ..)).2 (Option.some.inj this)
      have hrest : rest = rest' := by
        refine ih hwr hwr' (fun a => ?_)
        have := e a
        unfold Memory.get at this
        by_cases ha : c.1 = a
        · rw [get_eq_none_of_lt (fun d hd => ha ▸ hc d hd),
            get_eq_none_of_lt (fun d hd => ha ▸ hk ▸ hc' d hd)]
        · rwa [if_neg ha, if_neg (hk ▸ ha)] at this
      rw [hrest, Prod.ext hk hv]

/-- The memory at power-on is canonical, whatever the parameter `POR_RAM` lists. -/
theorem powerOn_wf (cells : List (Nat × Nibble)) : (Memory.powerOn cells).wf := by
  have key : ∀ (cs : List (Nat × Nibble)) (m : Memory), m.wf →
      (cs.foldl (fun m c => if c.1 < Config.nRam then m.put c.1 c.2 else m) m).wf := by
    intro cs
    induction cs with
    | nil => exact fun _ h => h
    | cons c cs ih =>
      refine fun m h => ih _ ?_
      simp only
      split_ifs with hc
      · exact put_wf c.2 hc h
      · exact h
  exact key cells [] ⟨List.Pairwise.nil, fun _ h => nomatch h⟩

/-- The memory after reset is canonical. -/
theorem reset_memory_wf : State.reset.target.ram.wf := powerOn_wf _

end Sys2Proof.Machine
end

