-- ==== Sys2Proof/Laws/Receiver.lean ====
section
/-! SUPPORT. What the receiver makes of a list of bits, and that it depends on nothing but its own state, the
configuration and the memory. -/

namespace Sys2Proof.Machine

/-- The edge detectors set. -/
def Target.withPrev (c w : Level) (t : Target) : Target := { t with rx := { t.rx with csPrev := c, wrPrev := w } }

/-- The receiver over a list of bits, with the faults it raises, oldest first. -/
def receiveList (p : Params) : List Bool → Target → Target × List BlockFault
  | [], t => (t, [])
  | b :: f, t =>
    let r := receive p b t
    let q := receiveList p f r.1
    (q.1, r.2.toList ++ q.2)

/-- The effect of a command on everything but `rx.st`, the edge detectors and the ages of the counters does not depend
on them. -/
theorem perform_withPrev (m : Meanings) (c : Code) (n : Command) (x y : Level) (t : Target) :
    perform m c (t.withPrev x y) n = ((perform m c t n).1.withPrev x y, (perform m c t n).2) := by
  cases n <;> rfl

theorem perform_age (m : Meanings) (c : Code) (n : Command) (t : Target) :
    ((perform m c t.age n).1.age, (perform m c t.age n).2) = ((perform m c t n).1.age, (perform m c t n).2) := by
  cases n <;> rfl

theorem perform_setSt (m : Meanings) (c : Code) (n : Command) (st st' : RxState) (t : Target) :
    ((perform m c (t.setSt st') n).1.setSt st, (perform m c (t.setSt st') n).2)
      = ((perform m c t n).1.setSt st, (perform m c t n).2) := by
  cases n <;> rfl

theorem withPrev_setSt (x y : Level) (st : RxState) (t : Target) :
    (t.setSt st).withPrev x y = (t.withPrev x y).setSt st := rfl

theorem age_setSt (st : RxState) (t : Target) : (t.setSt st).age = t.age.setSt st := rfl

theorem execute_eq {p : Params} (c : Code) (t : Target) :
    execute p c t =
      match p.codes.lookup c with
      | none => (t.setSt .discard, some (.unknownCommand c))
      | some n =>
        ((perform p.meanings c t n).1.setSt (if (perform p.meanings c t n).2.isNone then .cmdDone else .discard),
          (perform p.meanings c t n).2) := by
  unfold execute
  cases p.codes.lookup c with
  | none => rfl
  | some n => cases n <;> rfl

theorem execute_withPrev {p : Params} (c : Code) (x y : Level) (t : Target) :
    execute p c (t.withPrev x y) = ((execute p c t).1.withPrev x y, (execute p c t).2) := by
  rw [execute_eq, execute_eq]
  cases p.codes.lookup c with
  | none => rfl
  | some n => simp only [perform_withPrev]; rfl

theorem execute_age {p : Params} (c : Code) (t : Target) :
    ((execute p c t.age).1.age, (execute p c t.age).2) = ((execute p c t).1.age, (execute p c t).2) := by
  rw [execute_eq, execute_eq]
  cases p.codes.lookup c with
  | none => rfl
  | some n => cases n <;> rfl

theorem storeNibble_withPrev (v : Nibble) (x y : Level) (t : Target) :
    storeNibble v (t.withPrev x y) = ((storeNibble v t).1.withPrev x y, (storeNibble v t).2) := by
  unfold storeNibble
  by_cases h : t.rx.ptr < Config.nRam
  · simp only [Target.withPrev, h, if_true]
  · simp only [Target.withPrev, h, if_false]; rfl

theorem storeNibble_age (v : Nibble) (t : Target) :
    ((storeNibble v t.age).1.age, (storeNibble v t.age).2) = ((storeNibble v t).1.age, (storeNibble v t).2) := by
  unfold storeNibble
  by_cases h : t.rx.ptr < Config.nRam
  · simp only [age_rx, h, if_true]; rfl
  · simp only [age_rx, h, if_false]; rfl

/-- The receiver neither reads nor changes the edge detectors. -/
theorem receive_withPrev {p : Params} (b : Bool) (x y : Level) (t : Target) :
    receive p b (t.withPrev x y) = ((receive p b t).1.withPrev x y, (receive p b t).2) := by
  have e : (t.withPrev x y).rx.st = t.rx.st := rfl
  unfold receive
  rw [e]
  cases t.rx.st with
  | idle => rfl
  | discard => rfl
  | cmdDone => rfl
  | id bs => simp only []; split_ifs <;> rfl
  | cmd bs => simp only []; split_ifs <;> [rfl; exact execute_withPrev ..]
  | addr bs => simp only []; split_ifs <;> rfl
  | data bs => simp only []; split_ifs <;> [rfl; exact storeNibble_withPrev ..]

/-- The passing of time between the bits changes nothing the receiver looks at. -/
theorem receive_age {p : Params} (b : Bool) (t : Target) :
    ((receive p b t.age).1.age, (receive p b t.age).2) = ((receive p b t).1.age, (receive p b t).2) := by
  unfold receive
  rw [age_rx]
  cases t.rx.st with
  | idle => rfl
  | discard => rfl
  | cmdDone => rfl
  | id bs => simp only []; split_ifs <;> rfl
  | cmd bs => simp only []; split_ifs <;> [rfl; exact execute_age ..]
  | addr bs => simp only []; split_ifs <;> rfl
  | data bs => simp only []; split_ifs <;> [rfl; exact storeNibble_age ..]

theorem receive_age_fst {p : Params} (b : Bool) (t : Target) : (receive p b t.age).1.age = (receive p b t).1.age :=
  (Prod.mk.inj (receive_age b t)).1

theorem receive_age_snd {p : Params} (b : Bool) (t : Target) : (receive p b t.age).2 = (receive p b t).2 :=
  (Prod.mk.inj (receive_age b t)).2

@[simp] theorem receiveList_nil (p : Params) (t : Target) : receiveList p [] t = (t, []) := rfl

theorem receiveList_cons {p : Params} (b : Bool) (f : List Bool) (t : Target) :
    receiveList p (b :: f) t
      = ((receiveList p f (receive p b t).1).1, (receive p b t).2.toList ++ (receiveList p f (receive p b t).1).2) := rfl

theorem receiveList_append {p : Params} (f g : List Bool) (t : Target) :
    receiveList p (f ++ g) t
      = ((receiveList p g (receiveList p f t).1).1, (receiveList p f t).2 ++ (receiveList p g (receiveList p f t).1).2) := by
  induction f generalizing t with
  | nil => rfl
  | cons b f ih => simp only [List.cons_append, receiveList_cons, ih, List.append_assoc]

theorem receiveList_withPrev {p : Params} (f : List Bool) (x y : Level) (t : Target) :
    receiveList p f (t.withPrev x y) = ((receiveList p f t).1.withPrev x y, (receiveList p f t).2) := by
  induction f generalizing t with
  | nil => rfl
  | cons b f ih => simp only [receiveList_cons, receive_withPrev, ih]

theorem receiveList_age {p : Params} (f : List Bool) (t : Target) :
    ((receiveList p f t.age).1.age, (receiveList p f t.age).2) = ((receiveList p f t).1.age, (receiveList p f t).2) := by
  induction f generalizing t with
  | nil => rfl
  | cons b f ih =>
    have h1 := ih (receive p b t.age).1
    have h2 := ih (receive p b t).1
    rw [receive_age_fst] at h1
    have h3 := h1.symm.trans h2
    simp only [receiveList_cons, receive_age_snd]
    rw [(Prod.mk.inj h3).1, (Prod.mk.inj h3).2]

theorem receiveList_age_fst {p : Params} (f : List Bool) (t : Target) : (receiveList p f t.age).1.age = (receiveList p f t).1.age :=
  (Prod.mk.inj (receiveList_age f t)).1

theorem receiveList_age_snd {p : Params} (f : List Bool) (t : Target) : (receiveList p f t.age).2 = (receiveList p f t).2 :=
  (Prod.mk.inj (receiveList_age f t)).2

end Sys2Proof.Machine
end

