-- ==== Sys2Proof/Laws/Wire.lean ====
section
/-! SUPPORT. What a whole frame does: SendFrame and another agent's window, each as one update of the state. -/

namespace Sys2Proof.Machine

/-! ## Faults of the TARGET -/

/-- The TARGET's faults added to a fault set. -/
def noteFaults (op : Option HostOp) (ks : List BlockFault) (fs : List FaultRecord) : List FaultRecord :=
  ks.foldl (fun fs k => addFault ⟨k, .target, op⟩ fs) fs

@[simp] theorem noteFaults_nil (op : Option HostOp) (fs : List FaultRecord) : noteFaults op [] fs = fs := rfl

theorem noteFaults_append (op : Option HostOp) (ks ls : List BlockFault) (fs : List FaultRecord) :
    noteFaults op (ks ++ ls) fs = noteFaults op ls (noteFaults op ks fs) := List.foldl_append

theorem noteTarget_eq (ks : List BlockFault) (s : State) :
    noteTarget ks s = { s with faults := noteFaults s.enc.op ks s.faults } := by
  induction ks generalizing s with
  | nil => rfl
  | cons k ks ih => exact ih (raise k .target s.enc.op s)

/-! ## The receiver keeps the edge detectors -/

theorem withPrev_self (t : Target) : t.withPrev t.rx.csPrev t.rx.wrPrev = t := rfl

theorem receive_csPrev {p : Params} (b : Bool) (t : Target) : (receive p b t).1.rx.csPrev = t.rx.csPrev := by
  have h := receive_withPrev (p := p) b t.rx.csPrev t.rx.wrPrev t
  rw [withPrev_self] at h
  exact congrArg (fun p => p.1.rx.csPrev) h

theorem receiveList_csPrev {p : Params} (f : List Bool) (t : Target) : (receiveList p f t).1.rx.csPrev = t.rx.csPrev := by
  induction f generalizing t with
  | nil => rfl
  | cons b f ih => rw [receiveList_cons, ih, receive_csPrev]

/-! ## One bus event with known levels -/

theorem onCs_known (b was : Bool) (s : State) (h : s.target.rx.csPrev = .ofBool was) :
    onCs b s =
      { s with
        target :=
          { s.target with
            rx :=
              { s.target.rx with
                st := if was && !b then .id [] else if !was && b then .idle else s.target.rx.st
                csPrev := .ofBool b } } } := by
  cases was <;> simp only [onCs, h, Level.ofBool, sense] <;> rfl

theorem onWr_fall (s : State) (was : Bool) (h : s.target.rx.wrPrev = .ofBool was) :
    onWr false s = { s with target := s.target.withPrev s.target.rx.csPrev .low } := by
  cases was <;> simp only [onWr, h, Level.ofBool, sense] <;> rfl

theorem sample_known (b : Bool) (s : State) (hc : s.line.cs = .low) (hd : s.line.data = .ofBool b) :
    sample s =
      { s with
        target := (receive s.params b s.target).1
        faults := noteFaults s.enc.op (receive s.params b s.target).2.toList s.faults } := by
  by_cases hi : s.target.rx.st = .idle
  · simp only [sample, hc, sense, hi, Bool.false_or, beq_self_eq_true, if_true, receive]
    rfl
  · have hi' : (s.target.rx.st == RxState.idle) = false := beq_false_of_ne hi
    cases b <;> simp only [sample, hc, hd, Level.ofBool, sense, hi', Bool.false_or, noteTarget_eq] <;> rfl

theorem onWr_rise (b : Bool) (s : State) (hw : s.target.rx.wrPrev = .low) (hc : s.line.cs = .low)
    (hd : s.line.data = .ofBool b) :
    onWr true s =
      { s with
        target := (receive s.params b s.target).1.withPrev s.target.rx.csPrev .high
        faults := noteFaults s.enc.op (receive s.params b s.target).2.toList s.faults } := by
  simp only [onWr, hw, sense, Bool.not_false, Bool.and_true, if_true, sample_known b s hc hd]
  rw [← receive_csPrev b s.target]
  rfl

theorem busSet_cs (b was : Bool) (s : State) (h : s.target.rx.csPrev = .ofBool was) :
    busSet .cs b s =
      { s with
        line := { s.line with cs := .ofBool b }
        target :=
          { s.target with
            rx :=
              { s.target.rx with
                st := if was && !b then .id [] else if !was && b then .idle else s.target.rx.st
                csPrev := .ofBool b } } } :=
  onCs_known b was { s with line := { s.line with cs := .ofBool b } } h

theorem busSet_wr_fall (s : State) (was : Bool) (h : s.target.rx.wrPrev = .ofBool was) :
    busSet .wr false s =
      { s with
        line := { s.line with wr := .low }
        target := s.target.withPrev s.target.rx.csPrev .low } :=
  onWr_fall { s with line := { s.line with wr := .low } } was h

theorem busSet_wr_rise (b : Bool) (s : State) (hw : s.target.rx.wrPrev = .low) (hc : s.line.cs = .low)
    (hd : s.line.data = .ofBool b) :
    busSet .wr true s =
      { s with
        line := { s.line with wr := .high }
        target := (receive s.params b s.target).1.withPrev s.target.rx.csPrev .high
        faults := noteFaults s.enc.op (receive s.params b s.target).2.toList s.faults } :=
  onWr_rise b { s with line := { s.line with wr := .high } } hw hc hd

/-! ## One bit cell -/

/-- What a bit cell leaves. -/
def afterCell (b : Bool) (d : Delay) (s : State) : State :=
  { s with
    line := { s.line with wr := .high, data := .ofBool b }
    enc := { s.enc with k := s.enc.k + 1, phase := .bitHigh }
    wave := s.wave ++ [.set .data b, .set .wr false, .wait .edge, .set .wr true, .wait d]
    target := (receive s.params b s.target).1.age.withPrev s.target.rx.csPrev .high
    faults := noteFaults s.enc.op (receive s.params b s.target).2.toList s.faults }

/-- The delay that ends the bit cell due now (R101). -/
def cellDelay (s : State) : Delay := if s.enc.k + 1 = s.enc.frame.length then .csh else .edge

theorem bitLow_eq (b : Bool) (s : State) (was : Bool) (hw : s.target.rx.wrPrev = .ofBool was) :
    bitLow b s =
      { s with
        line := { s.line with wr := .low, data := .ofBool b }
        enc := { s.enc with phase := .bitLow }
        wave := s.wave ++ [.set .data b, .set .wr false, .wait .edge]
        target := (s.target.withPrev s.target.rx.csPrev .low).age } := by
  have h : (drive .wr false (drive .data b (setPhase .bitLow s))) =
      { s with
        line := { s.line with wr := .low, data := .ofBool b }
        enc := { s.enc with phase := .bitLow }
        wave := s.wave ++ [.set .data b, .set .wr false]
        target := s.target.withPrev s.target.rx.csPrev .low } := by
    unfold drive
    refine (busSet_wr_fall _ was (by exact hw)).trans ?_
    simp only [record, busSet, setLine, setPhase, List.append_assoc, List.cons_append, List.nil_append]
  unfold bitLow
  rw [h]
  simp only [wait, record, List.append_assoc, List.cons_append, List.nil_append]

theorem withPrev_age (x y : Level) (t : Target) : t.age.withPrev x y = (t.withPrev x y).age := rfl

theorem withPrev_withPrev (x y x' y' : Level) (t : Target) :
    (t.withPrev x' y').withPrev x y = t.withPrev x y := rfl

theorem bitHigh_eq (b : Bool) (s : State) (t : Target)
    (ht : s.target = (t.withPrev t.rx.csPrev .low).age) (hc : s.line.cs = .low) (hd : s.line.data = .ofBool b) :
    bitHigh s =
      { s with
        line := { s.line with wr := .high }
        enc := { s.enc with k := s.enc.k + 1, phase := .bitHigh }
        wave := s.wave ++ [.set .wr true, .wait (cellDelay s)]
        target := (receive s.params b t).1.age.withPrev t.rx.csPrev .high
        faults := noteFaults s.enc.op (receive s.params b t).2.toList s.faults } := by
  have h : drive .wr true s =
      { s with
        line := { s.line with wr := .high }
        wave := s.wave ++ [.set .wr true]
        target := (receive s.params b s.target).1.withPrev t.rx.csPrev .high
        faults := noteFaults s.enc.op (receive s.params b s.target).2.toList s.faults } := by
    unfold drive
    refine (busSet_wr_rise b (record [.set .wr true] s) (by simp only [record, ht]; rfl) hc hd).trans ?_
    simp only [record, ht]
    rfl
  have e1 : ((receive s.params b s.target).1.withPrev t.rx.csPrev .high).age
      = (receive s.params b t).1.age.withPrev t.rx.csPrev .high := by
    rw [← withPrev_age, ht, receive_age_fst, receive_withPrev]; rfl
  have e2 : (receive s.params b s.target).2 = (receive s.params b t).2 := by
    rw [ht, receive_age_snd, receive_withPrev]
  unfold bitHigh
  simp only [h, setPhase, wait, record, e1, e2, List.append_assoc, List.cons_append, List.nil_append, cellDelay]

theorem ticks_add (m n : Nat) (s : State) : ticks (m + n) s = ticks n (ticks m s) := by
  induction m generalizing s with
  | zero => rw [Nat.zero_add]; rfl
  | succ m ih => rw [Nat.succ_add]; exact ih (tick s)

/-- Two micro steps send one bit. -/
theorem ticks_two (b : Bool) (s : State) (hp : s.enc.phase = .csSetup ∨ s.enc.phase = .bitHigh)
    (hk : s.enc.frame[s.enc.k]? = some b) (hc : s.line.cs = .low) (was : Bool)
    (hw : s.target.rx.wrPrev = .ofBool was) :
    ticks 2 s = afterCell b (cellDelay s) s := by
  have h1 : tick s = bitLow b s := by
    unfold tick
    rcases hp with hp | hp <;> rw [hp] <;> simp only [hk]
  have h2 : tick (bitLow b s) = bitHigh (bitLow b s) := by
    unfold tick
    rw [bitLow_eq b s was hw]
  show tick (tick s) = _
  rw [h1, h2, bitLow_eq b s was hw]
  refine (bitHigh_eq b _ s.target rfl (by exact hc) rfl).trans ?_
  simp only [afterCell, cellDelay, List.append_assoc, List.cons_append, List.nil_append]

/-! ## All bit cells -/

/-- What the bit cells of `f` leave. -/
def afterCells (f : List Bool) (s : State) : State :=
  { s with
    line := { s.line with wr := .high, data := dataAfter f s.line.data }
    enc := { s.enc with k := s.enc.k + f.length, phase := .bitHigh }
    wave := s.wave ++ cellsWave f
    target := (receiveList s.params f s.target).1.age.withPrev s.target.rx.csPrev .high
    faults := noteFaults s.enc.op (receiveList s.params f s.target).2 s.faults }

theorem dataAfter_cons (b : Bool) (f : List Bool) (l : Level) :
    dataAfter (b :: f) l = dataAfter f (.ofBool b) := by
  cases f with
  | nil => rfl
  | cons c f => simp only [dataAfter, List.getLast?_cons_cons]; rfl

theorem ticks_cells (f : List Bool) (hf : f ≠ []) (s : State)
    (hp : s.enc.phase = .csSetup ∨ s.enc.phase = .bitHigh) (hk : s.enc.frame.drop s.enc.k = f)
    (hc : s.line.cs = .low) (was : Bool) (hw : s.target.rx.wrPrev = .ofBool was) :
    ticks (2 * f.length) s = afterCells f s := by
  induction f generalizing s was with
  | nil => exact absurd rfl hf
  | cons b f ih =>
    have hb : s.enc.frame[s.enc.k]? = some b := by
      have := congrArg (fun l => l[0]?) hk
      simpa using this
    have hlen : s.enc.frame.length = s.enc.k + (f.length + 1) := by
      have h1 := congrArg List.length hk
      simp only [List.length_drop, List.length_cons] at h1
      omega
    have hdrop : s.enc.frame.drop (s.enc.k + 1) = f := by
      rw [← List.drop_drop, hk]; rfl
    rw [List.length_cons, Nat.mul_succ, Nat.add_comm, ticks_add, ticks_two b s hp hb hc was hw]
    cases f with
    | nil =>
      have hd : cellDelay s = .csh := by simp only [cellDelay, hlen, List.length_nil]; rfl
      rw [hd]
      simp only [List.length_nil, Nat.mul_zero, ticks, afterCell, afterCells, receiveList_cons, receiveList_nil,
        cellsWave, List.append_nil, List.length_cons, dataAfter, List.getLast?_singleton]
    | cons c f =>
      have hd : cellDelay s = .edge := by
        simp only [cellDelay, hlen, List.length_cons]
        rw [if_neg (by omega)]
      rw [hd, ih (by simp) (afterCell b .edge s) (Or.inr rfl) hdrop hc true rfl]
      have e : receiveList (afterCell b .edge s).params (c :: f) (afterCell b .edge s).target =
          ((receiveList s.params (c :: f) (receive s.params b s.target).1.age).1.withPrev s.target.rx.csPrev .high,
            (receiveList s.params (c :: f) (receive s.params b s.target).1.age).2) := receiveList_withPrev ..
      have e1 : ((receiveList s.params (c :: f) (receive s.params b s.target).1.age).1.withPrev s.target.rx.csPrev .high).age =
          (receiveList s.params (c :: f) (receive s.params b s.target).1).1.age.withPrev s.target.rx.csPrev .high := by
        rw [← withPrev_age, receiveList_age_fst]
      unfold afterCells
      rw [e, dataAfter_cons b (c :: f)]
      simp only [e1, receiveList_age_snd, receiveList_cons b (c :: f), noteFaults_append]
      simp only [afterCell, cellsWave, List.append_assoc, List.cons_append, List.nil_append,
        List.length_cons, Nat.add_assoc, Nat.add_comm 1, withPrev_withPrev]
      rfl

/-! ## SendFrame -/

/-- The TARGET when a window has opened (R109). -/
def Target.opened (t : Target) : Target := { t with rx := { t.rx with st := .id [], csPrev := .low } }

theorem closed_withPrev (x y : Level) (t : Target) : (t.withPrev x y).closed = t.closed := rfl
theorem closed_age (t : Target) : t.age.closed = t.closed := rfl
theorem closed_closed (t : Target) : t.closed.closed = t.closed := rfl

/-- A frame sent by the ENCODER from idle lines: the TARGET receives exactly its bits, and everything else is as
`sentState` says. -/
theorem sendFrame_eq (f : Frame) (hf : f ≠ []) (s : State) (q : Quiet s) :
    sendFrame f s =
      sentState f
        { s with
          target := (receiveList s.params f s.target.opened).1
          faults := noteFaults s.enc.op (receiveList s.params f s.target.opened).2 s.faults } := by
  have hstart : startFrame f s =
      { s with
        line := { s.line with cs := .low }
        enc := { s.enc with frame := f, k := 0, phase := .csSetup }
        wave := s.wave ++ [.set .cs false, .wait .css]
        target := s.target.opened.age } := by
    unfold startFrame drive
    rw [busSet_cs false true (record _ _) (by exact q.csSeen)]
    simp only [wait, record, List.append_assoc, List.cons_append, List.nil_append]
    rfl
  have hcells := ticks_cells f hf (startFrame f s) (by rw [hstart]; exact Or.inl rfl)
    (by rw [hstart]; rfl) (by rw [hstart]) true (by rw [hstart]; exact q.wrSeen)
  unfold sendFrame
  rw [ticks_add, hcells, hstart]
  have e0 : (receiveList s.params f s.target.opened.age).2 = (receiveList s.params f s.target.opened).2 := receiveList_age_snd ..
  have e1 : (receiveList s.params f s.target.opened.age).1.age = (receiveList s.params f s.target.opened).1.age :=
    receiveList_age_fst ..
  simp only [afterCells, e0, e1, Nat.zero_add]
  show tick (tick (tick _)) = _
  have hcs : ∀ u : State, u.enc.phase = .bitHigh → u.enc.frame = f → u.enc.k = f.length →
      u.target.rx.csPrev = .low →
      tick (tick (tick u)) =
        { u with
          line := { u.line with cs := .high }
          enc := { u.enc with frame := [], phase := .idle }
          wave := u.wave ++ [.set .cs true, .wait .gap]
          target := ({ u.target with rx := { u.target.rx with st := .idle, csPrev := .high } } : Target).age } := by
    intro u hp hfr hk hcp
    have h1 : tick u =
        { u with
          line := { u.line with cs := .high }
          enc := { u.enc with phase := .csHold }
          wave := u.wave ++ [.set .cs true]
          target := { u.target with rx := { u.target.rx with st := .idle, csPrev := .high } } } := by
      have hn : u.enc.frame[u.enc.k]? = none := by rw [hfr, hk]; simp
      unfold tick
      rw [hp]
      simp only [hn]
      unfold drive
      refine (busSet_cs true false _ (by exact hcp)).trans ?_
      rfl
    rw [h1]
    show tick (wait .gap (setPhase .gap _)) = _
    simp only [tick, wait, setPhase, record, List.append_assoc, List.cons_append, List.nil_append]
  rw [hcs _ rfl rfl rfl rfl]
  have hwave : s.wave ++ [WaveEvent.set .cs false, .wait .css] ++ cellsWave f ++ [.set .cs true, .wait .gap]
      = s.wave ++ frameWave f := by
    simp [frameWave, lowWave]
  simp only [hwave]
  rfl

/-! ## A window of another agent -/

theorem foreignBit_eq (b : Bool) (s : State) (hc : s.line.cs = .low) (was : Bool)
    (hw : s.target.rx.wrPrev = .ofBool was) :
    foreignBit b s =
      { s with
        line := { s.line with wr := .high, data := .ofBool b }
        target := (receive s.params b s.target).1.withPrev s.target.rx.csPrev .high
        faults := noteFaults s.enc.op (receive s.params b s.target).2.toList s.faults } := by
  have h1 : busSet .wr false (busSet .data b s) =
      { s with
        line := { s.line with wr := .low, data := .ofBool b }
        target := s.target.withPrev s.target.rx.csPrev .low } := by
    exact busSet_wr_fall (busSet .data b s) was hw
  unfold foreignBit
  rw [h1]
  refine (busSet_wr_rise b _ rfl (by exact hc) rfl).trans ?_
  simp only [receive_withPrev, withPrev_withPrev]
  rfl

theorem foreignBits_eq (f : List Bool) (hf : f ≠ []) (s : State) (hc : s.line.cs = .low) (was : Bool)
    (hw : s.target.rx.wrPrev = .ofBool was) :
    f.foldl (fun s b => foreignBit b s) s =
      { s with
        line := { s.line with wr := .high, data := dataAfter f s.line.data }
        target := (receiveList s.params f s.target).1.withPrev s.target.rx.csPrev .high
        faults := noteFaults s.enc.op (receiveList s.params f s.target).2 s.faults } := by
  induction f generalizing s was with
  | nil => exact absurd rfl hf
  | cons b f ih =>
    rw [List.foldl_cons, foreignBit_eq b s hc was hw]
    cases f with
    | nil =>
      simp only [List.foldl_nil, receiveList_cons, receiveList_nil, List.append_nil, dataAfter,
        List.getLast?_singleton]
    | cons c f =>
      refine (ih (by simp) _ (by exact hc) true rfl).trans ?_
      rw [dataAfter_cons b (c :: f)]
      simp only [receiveList_withPrev, receiveList_cons b (c :: f), noteFaults_append, withPrev_withPrev]
      rfl

/-- A window of another agent from idle lines: the TARGET receives exactly its bits. -/
theorem window_eq (f : Frame) (hf : f ≠ []) (s : State) (q : Quiet s) :
    window f s =
      windowState f
        { s with
          target := (receiveList s.params f s.target.opened).1
          faults := noteFaults s.enc.op (receiveList s.params f s.target.opened).2 s.faults } := by
  have hstart : busSet .cs false s =
      { s with line := { s.line with cs := .low }, target := s.target.opened } := by
    exact busSet_cs false true s q.csSeen
  have hbits := foreignBits_eq f hf { s with line := { s.line with cs := .low }, target := s.target.opened } rfl true
    q.wrSeen
  unfold window
  rw [hstart, hbits]
  simp only []
  rw [busSet_cs true false _ rfl]
  rfl

end Sys2Proof.Machine
end

