-- ==== Sys2Proof/Laws/Frames.lean ====
section
/-! SUPPORT. What the receiver makes of the fields of a frame (41_command_frames R121, 42_write_frames R160 to R162), up to whole
command and write frames. -/

namespace Sys2Proof.Machine

theorem setSt_self {t : Target} {st : RxState} (h : t.rx.st = st) : t.setSt st = t := by
  subst h; rfl

theorem setSt_setSt (t : Target) (st st' : RxState) : (t.setSt st).setSt st' = t.setSt st' := rfl

/-- Executing a command does not depend on where the receiver stands. -/
theorem execute_setSt {p : Params} (c : Code) (st : RxState) (t : Target) : execute p c (t.setSt st) = execute p c t := by
  rw [execute_eq, execute_eq]
  cases p.codes.lookup c with
  | none => rfl
  | some n =>
    have h := fun st' => perform_setSt p.meanings c n st' st t
    have h2 : (perform p.meanings c (t.setSt st) n).2 = (perform p.meanings c t n).2 := (Prod.mk.inj (h .discard)).2
    simp only [h2]
    exact Prod.ext (Prod.mk.inj (h _)).1 rfl

/-- A receiver that discards ignores everything until CS rises (R231). -/
theorem receiveList_discard {p : Params} (f : List Bool) (t : Target) (h : t.rx.st = .discard) : receiveList p f t = (t, []) := by
  induction f with
  | nil => rfl
  | cons b f ih =>
    have hr : receive p b t = (t, none) := by unfold receive; rw [h]
    rw [receiveList_cons, hr, ih]; rfl

/-! ## The flag (R71, R160) -/

theorem receiveList_commandFlag {p : Params} (t : Target) : receiveList p commandFlag t.opened = (t.opened.setSt (.cmd []), []) := rfl

theorem receiveList_writeFlag {p : Params} (t : Target) : receiveList p writeFlag t.opened = (t.opened.setSt (.addr []), []) := rfl

/-- The first two bits of a window are only kept. -/
theorem receiveList_id_short {p : Params} (f : List Bool) (hf : f.length < 3) (t : Target) :
    receiveList p f t.opened = (t.opened.setSt (.id f), []) := by
  match f, hf with
  | [], _ => rfl
  | [a], _ => rfl
  | [a, b], _ => rfl

/-- A reserved flag (R71, R236). -/
theorem receiveList_badFlag {p : Params} (fl : List Bool) (hl : fl.length = 3) (h1 : fl ≠ commandFlag) (h2 : fl ≠ writeFlag)
    (t : Target) : receiveList p fl t.opened = (t.opened.setSt .discard, [.unknownFrameId fl]) := by
  match fl, hl with
  | [a, b, c], _ =>
    cases a <;> cases b <;> cases c <;> first | rfl | exact absurd rfl h1 | exact absurd rfl h2

/-! ## The command field (R121) -/

theorem receive_cmd_more {p : Params} (b : Bool) (bs : List Bool) (t : Target) (h : t.rx.st = .cmd bs) (hl : bs.length + 1 < 9) :
    receive p b t = (t.setSt (.cmd (bs ++ [b])), none) := by
  unfold receive
  rw [h]
  simp only [List.length_append, List.length_singleton, hl, if_true]

theorem receive_cmd_last {p : Params} (b : Bool) (bs : List Bool) (t : Target) (h : t.rx.st = .cmd bs) (hl : bs.length = 8) :
    receive p b t = execute p (BitVec.ofNat 9 (valueOf (bs ++ [b]))) t := by
  unfold receive
  rw [h]
  simp only [List.length_append, List.length_singleton, hl, Nat.reduceAdd, Nat.lt_irrefl, if_false]

/-- Fewer than nine command bits are only kept. -/
theorem receiveList_cmd_short {p : Params} (f pre : List Bool) (t : Target) (h : t.rx.st = .cmd pre)
    (hl : pre.length + f.length < 9) : receiveList p f t = (t.setSt (.cmd (pre ++ f)), []) := by
  induction f generalizing pre t with
  | nil => rw [List.append_nil, setSt_self h]; rfl
  | cons b f ih =>
    rw [List.length_cons] at hl
    rw [receiveList_cons, receive_cmd_more b pre t h (by omega),
      ih (pre ++ [b]) (t.setSt (.cmd (pre ++ [b]))) rfl (by rw [List.length_append, List.length_singleton]; omega),
      List.append_assoc]
    rfl

/-- The ninth bit executes the command. -/
theorem receiveList_cmd {p : Params} (f pre : List Bool) (t : Target) (h : t.rx.st = .cmd pre) (hf : f ≠ [])
    (hl : pre.length + f.length = 9) :
    receiveList p f t =
      ((execute p (BitVec.ofNat 9 (valueOf (pre ++ f))) t).1,
        (execute p (BitVec.ofNat 9 (valueOf (pre ++ f))) t).2.toList) := by
  induction f generalizing pre t with
  | nil => exact absurd rfl hf
  | cons b f ih =>
    rw [List.length_cons] at hl
    cases f with
    | nil =>
      rw [List.length_nil] at hl
      rw [receiveList_cons, receive_cmd_last b pre t h (by omega)]
      simp only [receiveList_nil, List.append_nil]
    | cons c f =>
      rw [List.length_cons] at hl
      rw [receiveList_cons, receive_cmd_more b pre t h (by omega),
        ih (pre ++ [b]) (t.setSt (.cmd (pre ++ [b]))) rfl (by simp)
          (by rw [List.length_append, List.length_singleton, List.length_cons]; omega),
        execute_setSt, List.append_assoc]
      rfl

/-- A whole command frame executes its code (R120, R121). -/
theorem receiveList_commandFrame {p : Params} (c : Code) (t : Target) :
    receiveList p (commandFrame c) t.opened = ((execute p c t.opened).1, (execute p c t.opened).2.toList) := by
  rw [commandFrame, receiveList_append, receiveList_commandFlag,
    receiveList_cmd (bitsOf 9 c.toNat) [] (t.opened.setSt (.cmd [])) rfl
      (by intro h; have := congrArg List.length h; rw [bitsOf_length] at this; cases this)
      (by rw [bitsOf_length]; rfl),
    List.nil_append, ofNat_valueOf_bitsOf, execute_setSt]
  rfl

/-- A bit after the ninth: one fault, then all is discarded (R239). -/
theorem receiveList_overrun {p : Params} (b : Bool) (f : List Bool) (t : Target) (h : t.rx.st = .cmdDone) :
    receiveList p (b :: f) t = (t.setSt .discard, [.frameOverrun]) := by
  have hr : receive p b t = (t.setSt .discard, some .frameOverrun) := by unfold receive; rw [h]
  rw [receiveList_cons, hr, receiveList_discard f (t.setSt .discard) rfl]
  rfl

/-! ## The address field (R160) -/

/-- The TARGET with its write pointer set, ready for data. -/
def Target.pointAt (p : Nat) (t : Target) : Target := { t with rx := { t.rx with ptr := p, st := .data [] } }

theorem receive_addr_more {p : Params} (b : Bool) (bs : List Bool) (t : Target) (h : t.rx.st = .addr bs)
    (hl : bs.length + 1 < 6) : receive p b t = (t.setSt (.addr (bs ++ [b])), none) := by
  unfold receive
  rw [h]
  simp only [List.length_append, List.length_singleton, hl, if_true]

theorem receive_addr_last {p : Params} (b : Bool) (bs : List Bool) (t : Target) (h : t.rx.st = .addr bs) (hl : bs.length = 5) :
    receive p b t = (t.pointAt (valueOf (bs ++ [b])), none) := by
  unfold receive
  rw [h]
  simp only [List.length_append, List.length_singleton, hl, Nat.reduceAdd, Nat.lt_irrefl, if_false]
  rfl

/-- Fewer than six address bits are only kept. -/
theorem receiveList_addr_short {p : Params} (f pre : List Bool) (t : Target) (h : t.rx.st = .addr pre)
    (hl : pre.length + f.length < 6) : receiveList p f t = (t.setSt (.addr (pre ++ f)), []) := by
  induction f generalizing pre t with
  | nil => rw [List.append_nil, setSt_self h]; rfl
  | cons b f ih =>
    rw [List.length_cons] at hl
    rw [receiveList_cons, receive_addr_more b pre t h (by omega),
      ih (pre ++ [b]) (t.setSt (.addr (pre ++ [b]))) rfl (by rw [List.length_append, List.length_singleton]; omega),
      List.append_assoc]
    rfl

/-- The sixth bit sets the pointer. -/
theorem receiveList_addr {p : Params} (f pre : List Bool) (t : Target) (h : t.rx.st = .addr pre) (hf : f ≠ [])
    (hl : pre.length + f.length = 6) : receiveList p f t = (t.pointAt (valueOf (pre ++ f)), []) := by
  induction f generalizing pre t with
  | nil => exact absurd rfl hf
  | cons b f ih =>
    rw [List.length_cons] at hl
    cases f with
    | nil =>
      rw [List.length_nil] at hl
      rw [receiveList_cons, receive_addr_last b pre t h (by omega)]
      rfl
    | cons c f =>
      rw [List.length_cons] at hl
      rw [receiveList_cons, receive_addr_more b pre t h (by omega),
        ih (pre ++ [b]) (t.setSt (.addr (pre ++ [b]))) rfl (by simp)
          (by rw [List.length_append, List.length_singleton, List.length_cons]; omega),
        List.append_assoc]
      rfl

/-- The flag and the address of a write frame (R160). -/
theorem receiveList_writeHead {p : Params} (a : Addr) (t : Target) :
    receiveList p (writeFlag ++ bitsOf 6 a.toNat) t.opened = (t.opened.pointAt a.toNat, []) := by
  have hv : valueOf (bitsOf 6 a.toNat) = a.toNat := by rw [valueOf_bitsOf, Nat.mod_eq_of_lt a.isLt]
  rw [receiveList_append, receiveList_writeFlag,
    receiveList_addr (bitsOf 6 a.toNat) [] (t.opened.setSt (.addr [])) rfl
      (by intro h; have := congrArg List.length h; rw [bitsOf_length] at this; cases this)
      (by rw [bitsOf_length]; rfl),
    List.nil_append, hv]
  rfl

/-! ## The data (R162) -/

/-- The four bits of one nibble store it. -/
theorem receiveList_nibble {p : Params} (d : Nibble) (t : Target) (h : t.rx.st = .data []) :
    receiveList p (bitsOf 4 d.toNat) t = ((storeNibble d t).1, (storeNibble d t).2.toList) := by
  have hv := ofNat_valueOf_bitsOf d
  have hb : bitsOf 4 d.toNat = [d.toNat.testBit 3, d.toNat.testBit 2, d.toNat.testBit 1, d.toNat.testBit 0] := rfl
  have hs : ∀ st, storeNibble d (t.setSt st) = storeNibble d t := by
    intro st
    unfold storeNibble
    by_cases hp : t.rx.ptr < Config.nRam
    · simp only [setSt_rx, hp, if_true]; rfl
    · simp only [setSt_rx, hp, if_false]; rfl
  rw [hb] at hv ⊢
  generalize d.toNat.testBit 3 = b3 at *
  generalize d.toNat.testBit 2 = b2 at *
  generalize d.toNat.testBit 1 = b1 at *
  generalize d.toNat.testBit 0 = b0 at *
  have r1 : receive p b3 t = (t.setSt (.data [b3]), none) := by unfold receive; rw [h]; rfl
  have r2 : receive p b2 (t.setSt (.data [b3])) = (t.setSt (.data [b3, b2]), none) := rfl
  have r3 : receive p b1 (t.setSt (.data [b3, b2])) = (t.setSt (.data [b3, b2, b1]), none) := rfl
  have r4 : receive p b0 (t.setSt (.data [b3, b2, b1])) = storeNibble d t := by
    rw [← hs (.data [b3, b2, b1])]
    show storeNibble (BitVec.ofNat 4 (valueOf [b3, b2, b1, b0])) _ = _
    rw [hv]
  simp only [receiveList_cons, r1, r2, r3, r4, receiveList_nil, Option.toList_none, List.nil_append, List.append_nil]

/-- Up to three bits of a nibble are only kept (R167). -/
theorem receiveList_partial {p : Params} (f : List Bool) (hf : f.length < 4) (t : Target) (h : t.rx.st = .data []) :
    receiveList p f t = (t.setSt (.data f), []) := by
  have r1 : ∀ b, receive p b t = (t.setSt (.data [b]), none) := by intro b; unfold receive; rw [h]; rfl
  match f, hf with
  | [], _ => rw [setSt_self h]; rfl
  | [a], _ => rw [receiveList_cons, r1]; rfl
  | [a, b], _ => rw [receiveList_cons, r1]; rfl
  | [a, b, c], _ => rw [receiveList_cons, r1]; rfl

/-- The TARGET after the nibbles `ds` from cell `p` on (R162, R165). -/
def Target.stored (p : Nat) (ds : List Nibble) (t : Target) : Target :=
  { t with ram := t.ram.putAll p ds, rx := { t.rx with ptr := p + ds.length, st := .data [] } }

/-- Nibbles that fit are all stored. -/
theorem receiveList_nibbles {p : Params} (ds : List Nibble) (t : Target) (h : t.rx.st = .data [])
    (hp : t.rx.ptr + ds.length ≤ Config.nRam) :
    receiveList p (ds.flatMap (fun d => bitsOf 4 d.toNat)) t = (t.stored t.rx.ptr ds, []) := by
  induction ds generalizing t with
  | nil =>
    have e : t.stored t.rx.ptr [] = t.setSt (.data []) := rfl
    rw [e, setSt_self h]; rfl
  | cons d ds ih =>
    rw [List.length_cons] at hp
    have hs : storeNibble d t = (t.stored t.rx.ptr [d], none) := by
      unfold storeNibble
      rw [if_pos (by omega)]
      rfl
    rw [List.flatMap_cons, receiveList_append, receiveList_nibble d t h, hs,
      ih (t.stored t.rx.ptr [d]) rfl (show t.rx.ptr + 1 + ds.length ≤ _ by omega)]
    simp only [Option.toList_none, List.nil_append, Target.stored, Memory.putAll, List.length_cons, List.length_nil]
    rw [show t.rx.ptr + (0 + 1) + ds.length = t.rx.ptr + (ds.length + 1) by omega]

/-- A nibble past cell 31 is a fault, and the rest of the window is discarded (R168). -/
theorem receiveList_overflow {p : Params} (d : Nibble) (f : List Bool) (t : Target) (h : t.rx.st = .data [])
    (hp : Config.nRam ≤ t.rx.ptr) :
    receiveList p (bitsOf 4 d.toNat ++ f) t = (t.setSt .discard, [.addressOverflow t.rx.ptr]) := by
  have hs : storeNibble d t = (t.setSt .discard, some (.addressOverflow t.rx.ptr)) := by
    unfold storeNibble
    rw [if_neg (by omega)]
  rw [receiveList_append, receiveList_nibble d t h, hs, receiveList_discard f (t.setSt .discard) rfl]
  rfl

/-- A whole write frame that fits (R164, R165). -/
theorem receiveList_writeFrame {p : Params} (a : Addr) (ds : List Nibble) (t : Target)
    (h : a.toNat + ds.length ≤ Config.nRam) :
    receiveList p (writeFrame a ds) t.opened = (t.opened.stored a.toNat ds, []) := by
  rw [writeFrame, receiveList_append, receiveList_writeHead, receiveList_nibbles ds (t.opened.pointAt a.toNat) rfl h]
  rfl

end Sys2Proof.Machine
end

