-- ==== Sys2Proof/Laws/Bus.lean ====
section
/-! SUPPORT. What any activity on the wire keeps, from any state: one lemma for each operation of the receiver and the
sequencer. -/

namespace Sys2Proof.Machine

/-- What bits on the wire never change, and what they only add to. -/
structure WireKeeps (s t : State) : Prop where
  params : t.params = s.params
  driver : t.driver = s.driver
  inbox : t.inbox = s.inbox
  result : t.result = s.result
  op : t.enc.op = s.enc.op
  status : t.enc.status = s.enc.status
  todo : t.enc.todo = s.enc.todo
  wave : s.wave <+: t.wave
  memory : s.target.ram.wf → t.target.ram.wf
  mode : s.target.cfg.mode = .normal → t.target.cfg.mode = .normal
  faults : ∀ r ∈ s.faults, r ∈ t.faults
  faultsOnce : s.faults.Nodup → t.faults.Nodup

theorem WireKeeps.rfl' (s : State) : WireKeeps s s :=
  ⟨rfl, rfl, rfl, rfl, rfl, rfl, rfl, List.prefix_rfl, id, id, fun _ => id, id⟩

theorem WireKeeps.trans {s t u : State} (h : WireKeeps s t) (k : WireKeeps t u) : WireKeeps s u :=
  ⟨k.params.trans h.params, k.driver.trans h.driver, k.inbox.trans h.inbox, k.result.trans h.result, k.op.trans h.op, k.status.trans h.status,
    k.todo.trans h.todo, h.wave.trans k.wave, k.memory ∘ h.memory, k.mode ∘ h.mode,
    fun r hr => k.faults r (h.faults r hr), k.faultsOnce ∘ h.faultsOnce⟩

/-! ## The fault set -/

theorem mem_addFault {r q : FaultRecord} {fs : List FaultRecord} : q ∈ addFault r fs ↔ q = r ∨ q ∈ fs := by
  unfold addFault
  split_ifs with h
  · exact ⟨Or.inr, fun h' => h'.elim (fun e => e ▸ h) id⟩
  · rw [List.mem_append, List.mem_singleton, or_comm]

theorem nodup_addFault (r : FaultRecord) {fs : List FaultRecord} (h : fs.Nodup) : (addFault r fs).Nodup := by
  unfold addFault
  split_ifs with hr
  · exact h
  · exact List.nodup_append.mpr
      ⟨h, List.nodup_singleton r, fun a ha b hb => by rw [List.mem_singleton.mp hb]; rintro rfl; exact hr ha⟩

/-- A record already in the set is not added again (R25). -/
theorem addFault_of_mem {r : FaultRecord} {fs : List FaultRecord} (h : r ∈ fs) : addFault r fs = fs := if_pos h

theorem noteFaults_keeps (op : Option HostOp) (ks : List BlockFault) (fs : List FaultRecord) :
    (∀ r ∈ fs, r ∈ noteFaults op ks fs) ∧ (fs.Nodup → (noteFaults op ks fs).Nodup) := by
  induction ks generalizing fs with
  | nil => exact ⟨fun _ => id, id⟩
  | cons k ks ih =>
    have := ih (addFault ⟨k, .target, op⟩ fs)
    exact ⟨fun r hr => this.1 r (mem_addFault.mpr (Or.inr hr)), fun h => this.2 (nodup_addFault _ h)⟩

/-! ## The receiver -/

theorem perform_ram (m : Meanings) (c : Code) (t : Target) (n : Command) : (perform m c t n).1.ram = t.ram := by
  cases n <;> rfl

theorem perform_ptr (m : Meanings) (c : Code) (t : Target) (n : Command) : (perform m c t n).1.rx.ptr = t.rx.ptr := by
  cases n <;> rfl

theorem perform_mode (m : Meanings) (c : Code) (t : Target) (n : Command) (h : t.cfg.mode = .normal) :
    (perform m c t n).1.cfg.mode = .normal := by
  cases n <;> first | exact h | rfl

theorem execute_ram {p : Params} (c : Code) (t : Target) : (execute p c t).1.ram = t.ram := by
  rw [execute_eq]
  cases p.codes.lookup c with
  | none => rfl
  | some n => exact perform_ram p.meanings c t n

/-- One received bit changes at most one cell, the one at the pointer, by a whole nibble (R55). -/
theorem receive_ram {p : Params} (b : Bool) (t : Target) :
    (receive p b t).1.ram = t.ram ∨
      t.rx.ptr < Config.nRam ∧ ∃ v, (receive p b t).1.ram = t.ram.put t.rx.ptr v := by
  unfold receive
  cases t.rx.st with
  | idle => exact Or.inl rfl
  | discard => exact Or.inl rfl
  | cmdDone => exact Or.inl rfl
  | id bs => left; simp only []; split_ifs <;> rfl
  | cmd bs => left; simp only []; split_ifs <;> [rfl; exact execute_ram ..]
  | addr bs => left; simp only []; split_ifs <;> rfl
  | data bs =>
    simp only []
    split_ifs with h
    · exact Or.inl rfl
    · unfold storeNibble
      split_ifs with hp
      · exact Or.inr ⟨hp, _, rfl⟩
      · exact Or.inl rfl

theorem receive_wf {p : Params} (b : Bool) (t : Target) (h : t.ram.wf) : (receive p b t).1.ram.wf := by
  rcases receive_ram b t with e | ⟨hp, v, e⟩
  · rw [e]; exact h
  · rw [e]; exact put_wf v hp h

theorem execute_mode {p : Params} (c : Code) (t : Target) (h : t.cfg.mode = .normal) : (execute p c t).1.cfg.mode = .normal := by
  rw [execute_eq]
  cases p.codes.lookup c with
  | none => exact h
  | some n => exact perform_mode p.meanings c t n h

theorem receive_mode {p : Params} (b : Bool) (t : Target) (h : t.cfg.mode = .normal) : (receive p b t).1.cfg.mode = .normal := by
  unfold receive
  cases t.rx.st with
  | idle => exact h
  | discard => exact h
  | cmdDone => exact h
  | id bs => simp only []; split_ifs <;> exact h
  | cmd bs => simp only []; split_ifs <;> [exact h; exact execute_mode _ _ h]
  | addr bs => simp only []; split_ifs <;> exact h
  | data bs =>
    simp only []
    split_ifs with h'
    · exact h
    · unfold storeNibble
      split_ifs <;> exact h

/-! ## The lines -/

theorem sense_snd (l : Level) (s : State) : ∃ d, (sense l s).2 = { s with draws := d } := by
  cases l
  · exact ⟨s.draws, rfl⟩
  · exact ⟨s.draws, rfl⟩
  · exact ⟨s.draws + 1, rfl⟩

theorem WireKeeps.draws (d : Nat) (s : State) : WireKeeps s { s with draws := d } :=
  ⟨rfl, rfl, rfl, rfl, rfl, rfl, rfl, List.prefix_rfl, id, id, fun _ => id, id⟩

theorem sense_keeps (l : Level) (s : State) : WireKeeps s (sense l s).2 := by
  obtain ⟨d, e⟩ := sense_snd l s
  rw [e]; exact .draws d s

theorem receiveStep_keeps (b : Bool) (s : State) :
    WireKeeps s (noteTarget (receive s.params b s.target).2.toList { s with target := (receive s.params b s.target).1 }) := by
  rw [noteTarget_eq]
  have hn := noteFaults_keeps s.enc.op (receive s.params b s.target).2.toList s.faults
  exact ⟨rfl, rfl, rfl, rfl, rfl, rfl, rfl, List.prefix_rfl, receive_wf b s.target, receive_mode b s.target, hn.1, hn.2⟩

theorem sample_keeps (s : State) : WireKeeps s (sample s) := by
  have h1 := sense_keeps s.line.cs s
  unfold sample
  rcases hs : sense s.line.cs s with ⟨cs, u⟩
  rw [hs] at h1
  simp only
  split_ifs
  · exact h1
  · have h2 := sense_keeps u.line.data u
    rcases hd : sense u.line.data u with ⟨b, v⟩
    rw [hd] at h2
    exact (h1.trans h2).trans (receiveStep_keeps b v)

/-- The receiver's own state is the only thing changed. -/
theorem WireKeeps.rx (s : State) (rx : Receiver) : WireKeeps s { s with target := { s.target with rx := rx } } :=
  ⟨rfl, rfl, rfl, rfl, rfl, rfl, rfl, List.prefix_rfl, id, id, fun _ => id, id⟩

theorem onCs_keeps (b : Bool) (s : State) : WireKeeps s (onCs b s) := by
  have h1 := sense_keeps s.target.rx.csPrev s
  unfold onCs
  rcases hs : sense s.target.rx.csPrev s with ⟨was, u⟩
  rw [hs] at h1
  exact h1.trans (.rx u _)

theorem onWr_keeps (b : Bool) (s : State) : WireKeeps s (onWr b s) := by
  have h1 := sense_keeps s.target.rx.wrPrev s
  unfold onWr
  rcases hs : sense s.target.rx.wrPrev s with ⟨was, u⟩
  rw [hs] at h1
  simp only
  split_ifs
  · exact (h1.trans (sample_keeps u)).trans (.rx _ _)
  · exact h1.trans (.rx _ _)

theorem WireKeeps.line (s : State) (ls : Lines Level) : WireKeeps s { s with line := ls } :=
  ⟨rfl, rfl, rfl, rfl, rfl, rfl, rfl, List.prefix_rfl, id, id, fun _ => id, id⟩

theorem busSet_keeps (l : Line) (b : Bool) (s : State) : WireKeeps s (busSet l b s) := by
  have h := WireKeeps.line s (setLine l (.ofBool b) s.line)
  cases l
  · exact h.trans (onCs_keeps b _)
  · exact h
  · exact h.trans (onWr_keeps b _)
  · exact h

theorem record_keeps (es : List WaveEvent) (s : State) : WireKeeps s (record es s) :=
  ⟨rfl, rfl, rfl, rfl, rfl, rfl, rfl, List.prefix_append .., id, id, fun _ => id, id⟩

theorem drive_keeps (l : Line) (b : Bool) (s : State) : WireKeeps s (drive l b s) :=
  (record_keeps _ s).trans (busSet_keeps l b _)

theorem age_keeps (s : State) : WireKeeps s { s with target := s.target.age } :=
  ⟨rfl, rfl, rfl, rfl, rfl, rfl, rfl, List.prefix_rfl, id, id, fun _ => id, id⟩

theorem wait_keeps (d : Delay) (s : State) : WireKeeps s (wait d s) := (record_keeps _ s).trans (age_keeps _)

/-! ## The sequencer -/

theorem WireKeeps.position (s : State) (f : Frame) (k : Nat) (p : Phase) :
    WireKeeps s { s with enc := { s.enc with frame := f, k := k, phase := p } } :=
  ⟨rfl, rfl, rfl, rfl, rfl, rfl, rfl, List.prefix_rfl, id, id, fun _ => id, id⟩

theorem setPhase_keeps (p : Phase) (s : State) : WireKeeps s (setPhase p s) := .position s s.enc.frame s.enc.k p

theorem startFrame_keeps (f : Frame) (s : State) : WireKeeps s (startFrame f s) :=
  ((WireKeeps.position s f 0 .csSetup).trans (drive_keeps ..)).trans (wait_keeps ..)

theorem bitLow_keeps (b : Bool) (s : State) : WireKeeps s (bitLow b s) :=
  (((setPhase_keeps ..).trans (drive_keeps ..)).trans (drive_keeps ..)).trans (wait_keeps ..)

theorem bitHigh_keeps (s : State) : WireKeeps s (bitHigh s) := by
  have h := (drive_keeps .wr true s).trans (setPhase_keeps .bitHigh _)
  unfold bitHigh
  exact (h.trans (wait_keeps ..)).trans (.position _ _ _ _)

theorem tick_keeps (s : State) : WireKeeps s (tick s) := by
  unfold tick
  cases s.enc.phase with
  | idle => exact .rfl' s
  | csSetup =>
    cases s.enc.frame[s.enc.k]? with
    | none => exact (setPhase_keeps ..).trans (drive_keeps ..)
    | some b => exact bitLow_keeps b s
  | bitHigh =>
    cases s.enc.frame[s.enc.k]? with
    | none => exact (setPhase_keeps ..).trans (drive_keeps ..)
    | some b => exact bitLow_keeps b s
  | bitLow => exact bitHigh_keeps s
  | csHold => exact (setPhase_keeps ..).trans (wait_keeps ..)
  | gap => exact .position s _ _ _

theorem ticks_keeps (n : Nat) (s : State) : WireKeeps s (ticks n s) := by
  induction n generalizing s with
  | zero => exact .rfl' s
  | succ n ih => exact (tick_keeps s).trans (ih (tick s))

theorem sendFrame_keeps (f : Frame) (s : State) : WireKeeps s (sendFrame f s) :=
  (startFrame_keeps f s).trans (ticks_keeps ..)

theorem foreignEdge_keeps (l : Line) (b : Bool) (s : State) : WireKeeps s (foreignEdge l b s) :=
  (busSet_keeps l b s).trans (age_keeps _)

theorem foreignBit_keeps (b : Bool) (s : State) : WireKeeps s (foreignBit b s) :=
  ((busSet_keeps ..).trans (busSet_keeps ..)).trans (busSet_keeps ..)

theorem window_keeps (f : Frame) (s : State) : WireKeeps s (window f s) := by
  have hb : ∀ (f : Frame) (u : State), WireKeeps u (f.foldl (fun s b => foreignBit b s) u) := by
    intro f
    induction f with
    | nil => exact fun u => .rfl' u
    | cons b f ih => exact fun u => (foreignBit_keeps b u).trans (ih _)
  exact (((busSet_keeps .cs false s).trans (hb f _)).trans (busSet_keeps ..)).trans (age_keeps _)

/-! ## What the bus alone leaves to the ENCODER -/

/-- Nothing that moves a line as another agent does touches the ENCODER's position or the waveform (R111). -/
theorem busSet_enc_wave (l : Line) (b : Bool) (s : State) :
    (busSet l b s).enc = s.enc ∧ (busSet l b s).wave = s.wave := by
  have hse : ∀ (l : Level) (u : State), (sense l u).2.enc = u.enc ∧ (sense l u).2.wave = u.wave := by
    intro l u
    obtain ⟨d, e⟩ := sense_snd l u
    rw [e]; exact ⟨rfl, rfl⟩
  have hcs : ∀ u : State, (onCs b u).enc = u.enc ∧ (onCs b u).wave = u.wave := fun u => hse u.target.rx.csPrev u
  have hsa : ∀ u : State, (sample u).enc = u.enc ∧ (sample u).wave = u.wave := by
    intro u
    have h1 := hse u.line.cs u
    unfold sample
    rcases hs : sense u.line.cs u with ⟨c, v⟩
    rw [hs] at h1
    simp only at h1 ⊢
    split_ifs
    · exact h1
    · have h2 := hse v.line.data v
      rcases hd : sense v.line.data v with ⟨d, w⟩
      rw [hd] at h2
      simp only at h2 ⊢
      rw [noteTarget_eq]
      exact ⟨h2.1.trans h1.1, h2.2.trans h1.2⟩
  have hwr : ∀ u : State, (onWr b u).enc = u.enc ∧ (onWr b u).wave = u.wave := by
    intro u
    have h1 := hse u.target.rx.wrPrev u
    unfold onWr
    rcases hs : sense u.target.rx.wrPrev u with ⟨w, v⟩
    rw [hs] at h1
    simp only at h1 ⊢
    split_ifs
    · exact ⟨(hsa v).1.trans h1.1, (hsa v).2.trans h1.2⟩
    · exact h1
  cases l
  · exact hcs _
  · exact ⟨rfl, rfl⟩
  · exact hwr _
  · exact ⟨rfl, rfl⟩

end Sys2Proof.Machine
end

