-- ==== Sys2Proof/Laws/Decode.lean ====
section
/-! SUPPORT. What the decoder makes of whole frames (30_encoding R71 to R75). -/

namespace Sys2Proof

/-! ## The code table (R79 to R81) -/

theorem mem_all (n : Command) : n ∈ Command.all := by cases n <;> decide

/-- The row found is one of the table's and matches. -/
theorem findRow_some {rows : List Row} {c : Code} {r : Row} (h : findRow rows c = some r) :
    r ∈ rows ∧ r.hits (c.extractLsb' 1 8) = true := by
  have key : ∀ (rs : List Row) (best : Option Row), (∀ q, best = some q → q ∈ rows ∧ q.hits (c.extractLsb' 1 8) = true) →
      (∀ q ∈ rs, q ∈ rows) → ∀ r,
      rs.foldl (fun best r => if r.hits (c.extractLsb' 1 8) then some (r.better best) else best) best = some r →
      r ∈ rows ∧ r.hits (c.extractLsb' 1 8) = true := by
    intro rs
    induction rs with
    | nil => exact fun best hb _ r hr => hb r hr
    | cons q rs ih =>
      intro best hb hm r hr
      refine ih _ ?_ (fun x hx => hm x (List.mem_cons_of_mem _ hx)) r hr
      intro x hx
      simp only at hx
      split_ifs at hx with hq
      · cases best with
        | none => cases hx; exact ⟨hm q (List.mem_cons_self ..), hq⟩
        | some b =>
          cases hx
          unfold Row.better
          simp only
          split_ifs
          · exact ⟨hm q (List.mem_cons_self ..), hq⟩
          · exact hb b rfl
      · exact hb x hx
  exact key rows none (fun _ h => nomatch h) (fun _ h => h) r h

/-- A command looked up is one whose entry the code matches. -/
theorem lookup_hits {codes : CodeTable} {c : Code} {n : Command} (h : codes.lookup c = some n) :
    Row.hits ⟨n, codes.entry n⟩ (c.extractLsb' 1 8) = true := by
  unfold CodeTable.lookup at h
  obtain ⟨r, hr, rfl⟩ := Option.map_eq_some_iff.mp h
  obtain ⟨hm, hh⟩ := findRow_some hr
  obtain ⟨m, -, rfl⟩ := List.mem_map.mp hm
  exact hh

theorem canonical_getLsbD (p : CodePattern) (i : Nat) :
    p.canonical.getLsbD i = ((p.pattern ++ 0#1 : Code).getLsbD i && (p.mask ++ 0#1 : Code).getLsbD i) := by
  unfold CodePattern.canonical
  simp only [BitVec.getLsbD_append, BitVec.getLsbD_and]
  split_ifs <;> simp

theorem free_getD (p : CodePattern) (i : Nat) :
    p.free.getD i false = (decide (i < 9) && !(p.mask ++ 0#1 : Code).getLsbD i) := by
  unfold CodePattern.free
  by_cases h : i < 9
  · simp [List.getD_eq_getElem?_getD, h]
  · simp [List.getD_eq_getElem?_getD, h]

/-- A canonical code has no ignored bit set. -/
theorem gather_canonical (p : CodePattern) : gather p.free p.canonical.toNat = 0 := by
  refine gather_eq_zero _ _ (fun i hi => ?_)
  rw [free_getD, Bool.and_eq_true, Bool.not_eq_true'] at hi
  show p.canonical.getLsbD i = false
  rw [canonical_getLsbD, hi.2, Bool.and_false]

/-- A code that matches an entry is the canonical one with its ignored bits put in. -/
theorem codeWith_gather {codes : CodeTable} {c : Code} {n : Command}
    (h : Row.hits ⟨n, codes.entry n⟩ (c.extractLsb' 1 8) = true) :
    codes.codeWith n (gather (codes.entry n).free c.toNat) = c := by
  have hm : c.extractLsb' 1 8 &&& (codes.entry n).mask = (codes.entry n).pattern &&& (codes.entry n).mask :=
    beq_iff_eq.mp h
  apply BitVec.eq_of_getLsbD_eq
  intro i hi
  unfold CodeTable.codeWith CodeTable.code
  rw [BitVec.getLsbD_or, canonical_getLsbD, BitVec.getLsbD_ofNat, testBit_spread_gather, free_getD]
  have hc : c.toNat.testBit i = c.getLsbD i := rfl
  cases i with
  | zero =>
    have hz : ∀ v : BitVec 8, (v ++ 0#1 : Code).getLsbD 0 = false := fun v => by rw [BitVec.getLsbD_append]; rfl
    rw [hz, hz, hc]
    rfl
  | succ i =>
    have hb := congrArg (fun v => v.getLsbD i) hm
    simp only [BitVec.getLsbD_and, BitVec.getLsbD_extractLsb', show i < 8 by omega, decide_true, Bool.true_and] at hb
    simp only [BitVec.getLsbD_append, hc, hi, decide_true, Bool.true_and, show ¬(i + 1 < 1) by omega, if_false,
      Nat.add_sub_cancel, ← hb, Nat.add_comm 1 i]
    cases c.getLsbD (i + 1) <;> cases (codes.entry n).mask.getLsbD i <;> rfl

/-- With the ignored bits 0 the code is the canonical one. -/
theorem codeWith_zero (codes : CodeTable) (n : Command) : codes.codeWith n 0 = codes.code n := by
  unfold CodeTable.codeWith
  rw [spread_zero]
  exact BitVec.or_zero

/-! ## Frames -/

/-- A command frame decodes by its code alone (R72, R81). -/
theorem decode_commandFrame (codes : CodeTable) (c : Code) :
    decode codes (commandFrame c) =
      match codes.lookup c with
      | some n =>
        if (n.toInstr (gather (codes.entry n).free c.toNat)).fields = .command n (gather (codes.entry n).free c.toNat)
        then .ok (n.toInstr (gather (codes.entry n).free c.toNat)) else .error (.unrepresentable c)
      | none => .error (.unknownCommand c) := by
  have hl : ¬(commandFrame c).length < 3 := by rw [commandFrame_length]; decide
  have ht : (commandFrame c).take 3 = commandFlag := rfl
  have hd : (commandFrame c).drop 3 = bitsOf 9 c.toNat := rfl
  rw [decode, if_neg hl, if_pos ht, hd, decodeCommand, if_pos (bitsOf_length 9 c.toNat), ofNat_valueOf_bitsOf]
  all_goals rfl

/-- What a command frame that decodes tells: its command, and where its ignored bits are. -/
theorem decode_commandFrame_ok {codes : CodeTable} {c : Code} {i : Instr} (h : decode codes (commandFrame c) = .ok i) :
    ∃ n, codes.lookup c = some n ∧ i.fields = .command n (gather (codes.entry n).free c.toNat) ∧
      encode codes i = commandFrame c := by
  rw [decode_commandFrame] at h
  cases hl : codes.lookup c with
  | none => rw [hl] at h; cases h
  | some n =>
    rw [hl] at h
    simp only at h
    split_ifs at h with hf
    cases h
    exact ⟨n, rfl, hf, by unfold encode; rw [hf]; simp only [codeWith_gather (lookup_hits hl)]⟩

/-- An instruction with the fields of a command and no ignored bit is `toInstr` of it. -/
theorem toInstr_zero_fields (n : Command) : (n.toInstr 0).fields = .command n 0 := by cases n <;> rfl

/-- A command's canonical code decodes to that command with its ignored bits 0. -/
theorem decode_code {codes : CodeTable} {n : Command} (h : codes.lookup (codes.code n) = some n) :
    decode codes (commandFrame (codes.code n)) = .ok (n.toInstr 0) := by
  have hg : gather (codes.entry n).free (codes.code n).toNat = 0 := gather_canonical _
  rw [decode_commandFrame, h]
  simp only [hg, toInstr_zero_fields, if_true]

/-- A write frame decodes to its address and its nibbles (R73, R74). -/
theorem decode_writeFrame (codes : CodeTable) (a : Addr) (ds : List Nibble) :
    decode codes (writeFrame a ds) = .ok (writeInstr a ds) := by
  have hl : ¬(writeFrame a ds).length < 3 := by rw [writeFrame_length]; omega
  have hf : writeFrame a ds = writeFlag ++ (bitsOf 6 a.toNat ++ ds.flatMap (fun d => bitsOf 4 d.toNat)) :=
    List.append_assoc ..
  have ht : (writeFrame a ds).take 3 = writeFlag := rfl
  have hd : (writeFrame a ds).drop 3 = bitsOf 6 a.toNat ++ ds.flatMap (fun d => bitsOf 4 d.toNat) := by
    rw [hf]; rfl
  have ht6 : (bitsOf 6 a.toNat ++ ds.flatMap (fun d => bitsOf 4 d.toNat)).take 6 = bitsOf 6 a.toNat :=
    List.take_left' (bitsOf_length 6 a.toNat)
  have hd6 : (bitsOf 6 a.toNat ++ ds.flatMap (fun d => bitsOf 4 d.toNat)).drop 6
      = ds.flatMap (fun d => bitsOf 4 d.toNat) := List.drop_left' (bitsOf_length 6 a.toNat)
  have hn : (writeFrame a ds).take 3 ≠ commandFlag := by rw [ht]; decide
  rw [decode, if_neg hl, if_neg hn, if_pos ht, hd, decodeWrite, ht6, hd6, nibblesOf_bits, ofNat_valueOf_bitsOf]
  rw [if_neg]
  rw [List.length_append, bitsOf_length]
  omega

/-- A list of nine bits is the field of its value. -/
theorem commandFrame_of_bits (bs : List Bool) (h : bs.length = 9) :
    commandFlag ++ bs = commandFrame (BitVec.ofNat 9 (valueOf bs)) := by
  rw [commandFrame, bitsOf_toNat_ofNat bs h]

/-- The data part of a write frame is the bits of its nibbles. -/
theorem nibblesOf_inv (bs : List Bool) (ds : List Nibble) (h : nibblesOf bs = some ds) :
    ds.flatMap (fun d => bitsOf 4 d.toNat) = bs := by
  induction bs using nibblesOf.induct generalizing ds with
  | case1 =>
    rw [nibblesOf] at h
    cases h
    rfl
  | case2 d3 d2 d1 d0 rest ih =>
    rw [nibblesOf] at h
    cases hr : nibblesOf rest with
    | none => rw [hr] at h; cases h
    | some es =>
      rw [hr] at h
      cases h
      rw [List.flatMap_cons, ih es hr, bitsOf_toNat_ofNat (w := 4) [d3, d2, d1, d0] rfl]
      rfl
  | case3 bs h1 h2 =>
    rw [nibblesOf.eq_3 bs (fun e => h1 e) (fun a b c d r e => h2 a b c d r e)] at h
    cases h

theorem encode_writeInstr (codes : CodeTable) (a : Addr) (ds : List Nibble) :
    encode codes (writeInstr a ds) = writeFrame a ds := by
  match ds with
  | [] => rfl
  | [d] => rfl
  | d :: e :: ds => rfl

theorem canon_writeInstr (a : Addr) (ds : List Nibble) : (writeInstr a ds).canon = writeInstr a ds := by
  match ds with
  | [] => rfl
  | [d] => rfl
  | d :: e :: ds => rfl

end Sys2Proof
end

