-- ==== Sys2Proof/Laws/Operands.lean ====
section
/-! SUPPORT. The admission checks (30_encoding R77, 43_host_operations R193), each said as one condition on its operand. -/

namespace Sys2Proof.Machine

theorem faultUnless_none (ok : Bool) (k : BlockFault) : faultUnless ok k = none ↔ ok = true := by
  cases ok <;> simp [faultUnless]

theorem firstFault_cons_none (xs : List (Option BlockFault)) : firstFault (none :: xs) = firstFault xs := rfl

theorem firstFault_cons_some (k : BlockFault) (xs : List (Option BlockFault)) : firstFault (some k :: xs) = some k := rfl

theorem firstFault_none_iff (x : Option BlockFault) (xs : List (Option BlockFault)) :
    firstFault (x :: xs) = none ↔ x = none ∧ firstFault xs = none := by
  cases x <;> simp [firstFault]

theorem checkAddress_eq (a : Int) :
    checkAddress a = if a < 0 ∨ 31 < a then some (.operandRange (.address a)) else none := by
  unfold checkAddress faultUnless
  simp only [Bool.and_eq_true, decide_eq_true_eq]
  split_ifs <;> first | rfl | (exfalso; simp only [Config.nRam] at *; omega)

theorem checkNibble_eq (d : Int) :
    checkNibble d = if d < 0 ∨ 15 < d then some (.operandRange (.nibble d)) else none := by
  unfold checkNibble faultUnless
  simp only [Bool.and_eq_true, decide_eq_true_eq]
  split_ifs <;> first | rfl | (exfalso; omega)

theorem checkCount_eq (n : Int) : checkCount n = if n < 0 then some (.operandRange (.count n)) else none := by
  unfold checkCount faultUnless
  simp only [decide_eq_true_eq]
  split_ifs <;> first | rfl | (exfalso; omega)

theorem checkFit_eq (a n : Int) :
    checkFit a n = if a + n ≤ 32 then none else some (.addressOverflow (a + n - 1)) := by
  unfold checkFit faultUnless
  simp only [decide_eq_true_eq]
  rfl

theorem writeFault_eq (a : Addr) (n : Nat) :
    writeFault a n =
      if 31 < a.toNat then some (.operandRange (.address a.toNat))
      else if a.toNat + n ≤ 32 then none
      else some (.addressOverflow (a.toNat + n - 1)) := by
  unfold writeFault
  rw [checkAddress_eq, checkFit_eq]
  by_cases h1 : 31 < a.toNat
  · rw [if_pos (Or.inr (by exact_mod_cast h1)), if_pos h1]; rfl
  · rw [if_neg (by omega), if_neg h1, firstFault_cons_none]
    by_cases h2 : a.toNat + n ≤ 32
    · rw [if_pos (by exact_mod_cast h2), if_pos h2]; rfl
    · rw [if_neg (by omega), if_neg h2]; rfl

/-- The canonical values of R77 are those of the commands other than TEST. -/
theorem canonicalCode_iff (codes : CodeTable) (v : Int) :
    canonicalCode codes v = true ↔ ∃ n : Command, n ≠ .test ∧ v = (codes.code n).toNat := by
  constructor
  · intro h
    obtain ⟨n, -, hn⟩ := List.any_eq_true.mp h
    simp only [Bool.and_eq_true, admitted, bne_iff_ne, beq_iff_eq] at hn
    exact ⟨n, hn.1, hn.2.symm⟩
  · rintro ⟨n, hn, rfl⟩
    exact List.any_eq_true.mpr ⟨n, mem_all n, by simp [admitted, hn]⟩

theorem commandFrame_inj {c c' : Code} (h : commandFrame c = commandFrame c') : c = c' := by
  have h1 : bitsOf 9 c.toNat = bitsOf 9 c'.toNat := congrArg (List.drop 3) h
  rw [← ofNat_valueOf_bitsOf c, h1, ofNat_valueOf_bitsOf]

/-- A command instruction is its command with its ignored bits (R72). -/
theorem fields_of_isCommand {i : Instr} (h : isCommand i = true) : ∃ n x, i.fields = .command n x := by
  unfold isCommand at h
  cases hf : i.fields with
  | command n x => exact ⟨n, x, rfl⟩
  | write a ds => rw [hf] at h; cases h

theorem encode_command {codes : CodeTable} {i : Instr} {n : Command} {x : Nat} (h : i.fields = .command n x) :
    encode codes i = commandFrame (codes.codeWith n x) := by
  unfold encode; rw [h]

theorem encode_write {codes : CodeTable} {i : Instr} {a : Addr} {ds : List Nibble} (h : i.fields = .write a ds) :
    encode codes i = writeFrame a ds := by
  unfold encode; rw [h]

theorem instrFault_command {codes : CodeTable} {i : Instr} {n : Command} {x : Nat} (h : i.fields = .command n x) :
    instrFault codes i = checkCommand codes (.value (codes.codeWith n x).toNat) := by
  unfold instrFault; rw [h]

theorem instrFault_write {codes : CodeTable} {i : Instr} {a : Addr} {ds : List Nibble} (h : i.fields = .write a ds) :
    instrFault codes i = writeFault a ds.length := by
  unfold instrFault; rw [h]

theorem checkCommand_none (codes : CodeTable) (c : CmdArg) :
    checkCommand codes c = none ↔
      c ≠ .named .test ∧ ∃ n : Command, n ≠ .test ∧ argCode codes c = (codes.code n).toNat := by
  unfold checkCommand
  rw [faultUnless_none, Bool.and_eq_true, bne_iff_ne, canonicalCode_iff]

theorem checkCommand_value (codes : CodeTable) (v : Int) :
    checkCommand codes (.value v) = none ↔ ∃ n : Command, n ≠ .test ∧ v = (codes.code n).toNat := by
  rw [checkCommand_none, and_iff_right (by nofun)]; rfl

/-- A value that is no admitted command's canonical one is refused (R77, R183). -/
theorem checkCommand_refused {codes : CodeTable} {v : Int} (h : ∀ n : Command, n ≠ .test → v ≠ (codes.code n).toNat) :
    checkCommand codes (.value v) = some (.operandRange (.command (.value v))) := by
  unfold checkCommand faultUnless
  rw [if_neg]
  rw [Bool.and_eq_true, canonicalCode_iff]
  rintro ⟨-, n, hn, e⟩
  exact h n hn e

/-- Bits that are no instruction have no fault exactly where they are a canonical command's frame (R77, R120). -/
theorem bitsFault_none (codes : CodeTable) (f : Frame) :
    bitsFault codes f = none ↔ ∃ n : Command, n ≠ .test ∧ f = commandFrame (codes.code n) := by
  rw [bitsFault, faultUnless_none, List.any_eq_true]
  constructor
  · rintro ⟨n, -, h⟩
    simp only [admitted, Bool.and_eq_true, bne_iff_ne, beq_iff_eq] at h
    exact ⟨n, h.1, h.2.symm⟩
  · rintro ⟨n, hn, h⟩
    refine ⟨n, by cases n <;> decide, ?_⟩
    simp only [admitted, Bool.and_eq_true, bne_iff_ne, beq_iff_eq]
    exact ⟨hn, h.symm⟩

theorem bitsFault_some {codes : CodeTable} {f : Frame} (h : ∀ n : Command, n ≠ .test → f ≠ commandFrame (codes.code n)) :
    bitsFault codes f = some (.operandRange (.frame f)) := by
  cases hb : bitsFault codes f with
  | none => obtain ⟨n, hn, e⟩ := (bitsFault_none codes f).mp hb; exact absurd e (h n hn)
  | some k => unfold bitsFault faultUnless at hb; split at hb <;> simp_all

/-- A well-formed command other than TEST has its canonical code. -/
theorem wellFormed_command {i : Instr} {n : Command} {x : Nat} (h : i.fields = .command n x) :
    i.wellFormed = true ↔ n ≠ .test ∧ x = 0 := by
  unfold Instr.wellFormed; rw [h]; simp

theorem wellFormed_write {i : Instr} {a : Addr} {ds : List Nibble} (h : i.fields = .write a ds) :
    i.wellFormed = true ↔ a.toNat ≤ 31 ∧ a.toNat + ds.length ≤ 32 := by
  unfold Instr.wellFormed; rw [h]; simp [writeFits, Config.nRam]; omega

theorem writeFault_none (a : Addr) (n : Nat) : writeFault a n = none ↔ a.toNat ≤ 31 ∧ a.toNat + n ≤ 32 := by
  rw [writeFault_eq]; split_ifs <;> simp <;> omega

/-- The ENCODER admits every well-formed instruction (R77). -/
theorem instrFault_wellFormed (codes : CodeTable) {i : Instr} (h : i.wellFormed = true) :
    instrFault codes i = none := by
  cases hf : i.fields with
  | command n x =>
    obtain ⟨hn, rfl⟩ := (wellFormed_command hf).mp h
    rw [instrFault_command hf, checkCommand_value, codeWith_zero]
    exact ⟨n, hn, rfl⟩
  | write a ds => rw [instrFault_write hf, writeFault_none]; exact (wellFormed_write hf).mp h

theorem toInstr_isCommand (n : Command) (x : Nat) : isCommand (n.toInstr x) = true := by
  cases n <;> rfl

theorem canon_command {i : Instr} (h : isCommand i = true) : i.canon = i := by
  cases i <;> first | rfl | cases h

/-- What an instruction of the code table is to its receiver: its code looks its own command up. -/
theorem lookup_of_has {codes : CodeTable} {i : Instr} {n : Command} {x : Nat} (h : codes.Has i)
    (hf : i.fields = .command n x) :
    codes.lookup (codes.codeWith n x) = some n ∧ gather (codes.entry n).free (codes.codeWith n x).toNat = x := by
  have hc : isCommand i = true := by unfold isCommand; rw [hf]
  unfold CodeTable.Has at h
  rw [encode_command hf, canon_command hc] at h
  obtain ⟨m, hl, hm, -⟩ := decode_commandFrame_ok h
  rw [hf] at hm
  injection hm with h1 h2
  subst h1
  exact ⟨hl, h2.symm⟩

/-- Every write frame is in every code table (R73, R74). -/
theorem has_write (codes : CodeTable) {i : Instr} {a : Addr} {ds : List Nibble} (h : i.fields = .write a ds) :
    codes.Has i := by
  unfold CodeTable.Has
  rw [encode_write h, decode_writeFrame]
  cases i <;> first | (cases h; done) | skip
  · cases h; rfl
  · cases h
    match ds with
    | [] => rfl
    | [_] => rfl
    | _ :: _ :: _ => rfl

/-- In a sound table every command with its ignored bits 0 is. -/
theorem has_zero {codes : CodeTable} (h : codes.Sound) (n : Command) : codes.Has (n.toInstr 0) := by
  unfold CodeTable.Has
  rw [encode_command (toInstr_zero_fields n), codeWith_zero, decode_code (h n), canon_command (toInstr_isCommand n 0)]

/-- The default table is sound (R80, R81). -/
theorem codes_sound : Config.codes.Sound := by
  intro n
  cases n <;> decide

end Sys2Proof.Machine
end

