-- ==== Sys2Proof/Laws/Step.lean ====
section
/-! SUPPORT. What a frame and a step can do, each said once, with the lemmas of the operations between the frames. -/

namespace Sys2Proof.Machine

/-- Every arm of the dispatch sends its own frame. -/
theorem exec_eq_transmit (i : Instr) (s : State) : exec i s = transmit i s := by
  cases i <;> rfl

theorem wireBusy_iff (s : State) : wireBusy s = true ↔ s.line.cs = .low ∨ s.line.rd = .low ∨ s.line.wr = .low := by
  simp [wireBusy, or_assoc]

/-- Idle lines are not busy (00_scope R19). -/
theorem not_wireBusy {s : State} (q : Quiet s) : wireBusy s = false := by
  simp [wireBusy, q.cs, q.rd, q.wr]

theorem onQuietWire_busy {s : State} (t : State) (h : wireBusy s = true) : onQuietWire s t = .fault .lineConflict :=
  if_pos h

theorem onQuietWire_next {s : State} (t : State) (h : wireBusy s = false) : onQuietWire s t = .next t := by
  unfold onQuietWire; rw [h]; rfl

theorem sendChecked_none {s : State} (f : Frame) (hr : s.enc.status = .ready) :
    sendChecked none f s = onQuietWire s (sendFrame f s) := if_pos hr

theorem sendChecked_some {s : State} (k : BlockFault) (f : Frame) (hr : s.enc.status = .ready) :
    sendChecked (some k) f s = .next (refuse k s.enc.op s) := if_pos hr

theorem sendChecked_notReady {s : State} (k : Option BlockFault) (f : Frame) (hr : s.enc.status ≠ .ready) :
    sendChecked k f s = .next (refuse .notConstructed s.enc.op s) := if_neg hr

/-- What the ENCODER does with a frame: the stop on a busy wire, SendFrame, or a refusal with nothing sent. -/
theorem sendChecked_cases (k : Option BlockFault) (f : Frame) (s : State) :
    wireBusy s = true ∧ sendChecked k f s = .fault .lineConflict ∨
      sendChecked k f s = .next (sendFrame f s) ∨ ∃ j, sendChecked k f s = .next (refuse j s.enc.op s) := by
  by_cases hr : s.enc.status = .ready
  · cases k with
    | some k => exact Or.inr (Or.inr ⟨k, sendChecked_some k f hr⟩)
    | none =>
      rw [sendChecked_none f hr]
      cases hb : wireBusy s with
      | true => exact Or.inl ⟨rfl, onQuietWire_busy _ hb⟩
      | false => exact Or.inr (Or.inl (onQuietWire_next _ hb))
  · exact Or.inr (Or.inr ⟨_, sendChecked_notReady k f hr⟩)

theorem transmit_encoder (i : Instr) (s : State) (h : s.driver = .encoder) :
    transmit i s = sendChecked (instrFault s.params.codes i) (encode s.params.codes i) s := by
  unfold transmit; rw [h]

theorem transmit_foreign (i : Instr) (s : State) (h : s.driver = .foreign) :
    transmit i s = onQuietWire s (window (encode s.params.codes i) s) := by
  unfold transmit; rw [h]

theorem transmit_admitted (i : Instr) (s : State) (h : s.driver = .encoder) (hr : s.enc.status = .ready)
    (hf : instrFault s.params.codes i = none) :
    transmit i s = onQuietWire s (sendFrame (encode s.params.codes i) s) := by
  rw [transmit_encoder i s h, hf, sendChecked_none _ hr]

theorem transmit_refused (i : Instr) (s : State) (k : BlockFault) (h : s.driver = .encoder)
    (hr : s.enc.status = .ready) (hf : instrFault s.params.codes i = some k) :
    transmit i s = .next (refuse k s.enc.op s) := by
  rw [transmit_encoder i s h, hf, sendChecked_some _ _ hr]

theorem transmit_notConstructed (i : Instr) (s : State) (h : s.driver = .encoder) (hr : s.enc.status ≠ .ready) :
    transmit i s = .next (refuse .notConstructed s.enc.op s) := by
  rw [transmit_encoder i s h, sendChecked_notReady _ _ hr]

/-- A frame has at least nine bits, so it is never empty. -/
theorem encode_ne_nil (codes : CodeTable) (i : Instr) : encode codes i ≠ [] := by
  intro h
  have := congrArg List.length h
  unfold encode at this
  cases hf : i.fields <;> rw [hf] at this <;> simp [commandFrame_length, writeFrame_length] at this

/-- What running a frame can do: the stop on a busy wire, or a window of another agent, SendFrame, or a refusal with
nothing sent. -/
theorem runFrame_cases (d : Driver) (f : Frame) (s : State) :
    wireBusy s = true ∧ runFrame d f s = .fault .lineConflict ∨
      ∃ t, runFrame d f s = .next t ∧
        ((∃ g, t = window g { s with driver := d }) ∨ (∃ g, t = sendFrame g { s with driver := d }) ∨
          ∃ k, t = refuse k s.enc.op { s with driver := d }) := by
  have foreign : ∀ g, wireBusy s = true ∧
      onQuietWire { s with driver := d } (window g { s with driver := d }) = .fault .lineConflict ∨
        ∃ t, onQuietWire { s with driver := d } (window g { s with driver := d }) = .next t ∧
          ((∃ g, t = window g { s with driver := d }) ∨ (∃ g, t = sendFrame g { s with driver := d }) ∨
            ∃ k, t = refuse k s.enc.op { s with driver := d }) := by
    intro g
    cases hb : wireBusy s with
    | true => exact Or.inl ⟨rfl, onQuietWire_busy _ hb⟩
    | false => exact Or.inr ⟨_, onQuietWire_next _ hb, Or.inl ⟨g, rfl⟩⟩
  have encoder : ∀ k g, wireBusy s = true ∧ sendChecked k g { s with driver := d } = .fault .lineConflict ∨
        ∃ t, sendChecked k g { s with driver := d } = .next t ∧
          ((∃ g, t = window g { s with driver := d }) ∨ (∃ g, t = sendFrame g { s with driver := d }) ∨
            ∃ k, t = refuse k s.enc.op { s with driver := d }) := by
    intro k g
    rcases sendChecked_cases k g { s with driver := d } with h | h | ⟨j, h⟩
    · exact Or.inl h
    · exact Or.inr ⟨_, h, Or.inr (Or.inl ⟨g, rfl⟩)⟩
    · exact Or.inr ⟨_, h, Or.inr (Or.inr ⟨j, rfl⟩)⟩
  unfold runFrame
  simp only
  cases decode s.params.codes f with
  | ok i =>
    simp only [exec_eq_transmit]
    cases d with
    | foreign => rw [transmit_foreign i { s with driver := .foreign } rfl]; exact foreign _
    | encoder => rw [transmit_encoder i { s with driver := .encoder } rfl]; exact encoder _ _
  | error e =>
    cases d with
    | foreign => exact foreign f
    | encoder => exact encoder _ f

/-- The ENCODER's bits that decode to no instruction. -/
theorem runFrame_bits (f : Frame) (s : State) (e : DecodeError) (h : decode s.params.codes f = .error e) :
    runFrame .encoder f s = sendChecked (bitsFault s.params.codes f) f { s with driver := .encoder } := by
  unfold runFrame; simp only [h]

/-- Everything an interval below the bounds does (R114): the TARGET and the faults it adds are drawn. -/
theorem shortInterval_eq (s : State) :
    shortInterval s =
      { s with
        target := anyTarget s.draws
        draws := s.draws + 28 + 4 * Config.draw (s.draws + 27)
        faults := noteFaults s.enc.op (drawTargetFaults (s.draws + 28) (Config.draw (s.draws + 27))) s.faults } :=
  noteTarget_eq ..

/-- Everything one step can do. -/
inductive Stepped (s : State) : State → Prop where
  | tick (h : s.enc.phase ≠ .idle) : Stepped s (tick s)
  | frame (f : Frame) (rest : List Action) (t : State) (h : s.enc.phase = .idle) (hw : s.enc.todo = .frame f :: rest)
      (hr : runFrame .encoder f (setTodo rest s) = .next t) : Stepped s t
  | sleep (q : Rat) (rest : List Action) (h : s.enc.phase = .idle) (hw : s.enc.todo = .sleep q :: rest) :
      Stepped s (sleep q (setTodo rest s))
  | finish (o : HostOp) (h : s.enc.phase = .idle) (hw : s.enc.todo = []) (ho : s.enc.op = some o) :
      Stepped s (finishOp s)
  | call (op : HostOp) (rest : List Item) (h : s.enc.phase = .idle) (hw : s.enc.todo = []) (ho : s.enc.op = none)
      (hi : s.inbox = .call op :: rest) : Stepped s (issue op { s with inbox := rest })
  | window (f : Frame) (rest : List Item) (t : State) (h : s.enc.phase = .idle) (hw : s.enc.todo = [])
      (ho : s.enc.op = none) (hi : s.inbox = .window f :: rest)
      (hr : runFrame .foreign f { s with inbox := rest } = .next t) : Stepped s t
  | edge (l : Line) (b : Bool) (rest : List Item) (h : s.enc.phase = .idle) (hw : s.enc.todo = [])
      (ho : s.enc.op = none) (hi : s.inbox = .edge l b :: rest) :
      Stepped s (foreignEdge l b { s with inbox := rest, driver := .foreign })
  | tooShort (rest : List Item) (h : s.enc.phase = .idle) (hw : s.enc.todo = []) (ho : s.enc.op = none)
      (hi : s.inbox = .tooShort :: rest) : Stepped s (shortInterval { s with inbox := rest, driver := .foreign })
  | power (rest : List Item) (h : s.enc.phase = .idle) (hw : s.enc.todo = []) (ho : s.enc.op = none)
      (hi : s.inbox = .powerCycle :: rest) : Stepped s (powerCycle { s with inbox := rest })
  | wait (h : s.enc.phase = .idle) (hw : s.enc.todo = []) (ho : s.enc.op = none) (hi : s.inbox = []) : Stepped s s

theorem step_tick (s : State) (h : s.enc.phase ≠ .idle) : step s = .next (tick s) := if_neg h

theorem step_advance (s : State) (h : s.enc.phase = .idle) : step s = advance s := if_pos h

theorem step_frame (s : State) (f : Frame) (rest : List Action) (h : s.enc.phase = .idle)
    (hw : s.enc.todo = .frame f :: rest) : step s = runFrame .encoder f (setTodo rest s) := by
  rw [step_advance s h, advance, hw]

theorem step_sleep (s : State) (q : Rat) (rest : List Action) (h : s.enc.phase = .idle)
    (hw : s.enc.todo = .sleep q :: rest) : step s = .next (sleep q (setTodo rest s)) := by
  rw [step_advance s h, advance, hw]

theorem step_finish (s : State) (o : HostOp) (h : s.enc.phase = .idle) (hw : s.enc.todo = [])
    (ho : s.enc.op = some o) : step s = .next (finishOp s) := by
  rw [step_advance s h, advance, hw, ho]

theorem step_item (s : State) (it : Item) (rest : List Item) (h : s.enc.phase = .idle) (hw : s.enc.todo = [])
    (ho : s.enc.op = none) (hi : s.inbox = it :: rest) : step s = takeItem it { s with inbox := rest } := by
  rw [step_advance s h, advance, hw, ho, hi]

theorem step_wait (s : State) (h : s.enc.phase = .idle) (hw : s.enc.todo = []) (ho : s.enc.op = none)
    (hi : s.inbox = []) : step s = .next s := by
  rw [step_advance s h, advance, hw, ho, hi]

/-- A step stops on a busy wire or answers a next state, and that state is one of the cases of `Stepped`. -/
theorem step_cases (s : State) :
    wireBusy s = true ∧ step s = .fault .lineConflict ∨ ∃ t, step s = .next t ∧ Stepped s t := by
  by_cases hp : s.enc.phase = .idle
  · cases hw : s.enc.todo with
    | cons a rest =>
      cases a with
      | frame f =>
        have e := step_frame s f rest hp hw
        rcases runFrame_cases .encoder f (setTodo rest s) with ⟨hb, ht⟩ | ⟨t, ht, -⟩
        · exact Or.inl ⟨hb, e.trans ht⟩
        · exact Or.inr ⟨t, e.trans ht, .frame f rest t hp hw ht⟩
      | sleep q => exact Or.inr ⟨_, step_sleep s q rest hp hw, .sleep q rest hp hw⟩
    | nil =>
      cases ho : s.enc.op with
      | some o => exact Or.inr ⟨_, step_finish s o hp hw ho, .finish o hp hw ho⟩
      | none =>
        cases hi : s.inbox with
        | nil => exact Or.inr ⟨_, step_wait s hp hw ho hi, .wait hp hw ho hi⟩
        | cons it rest =>
          have e := step_item s it rest hp hw ho hi
          cases it with
          | call op => exact Or.inr ⟨_, e, .call op rest hp hw ho hi⟩
          | window f =>
            rcases runFrame_cases .foreign f { s with inbox := rest } with ⟨hb, ht⟩ | ⟨t, ht, -⟩
            · exact Or.inl ⟨hb, e.trans ht⟩
            · exact Or.inr ⟨t, e.trans ht, .window f rest t hp hw ho hi ht⟩
          | edge l b => exact Or.inr ⟨_, e, .edge l b rest hp hw ho hi⟩
          | tooShort => exact Or.inr ⟨_, e, .tooShort rest hp hw ho hi⟩
          | powerCycle => exact Or.inr ⟨_, e, .power rest hp hw ho hi⟩
  · exact Or.inr ⟨_, step_tick s hp, .tick hp⟩

/-- With CS, RD and WR not low, a step answers a next state. -/
theorem step_quiet {s : State} (h : wireBusy s = false) : ∃ t, step s = .next t ∧ Stepped s t :=
  (step_cases s).resolve_left (fun hb => by rw [h] at hb; cases hb.1)

/-- The case a given step took. -/
theorem stepped_of_step {s t : State} (h : step s = .next t) : Stepped s t := by
  rcases step_cases s with ⟨-, hu⟩ | ⟨u, hu, hc⟩
  · rw [h] at hu; cases hu
  · rw [h] at hu
    cases hu
    exact hc

/-! ## Runs -/

theorem run_step_of (M : Host.Core) {s t : M.State} (n : Nat) (h : M.step s = .next t) : M.run (n + 1) s = M.run n t := by
  rw [Host.Core.run, h]

/-- One step of a run. -/
theorem run_step {s t : State} (n : Nat) (h : step s = .next t) :
    Host.Core.run Sys2Proof.core (n + 1) s = Host.Core.run Sys2Proof.core n t := run_step_of Sys2Proof.core n h

theorem run_zero (s : State) : Host.Core.run Sys2Proof.core 0 s = .next s := rfl

/-! ## Issuing an operation -/

/-- An operation other than `construct` is taken up or refused (R193). -/
theorem issue_cases (op : HostOp) (s : State) (h : ∀ c d, op ≠ .construct c d) :
    (∃ k, admissionFault s.params op s.enc.status = some k ∧ issue op s = refuse k (some op) s) ∨
      admissionFault s.params op s.enc.status = none ∧ issue op s = beginOp op s := by
  have e : issue op s =
      match admissionFault s.params op s.enc.status with
      | some k => refuse k (some op) s
      | none => beginOp op s := by
    cases op with
    | construct c d => exact absurd rfl (h c d)
    | _ => rfl
  rw [e]
  cases admissionFault s.params op s.enc.status with
  | none => exact Or.inr ⟨rfl, rfl⟩
  | some k => exact Or.inl ⟨k, rfl, rfl⟩

/-- CS seen high by an idle receiver (R42): it stays idle, whatever it had seen before. -/
theorem onCs_high (s : State) (h : s.target.rx.st = .idle) :
    ∃ d, onCs true s =
      { s with draws := d, target := { s.target with rx := { s.target.rx with csPrev := .high } } } := by
  have e : ∀ (was : Bool) (u : State), u.target = s.target →
      (if was && !true then RxState.id [] else if !was && true then .idle else u.target.rx.st) = s.target.rx.st := by
    intro was u hu
    cases was
    · exact h.symm
    · exact congrArg (fun t => t.rx.st) hu
  obtain ⟨d, hd⟩ := sense_snd s.target.rx.csPrev s
  refine ⟨d, ?_⟩
  unfold onCs
  rcases hs : sense s.target.rx.csPrev s with ⟨was, u⟩
  rw [hs] at hd
  simp only at hd
  subst hd
  simp only [e was { s with draws := d } rfl]
  rfl

/-- A WR edge while CS is high: no bit is taken (R112). -/
theorem onWr_csHigh (b : Bool) (s : State) (h : s.line.cs = .high) :
    ∃ d, onWr b s =
      { s with draws := d, target := { s.target with rx := { s.target.rx with wrPrev := .ofBool b } } } := by
  have e : ∀ u : State, u.line = s.line → sample u = u := by
    intro u hu
    unfold sample
    rw [hu, h]
    rfl
  obtain ⟨d, hd⟩ := sense_snd s.target.rx.wrPrev s
  refine ⟨d, ?_⟩
  unfold onWr
  rcases hs : sense s.target.rx.wrPrev s with ⟨was, u⟩
  rw [hs] at hd
  simp only at hd
  subst hd
  simp only [e { s with draws := d } rfl, ite_self]

/-- Driving every line high with an idle receiver (R180): every line is high and seen so, and nothing else of the
TARGET changes. -/
theorem driveHigh_eq (s : State) (h : s.target.rx.st = .idle) :
    ∃ d, driveHigh s =
      { s with
        line := allLines .high
        wave := s.wave ++ [.set .cs true, .set .rd true, .set .wr true, .set .data true]
        draws := d
        target := { s.target with rx := { s.target.rx with csPrev := .high, wrPrev := .high } } } := by
  obtain ⟨d1, h1⟩ := onCs_high
    { s with line := { s.line with cs := .high }, wave := s.wave ++ [.set .cs true] } h
  have e1 : drive .cs true s = _ := h1
  have e2 : drive .rd true (drive .cs true s) = _ := congrArg (drive .rd true) e1
  obtain ⟨d2, h2⟩ := onWr_csHigh true
    { s with
      line := { s.line with cs := .high, rd := .high, wr := .high }
      wave := s.wave ++ [.set .cs true] ++ [.set .rd true] ++ [.set .wr true]
      draws := d1
      target := { s.target with rx := { s.target.rx with csPrev := .high } } } rfl
  have e3 : drive .wr true (drive .rd true (drive .cs true s)) = _ := (congrArg (drive .wr true) e2).trans h2
  have e4 : driveHigh s = _ := congrArg (drive .data true) e3
  refine ⟨d2, e4.trans ?_⟩
  have hw : s.wave ++ [WaveEvent.set Line.cs true, .set .rd true, .set .wr true, .set .data true] =
      s.wave ++ [.set .cs true] ++ [.set .rd true] ++ [.set .wr true] ++ [.set .data true] := by
    simp only [List.append_assoc, List.cons_append, List.nil_append]
  rw [hw]
  rfl

end Sys2Proof.Machine
end

