-- ==== Sys2Proof/Laws/Complete.lean ====
section
/-! SUPPORT. How a frame completes, said once for command frames and once for write frames, and what the admission checks of the host
operations ask (43_host_operations R193). -/

namespace Sys2Proof.Machine

/-! ## Admission -/

theorem checkAddress_none (a : Int) : checkAddress a = none ↔ 0 ≤ a ∧ a ≤ 31 := by
  rw [checkAddress_eq]; split_ifs <;> simp <;> omega

theorem checkNibble_none (d : Int) : checkNibble d = none ↔ 0 ≤ d ∧ d ≤ 15 := by
  rw [checkNibble_eq]; split_ifs <;> simp <;> omega

theorem checkCount_none (n : Int) : checkCount n = none ↔ 0 ≤ n := by
  rw [checkCount_eq]; split_ifs <;> simp <;> omega

theorem checkFit_none (a n : Int) : checkFit a n = none ↔ a + n ≤ 32 := by
  rw [checkFit_eq]; split_ifs <;> simp <;> omega

theorem checkCategory_none (l : List Command) (c : Command) : checkCategory l c = none ↔ c ∈ l := by
  unfold checkCategory; rw [faultUnless_none]; simp

theorem firstFault_append_none (xs ys : List (Option BlockFault)) :
    firstFault (xs ++ ys) = none ↔ firstFault xs = none ∧ firstFault ys = none := by
  induction xs with
  | nil => simp [firstFault]
  | cons x xs ih => rw [List.cons_append, firstFault_none_iff, ih, firstFault_none_iff, and_assoc]

theorem checkNibbles_none (vs : List Int) : firstFault (vs.map checkNibble) = none ↔ ∀ v ∈ vs, 0 ≤ v ∧ v ≤ 15 := by
  induction vs with
  | nil => simp [firstFault]
  | cons v vs ih => rw [List.map_cons, firstFault_none_iff, ih, checkNibble_none]; simp

/-- An address in range keeps its value in the six bits of the frame. -/
theorem toNat_addr (a : Int) (h : 0 ≤ a) (h' : a ≤ 31) : (BitVec.ofInt 6 a).toNat = a.toNat := by
  rw [BitVec.toNat_ofInt]; omega

/-! ## The target's side -/

/-- Where the command's rule raises no fault, it is performed and the receiver is done (R121). -/
theorem execute_some {p : Params} (c : Code) (n : Command) (t : Target) (hl : p.codes.lookup c = some n)
    (h : (perform p.meanings c t n).2 = none) :
    execute p c t = ((perform p.meanings c t n).1.setSt .cmdDone, none) := by
  rw [execute_eq, hl]; simp only [h]; rfl

/-- Nibbles that reach cell 32: those that fit are stored, the next one records `AddressOverflow`, and the rest of the
window is ignored (R162, R168). -/
theorem receiveList_past_end {p : Params} (ds : List Nibble) (hd : ds ≠ []) (f : List Bool) (t : Target) (h : t.rx.st = .data [])
    (hp : 32 < t.rx.ptr + ds.length) :
    receiveList p (ds.flatMap (fun d => bitsOf 4 d.toNat) ++ f) t =
      ((t.stored t.rx.ptr (ds.take (32 - t.rx.ptr))).setSt .discard, [.addressOverflow (max t.rx.ptr 32)]) := by
  have hpos : 0 < ds.length := List.length_pos_iff.mpr hd
  have hlt : (ds.take (32 - t.rx.ptr)).length = 32 - t.rx.ptr := by rw [List.length_take]; omega
  by_cases hb : t.rx.ptr ≤ 32
  · obtain ⟨d, rest, hdr⟩ : ∃ d rest, ds.drop (32 - t.rx.ptr) = d :: rest :=
      List.exists_cons_of_length_pos (by rw [List.length_drop]; omega)
    have hsplit : ds = ds.take (32 - t.rx.ptr) ++ d :: rest := by rw [← hdr, List.take_append_drop]
    conv_lhs => rw [hsplit]
    rw [List.flatMap_append, List.append_assoc, receiveList_append,
      receiveList_nibbles _ t h (by rw [hlt]; show _ ≤ 32; omega), List.flatMap_cons, List.append_assoc,
      receiveList_overflow d _ (t.stored t.rx.ptr (ds.take (32 - t.rx.ptr))) rfl (by show 32 ≤ t.rx.ptr + _; omega)]
    have : ((t.stored t.rx.ptr (ds.take (32 - t.rx.ptr))).rx.ptr : Int) = max (t.rx.ptr : Int) 32 := by
      show ((t.rx.ptr + _ : Nat) : Int) = _; omega
    rw [this]; rfl
  · obtain ⟨d, rest, rfl⟩ := List.exists_cons_of_ne_nil hd
    rw [List.flatMap_cons, List.append_assoc, receiveList_overflow d _ t h (by show 32 ≤ _; omega),
      show 32 - t.rx.ptr = 0 by omega, show max (t.rx.ptr : Int) 32 = t.rx.ptr by omega]
    rfl

/-! ## Whole frames -/

/-- What the ENCODER does with a frame it admits. -/
theorem exec_send (i : Instr) (s : State) (hi : instrFault s.params.codes i = none) (h : CanSend s) :
    exec i s = .next (sendFrame (encode s.params.codes i) s) := by
  rw [exec_eq_transmit, transmit_admitted i s h.encoder h.ready hi, onQuietWire_next _ (not_wireBusy h.quiet)]

/-- What another agent's window with an instruction's frame does. -/
theorem exec_foreign (i : Instr) (s : State) (h : CanWindow s) :
    exec i s = .next (window (encode s.params.codes i) s) := by
  rw [exec_eq_transmit, transmit_foreign i s h.foreign, onQuietWire_next _ (not_wireBusy h.quiet)]

/-- A frame whose bits bring the target, from the start of a window, to `g`'s target with no fault, completes with
`g`. -/
theorem completes_of (i : Instr) (g : State → State) (r : Params → Target → Target)
    (hr : ∀ p : Params, p.codes.Has i → ∀ t : Target, receiveList p (encode p.codes i) t.opened = (r p t, []))
    (hs : ∀ f s, sentState f { s with target := r s.params s.target } = sentState f (g s))
    (hw : ∀ f s, windowState f { s with target := r s.params s.target } = windowState f (g s)) : Completes i g := by
  constructor
  · intro s hc hwf h
    rw [exec_send i s (instrFault_wellFormed _ hwf) h, sendFrame_eq _ (encode_ne_nil _ i) s h.quiet, hr _ hc, ← hs]
    rfl
  · intro s hc h
    rw [exec_foreign i s h, window_eq _ (encode_ne_nil _ i) s h.quiet, hr _ hc, ← hw]
    rfl

/-- The target after the bits of a command frame whose rule raises no fault. -/
theorem receiveList_command {p : Params} (c : Code) (n : Command) (t : Target) (hl : p.codes.lookup c = some n)
    (h : (perform p.meanings c t.opened n).2 = none) :
    receiveList p (commandFrame c) t.opened = ((perform p.meanings c t.opened n).1.setSt .cmdDone, []) := by
  rw [receiveList_commandFrame, execute_some c n _ hl h]
  rfl

/-- A command other than TEST completes with its rule's effect. -/
theorem completes_command (i : Instr) (n : Command) (x : Nat) (g : State → State) (r : Meanings → Target → Target)
    (hf : i.fields = .command n x) (hp : ∀ m c t, perform m c t n = (r m t, none))
    (hs : ∀ f s, sentState f { s with target := (r s.params.meanings s.target.opened).setSt .cmdDone } = sentState f (g s))
    (hw : ∀ f s, windowState f { s with target := (r s.params.meanings s.target.opened).setSt .cmdDone } = windowState f (g s)) :
    Completes i g := by
  refine completes_of i g (fun p t => (r p.meanings t.opened).setSt .cmdDone) (fun p hc t => ?_) hs hw
  rw [encode_command hf, receiveList_command _ n t (lookup_of_has hc hf).1 (by rw [hp]), hp]

/-- A write frame that fits completes with its cells written (R164, R165). -/
theorem completes_write (i : Instr) (a : Addr) (ds : List Nibble) (hf : i.fields = .write a ds)
    (h : a.toNat + ds.length ≤ 32) : Completes i (writeCells a.toNat ds) :=
  completes_of i _ (fun _ t => t.opened.stored a.toNat ds)
    (fun p _ t => by rw [encode_write hf, receiveList_writeFrame a ds t h]) (fun _ _ => rfl) (fun _ _ => rfl)

/-- A frame sent leaves the block able to send the next one. -/
theorem sentState_canSend (f : Frame) (s : State) (h : s.driver = .encoder) (hr : s.enc.status = .ready)
    (hd : s.line.rd = .high) : CanSend (sentState f s) := ⟨h, hr, ⟨rfl, hd, rfl, rfl, rfl⟩⟩

/-! ## Steps of an operation -/

/-- A frame that decodes runs as the instruction it is. -/
theorem runFrame_ok (d : Driver) (f : Frame) (i : Instr) (s : State) (h : decode s.params.codes f = .ok i) :
    runFrame d f s = exec i { s with driver := d } := by
  unfold runFrame; simp only [h]

/-- An admitted call is taken up in one step (R186, R193). -/
theorem step_admitted_call (op : HostOp) (rest : List Item) (s : State) (h : CanCall op rest s)
    (hc : ∀ c d, op ≠ .construct c d) (ha : operandFault s.params op = none) :
    step s = .next (beginOp op { s with inbox := rest }) := by
  rw [step_item s _ rest h.phase h.noTodo h.noOp h.next]
  rcases issue_cases op { s with inbox := rest } hc with ⟨k, hk, -⟩ | ⟨-, e⟩
  · have : admissionFault s.params op s.enc.status = some k := hk
    rw [admissionFault, if_pos h.ready, ha] at this
    cases this
  · exact congrArg Host.Outcome.next e

end Sys2Proof.Machine
end

