-- ==== Sys2Proof/Laws/PerInstr.lean ====
section
/-! SUPPORT. The shape of every instruction's frame (30_encoding R70 to R75): which flag it starts with and how many bits it
has. -/

namespace Sys2Proof.Laws.FrameShape

open Sys2Proof Sys2Proof.Machine

/-- The frame of an instruction: a command has flag `100` and 12 bits (R72), a write has flag `101` and 9 bits and 4 for
each nibble (R73, R74), whatever the code table. -/
def Statement (i : Instr) : Prop :=
  ∀ codes : CodeTable,
    if isCommand i then (encode codes i).take 3 = commandFlag ∧ (encode codes i).length = 12
    else (encode codes i).take 3 = writeFlag ∧ ∃ n, (encode codes i).length = 9 + 4 * n

theorem command_shape (c : Code) : (commandFrame c).take 3 = commandFlag ∧ (commandFrame c).length = 12 :=
  ⟨rfl, commandFrame_length c⟩

theorem sysDis (x : BitVec 1) : Statement (.sysDis x) := fun _ => command_shape _
theorem sysEn (x : BitVec 1) : Statement (.sysEn x) := fun _ => command_shape _
theorem lcdOff (x : BitVec 1) : Statement (.lcdOff x) := fun _ => command_shape _
theorem lcdOn (x : BitVec 1) : Statement (.lcdOn x) := fun _ => command_shape _
theorem timerDis (x : BitVec 1) : Statement (.timerDis x) := fun _ => command_shape _
theorem wdtDis (x : BitVec 1) : Statement (.wdtDis x) := fun _ => command_shape _
theorem timerEn (x : BitVec 1) : Statement (.timerEn x) := fun _ => command_shape _
theorem wdtEn (x : BitVec 1) : Statement (.wdtEn x) := fun _ => command_shape _
theorem toneOff (x : BitVec 1) : Statement (.toneOff x) := fun _ => command_shape _
theorem toneOn (x : BitVec 1) : Statement (.toneOn x) := fun _ => command_shape _
theorem clrTimer (x : BitVec 2) : Statement (.clrTimer x) := fun _ => command_shape _
theorem clrWdt (x : BitVec 2) : Statement (.clrWdt x) := fun _ => command_shape _
theorem xtal32k (x : BitVec 3) : Statement (.xtal32k x) := fun _ => command_shape _
theorem rc256k (x : BitVec 3) : Statement (.rc256k x) := fun _ => command_shape _
theorem ext256k (x : BitVec 3) : Statement (.ext256k x) := fun _ => command_shape _
theorem bias1_2_2com (y : BitVec 1) (x : BitVec 1) : Statement (.bias1_2_2com y x) := fun _ => command_shape _
theorem bias1_2_3com (y : BitVec 1) (x : BitVec 1) : Statement (.bias1_2_3com y x) := fun _ => command_shape _
theorem bias1_2_4com (y : BitVec 1) (x : BitVec 1) : Statement (.bias1_2_4com y x) := fun _ => command_shape _
theorem bias1_3_2com (y : BitVec 1) (x : BitVec 1) : Statement (.bias1_3_2com y x) := fun _ => command_shape _
theorem bias1_3_3com (y : BitVec 1) (x : BitVec 1) : Statement (.bias1_3_3com y x) := fun _ => command_shape _
theorem bias1_3_4com (y : BitVec 1) (x : BitVec 1) : Statement (.bias1_3_4com y x) := fun _ => command_shape _
theorem tone4k (x : BitVec 6) : Statement (.tone4k x) := fun _ => command_shape _
theorem tone2k (x : BitVec 5) : Statement (.tone2k x) := fun _ => command_shape _
theorem irqDis (y : BitVec 1) (x : BitVec 4) : Statement (.irqDis y x) := fun _ => command_shape _
theorem irqEn (y : BitVec 1) (x : BitVec 4) : Statement (.irqEn y x) := fun _ => command_shape _
theorem f1 (y : BitVec 2) (x : BitVec 1) : Statement (.f1 y x) := fun _ => command_shape _
theorem f2 (y : BitVec 2) (x : BitVec 1) : Statement (.f2 y x) := fun _ => command_shape _
theorem f4 (y : BitVec 2) (x : BitVec 1) : Statement (.f4 y x) := fun _ => command_shape _
theorem f8 (y : BitVec 2) (x : BitVec 1) : Statement (.f8 y x) := fun _ => command_shape _
theorem f16 (y : BitVec 2) (x : BitVec 1) : Statement (.f16 y x) := fun _ => command_shape _
theorem f32 (y : BitVec 2) (x : BitVec 1) : Statement (.f32 y x) := fun _ => command_shape _
theorem f64 (y : BitVec 2) (x : BitVec 1) : Statement (.f64 y x) := fun _ => command_shape _
theorem f128 (y : BitVec 2) (x : BitVec 1) : Statement (.f128 y x) := fun _ => command_shape _
theorem test (x : BitVec 1) : Statement (.test x) := fun _ => command_shape _
theorem normal (x : BitVec 1) : Statement (.normal x) := fun _ => command_shape _
theorem wr (a : Addr) (d : Nibble) : Statement (.wr a d) := fun _ => ⟨rfl, 1, writeFrame_length a [d]⟩
theorem wrb (a : Addr) (ds : List Nibble) : Statement (.wrb a ds) := fun _ => ⟨rfl, ds.length, writeFrame_length a ds⟩

end Sys2Proof.Laws.FrameShape
end

