-- ==== Sys2Proof/Tests/Slice0.lean ====
section
/-! SUPPORT. The package's own tests: the WellFormed smoke, one frame of each constructor written out from 30_encoding R80, R73 and
R74, vectors of 95_test_vectors, and a witness for the hypotheses of every statement that has some. -/

namespace Sys2Proof.Tests

open Sys2Proof.Machine

/-! ## WellFormed refuses an ill-formed term for each of its checks (R77) -/

theorem test_wellFormed_one_bit :
    [Instr.sysDis 1, .sysEn 1, .lcdOff 1, .lcdOn 1, .timerDis 1, .wdtDis 1, .timerEn 1, .wdtEn 1, .toneOff 1, .toneOn 1,
      .normal 1].any Instr.wellFormed = false := by decide

theorem test_wellFormed_low_bits :
    [Instr.clrTimer 1, .clrTimer 2, .clrWdt 1, .clrWdt 2, .xtal32k 1, .rc256k 4, .ext256k 2, .tone4k 32, .tone4k 1,
      .tone2k 16, .tone2k 1].any Instr.wellFormed = false := by decide

theorem test_wellFormed_inner_bits :
    [Instr.bias1_2_2com 1 0, .bias1_2_3com 0 1, .bias1_2_4com 1 0, .bias1_3_2com 0 1, .bias1_3_3com 1 0,
      .bias1_3_4com 0 1, .irqDis 1 0, .irqDis 0 8, .irqEn 1 0, .irqEn 0 1, .f1 1 0, .f2 2 0, .f4 0 1, .f8 3 1, .f16 1 0,
      .f32 2 0, .f64 0 1, .f128 3 0].any Instr.wellFormed = false := by decide

theorem test_wellFormed_test : [Instr.test 0, .test 1].any Instr.wellFormed = false := by decide

/-- V-W8, V-W9: the first address past the cells, and the first burst past their end. -/
theorem test_wellFormed_writes :
    [Instr.wr 32 0, .wr 63 0, .wrb 32 [], .wrb 32 [1], .wrb 31 [1, 2], .wrb 0 (List.replicate 33 0)].any
      Instr.wellFormed = false := by decide

theorem test_wellFormed_admits :
    [Instr.lcdOn 0, .clrWdt 0, .tone4k 0, .irqEn 0 0, .f128 0 0, .bias1_3_4com 0 0, .wr 31 15, .wrb 31 [], .wrb 31 [7],
      .wrb 0 (List.replicate 32 0)].all Instr.wellFormed = true := by decide

/-! ## One frame of each constructor, bit by bit: V-C1 to V-C35, V-W1, V-W4, with some don't-care bits set -/

theorem test_decode_oscillator_lcd :
    decodeTableWord 12 0b100000000000 = some (.sysDis 0) ∧ decodeTableWord 12 0b100000000010 = some (.sysEn 0) ∧
    decodeTableWord 12 0b100000000100 = some (.lcdOff 0) ∧ decodeTableWord 12 0b100000000110 = some (.lcdOn 0) ∧
    decodeTableWord 12 0b100000000001 = some (.sysDis 1) := by decide

theorem test_decode_timer_watchdog :
    decodeTableWord 12 0b100000001000 = some (.timerDis 0) ∧ decodeTableWord 12 0b100000001010 = some (.wdtDis 0) ∧
    decodeTableWord 12 0b100000001100 = some (.timerEn 0) ∧ decodeTableWord 12 0b100000001110 = some (.wdtEn 0) := by
  decide

theorem test_decode_tone :
    decodeTableWord 12 0b100000010000 = some (.toneOff 0) ∧ decodeTableWord 12 0b100000010010 = some (.toneOn 0) ∧
    decodeTableWord 12 0b100010000000 = some (.tone4k 0) ∧ decodeTableWord 12 0b100011000000 = some (.tone2k 0) ∧
    decodeTableWord 12 0b100010100100 = some (.tone4k 0b100100) := by decide

theorem test_decode_clears :
    decodeTableWord 12 0b100000011000 = some (.clrTimer 0) ∧ decodeTableWord 12 0b100000011100 = some (.clrWdt 0) ∧
    decodeTableWord 12 0b100000011001 = some (.clrTimer 1) ∧ decodeTableWord 12 0b100000011111 = some (.clrWdt 3) := by
  decide

theorem test_decode_clock :
    decodeTableWord 12 0b100000101000 = some (.xtal32k 0) ∧ decodeTableWord 12 0b100000110000 = some (.rc256k 0) ∧
    decodeTableWord 12 0b100000111000 = some (.ext256k 0) ∧ decodeTableWord 12 0b100000111101 = some (.ext256k 5) := by
  decide

theorem test_decode_bias :
    decodeTableWord 12 0b100001000000 = some (.bias1_2_2com 0 0) ∧
    decodeTableWord 12 0b100001001000 = some (.bias1_2_3com 0 0) ∧
    decodeTableWord 12 0b100001010000 = some (.bias1_2_4com 0 0) ∧
    decodeTableWord 12 0b100001000010 = some (.bias1_3_2com 0 0) ∧
    decodeTableWord 12 0b100001001010 = some (.bias1_3_3com 0 0) ∧
    decodeTableWord 12 0b100001010010 = some (.bias1_3_4com 0 0) ∧
    decodeTableWord 12 0b100001010110 = some (.bias1_3_4com 1 0) := by decide

theorem test_decode_irq :
    decodeTableWord 12 0b100100000000 = some (.irqDis 0 0) ∧ decodeTableWord 12 0b100100010000 = some (.irqEn 0 0) ∧
    decodeTableWord 12 0b100100110001 = some (.irqEn 1 1) := by decide

theorem test_decode_timebase :
    decodeTableWord 12 0b100101000000 = some (.f1 0 0) ∧ decodeTableWord 12 0b100101000010 = some (.f2 0 0) ∧
    decodeTableWord 12 0b100101000100 = some (.f4 0 0) ∧ decodeTableWord 12 0b100101000110 = some (.f8 0 0) ∧
    decodeTableWord 12 0b100101001000 = some (.f16 0 0) ∧ decodeTableWord 12 0b100101001010 = some (.f32 0 0) ∧
    decodeTableWord 12 0b100101001100 = some (.f64 0 0) ∧ decodeTableWord 12 0b100101001110 = some (.f128 0 0) ∧
    decodeTableWord 12 0b100101011110 = some (.f128 1 0) := by decide

theorem test_decode_mode :
    decodeTableWord 12 0b100111000000 = some (.test 0) ∧ decodeTableWord 12 0b100111000110 = some (.normal 0) := by
  decide

theorem test_decode_writes :
    decodeTableWord 13 0b1010001011001 = some (.wr 0b000101 0b1001) ∧
    decodeTableWord 17 0b10101111000010010 = some (.wrb 0b011110 [0b0001, 0b0010]) ∧
    decodeTableWord 9 0b101000101 = some (.wrb 0b000101 []) := by decide

/-- V-D5, V-D6, V-D7 and P5 row 5: reserved codes and a reserved flag; P5 row 12: a partial nibble. -/
theorem test_decode_refuses :
    decode Config.codes (commandFrame 0x014) = .error (.unknownCommand 0x014) ∧
    decode Config.codes (commandFrame 0x058) = .error (.unknownCommand 0x058) ∧
    decode Config.codes (commandFrame 0x1FF) = .error (.unknownCommand 0x1FF) ∧
    decode Config.codes [true, true, false, false] = .error (.unknownFlag [true, true, false]) ∧
    decode Config.codes [true, false, true, false, false, false, false, true, true, false, true] = .error (.badLength 11) ∧
    decode Config.codes [] = .error (.badLength 0) := by decide

/-! ## Small states -/

/-- A constructed block at rest; `d` drives its lines. -/
def atRest (d : Driver) : State :=
  { State.reset with
    line := allLines .high
    enc := { State.reset.enc with status := .ready }
    target := { State.reset.target with rx := { State.reset.target.rx with csPrev := .high, wrPrev := .high } }
    driver := d }

/-- The block at rest and one input that waits. -/
def waiting (it : Item) : State := { atRest .encoder with inbox := [it] }

/-- The block at rest, but for CS, which another agent's edge has left low. -/
def edgeLow (d : Driver) : State := { atRest d with line := { allLines .high with cs := .low } }

/-- One field of the state after one step from `s`. -/
def afterStep {α : Type} (field : State → α) (s : State) : Option α :=
  match step s with
  | .next t => some (field t)
  | _ => none

/-- One field after the frame of a table word, sent as the first thing after reset. -/
def afterWord {α : Type} (field : State → α) (nbits w : Nat) : Option α :=
  afterStep field (State.reset.withFetchWord nbits w)

/-! ## One step: the field each command writes (V-C1 to V-C35) -/

theorem test_step_oscillator_lcd :
    afterWord (·.target.cfg.osc) 12 0x802 = some .on ∧ afterWord (·.target.cfg.osc) 12 0x800 = some .off ∧
    afterWord (·.target.cfg.lcd) 12 0x806 = some .on ∧ afterWord (·.target.cfg.lcd) 12 0x804 = some .off ∧
    afterStep (fun t => (t.target.cfg.osc, t.target.cfg.lcd))
      (mapCfg (fun c => { c with osc := .on, lcd := .on }) (State.reset.withFetchWord 12 0x800)) =
      some (.off, .off) := by decide +kernel

theorem test_step_timer_watchdog :
    afterWord (·.target.cfg.timerOut) 12 0x808 = some .dis ∧ afterWord (·.target.cfg.timerOut) 12 0x80C = some .en ∧
    afterWord (·.target.cfg.wdtOut) 12 0x80A = some .dis ∧ afterWord (·.target.cfg.wdtOut) 12 0x80E = some .en := by
  decide +kernel

theorem test_step_tone :
    afterWord (·.target.cfg.tone) 12 0x812 = some .on ∧ afterWord (·.target.cfg.tone) 12 0x810 = some .off ∧
    afterWord (·.target.cfg.toneFreq) 12 0x880 = some .f4k ∧ afterWord (·.target.cfg.toneFreq) 12 0x8C0 = some .f2k := by
  decide +kernel

theorem test_step_clears :
    afterWord (fun t => (t.target.counters.tbClears, t.target.counters.wdtClears)) 12 0x818 = some (1, 0) ∧
    afterWord (fun t => (t.target.counters.tbClears, t.target.counters.wdtClears)) 12 0x81C = some (0, 1) := by
  decide +kernel

theorem test_step_clock :
    afterWord (·.target.cfg.clkSrc) 12 0x828 = some .xtal32k ∧ afterWord (·.target.cfg.clkSrc) 12 0x830 = some .rc256k ∧
    afterWord (·.target.cfg.clkSrc) 12 0x838 = some .ext256k := by decide +kernel

theorem test_step_bias :
    afterWord (fun t => (t.target.cfg.bias, t.target.cfg.com)) 12 0x840 = some (.b1_2, .com2) ∧
    afterWord (fun t => (t.target.cfg.bias, t.target.cfg.com)) 12 0x848 = some (.b1_2, .com3) ∧
    afterWord (fun t => (t.target.cfg.bias, t.target.cfg.com)) 12 0x850 = some (.b1_2, .com4) ∧
    afterWord (fun t => (t.target.cfg.bias, t.target.cfg.com)) 12 0x842 = some (.b1_3, .com2) ∧
    afterWord (fun t => (t.target.cfg.bias, t.target.cfg.com)) 12 0x84A = some (.b1_3, .com3) ∧
    afterWord (fun t => (t.target.cfg.bias, t.target.cfg.com)) 12 0x852 = some (.b1_3, .com4) := by decide +kernel

theorem test_step_irq_mode :
    afterWord (·.target.cfg.irq) 12 0x900 = some .dis ∧ afterWord (·.target.cfg.irq) 12 0x910 = some .en ∧
    afterWord (·.target.cfg.mode) 12 0x9C6 = some .normal := by decide +kernel

theorem test_step_timebase :
    afterWord (·.target.cfg.tbFreq) 12 0x940 = some .hz1 ∧ afterWord (·.target.cfg.tbFreq) 12 0x942 = some .hz2 ∧
    afterWord (·.target.cfg.tbFreq) 12 0x944 = some .hz4 ∧ afterWord (·.target.cfg.tbFreq) 12 0x946 = some .hz8 ∧
    afterWord (·.target.cfg.tbFreq) 12 0x948 = some .hz16 ∧ afterWord (·.target.cfg.tbFreq) 12 0x94A = some .hz32 ∧
    afterWord (·.target.cfg.tbFreq) 12 0x94C = some .hz64 ∧ afterWord (·.target.cfg.tbFreq) 12 0x94E = some .hz128 := by
  decide +kernel

/-- V-C34: the ENCODER refuses TEST; P5 row 8: the TARGET records it and stays in Normal. -/
theorem test_step_test :
    afterWord (fun t => t.faults.map (·.fault)) 12 0x9C0 = some [.operandRange (.command (.value 0x1C0))] ∧
    afterStep (fun t => (t.faults.map (·.fault), t.target.cfg.mode)) (waiting (.window (commandFrame 0x1C0))) =
      some ([.testModeUnmodelled 0x1C0], .normal) := by decide +kernel

/-! ## One step: write frames (V-W1 to V-W6, P5 rows 5 to 12) -/

theorem test_step_wr :
    afterWord (·.target.ram) 13 0x1459 = some [(5, 9)] ∧ afterWord (·.target.ram) 13 0x15F5 = some [(31, 5)] := by
  decide +kernel

theorem test_step_wrb :
    afterWord (·.target.ram) 21 0x14A123 = some [(10, 1), (11, 2), (12, 3)] ∧
    afterWord (fun t => (t.target.ram, t.target.rx.ptr, t.faults)) 9 0x145 = some ([], 5, []) := by decide +kernel

/-- P5 rows 9 to 11: nibbles past the end, made by another agent. -/
theorem test_window_overflow :
    afterStep (fun t => (t.target.ram, t.faults.map (·.fault))) (waiting (.window (writeFrame 31 [1, 2]))) =
      some ([(31, 1)], [.addressOverflow 32]) ∧
    afterStep (fun t => (t.target.ram, t.faults.map (·.fault))) (waiting (.window (writeFrame 37 [7]))) =
      some ([], [.addressOverflow 37]) ∧
    afterStep (fun t => (t.target.ram, t.faults)) (waiting (.window (writeFrame 37 []))) = some ([], []) := by
  decide +kernel

/-- P5 rows 5, 6, 7 and 12, V-B6: windows that are no instruction. -/
theorem test_window_no_instruction :
    afterStep (fun t => t.faults.map (·.fault)) (waiting (.window ([true, true, false] ++ List.replicate 6 false))) =
      some [.unknownFrameId [true, true, false]] ∧
    afterStep (fun t => (t.target.cfg.lcd, t.faults.map (·.fault))) (waiting (.window (bitsOf 13 0x100D))) =
      some (.on, [.frameOverrun]) ∧
    afterStep (fun t => t.faults.map (·.fault)) (waiting (.window (bitsOf 12 0x814))) =
      some [.unknownCommand 0x014] ∧
    afterStep (fun t => (t.target.ram, t.faults)) (waiting (.window (bitsOf 11 0x50D))) = some ([], []) := by
  decide +kernel

/-- V-B1: the waveform of LCD_ON has 12 WR pulses in one CS window, carries the frame's bits and leaves DATA 0. -/
theorem test_waveform :
    (afterWord (fun t => (t.wave.filter (· == .set .wr false)).length) 12 0x806 = some 12) ∧
    afterWord (fun t => csEvents t.wave) 12 0x806 = some [false, true] ∧
    afterWord (fun t => sampledBits true t.wave) 12 0x806 =
      some [true, false, false, false, false, false, false, false, false, true, true, false] ∧
    afterWord (·.line) 12 0x806 = some ⟨.high, .high, .high, .low⟩ := by decide +kernel

/-- R102, R273: CS left low by another agent's edge; the frame that would start then is no run of the model. -/
theorem test_line_conflict :
    afterStep (·.line.cs) (waiting (.edge .cs false)) = some .low ∧
    exec (.lcdOn 0) (edgeLow .encoder) = .fault .lineConflict ∧
    runFrame .foreign [true, true, false] (edgeLow .foreign) = .fault .lineConflict :=
  ⟨by decide +kernel, rfl, rfl⟩

/-- R38: a counter that was at its clear runs on by the time another agent's edge comes. -/
theorem test_edge_ages :
    afterStep (·.target.counters.tbCount)
      (mapCounters (fun k => { k with tbCount := .zero }) (waiting (.edge .data false))) = some .unknown := by
  decide +kernel

/-- R77, R82: a reserved code placed for the ENCODER is refused, with no line moved. -/
theorem test_encoder_reserved :
    afterWord (fun t => (t.faults.map (·.fault), t.wave)) 12 0x814 =
      some ([.operandRange (.frame (commandFrame 0x014))], []) := by decide +kernel

/-- R13, R14: with another code for LCD_ON the same call sends that code, and the TARGET obeys it. -/
theorem test_other_codes :
    let p : Params := { Config.params with codes := { Config.codes with lcdOn := ⟨0x55, 0xFF⟩ } }
    let s : State :=
      { waiting (.call .displayOn) with
        params := p, inbox := []
        enc := { (atRest .encoder).enc with todo := (expand p .displayOn 0).1 } }
    afterStep (fun t => (sampledBits true t.wave, t.target.cfg.lcd)) s = some (commandFrame 0x0AA, .on) := by
  decide +kernel

/-! ## One step: host operations (V-H2 to V-H14) and the renderer (V-R1 to V-R8) -/

theorem test_call_refused :
    afterStep (·.result) (waiting (.call (.clearRange 30 3))) = some (some (.refused (.addressOverflow 32))) ∧
    afterStep (·.result) (waiting (.call (.clearRange 0 (-1)))) =
      some (some (.refused (.operandRange (.count (-1))))) ∧
    afterStep (·.result) (waiting (.call (.writeBurst 32 [1]))) =
      some (some (.refused (.operandRange (.address 32)))) ∧
    afterStep (·.result) (waiting (.call (.writeOne 3 16))) =
      some (some (.refused (.operandRange (.nibble 16)))) ∧
    afterStep (·.result) (waiting (.call (.writeCommand (.value 0x007)))) =
      some (some (.refused (.operandRange (.command (.value 7))))) ∧
    afterStep (·.result) (waiting (.call (.beep (.finite (-1))))) =
      some (some (.refused (.operandRange (.duration (.finite (-1)))))) := by decide +kernel

/-- V-H13, V-H14: TEST, and a command of another category. -/
theorem test_initialize_refused :
    operandFault Config.params (.initialise ⟨none, none, none, none, none, none, none, some .test⟩) =
      some (.operandRange (.command (.named .test))) ∧
    operandFault Config.params (.initialise ⟨some .lcdOn, none, none, none, none, none, none, none⟩) =
      some (.operandRange (.command (.named .lcdOn))) := by decide

/-- V-H2: configuring WR fails; V-H3: a second `construct`; V-H4: `write_one` before `construct`. -/
theorem test_construct :
    afterStep (fun t => (t.enc.status, t.result))
      { State.reset with inbox := [.call (.construct ⟨true, true, false, true⟩ (⟨true, true, true, true⟩))] } =
      some (.failed, some (.refused (.lineAccessError .wr))) ∧
    afterStep (·.result) (waiting (.call (.construct ⟨true, true, true, true⟩ ⟨true, true, true, true⟩))) =
      some (some (.refused (.alreadyClaimed .ready))) ∧
    afterStep (·.result) { State.reset with inbox := [.call (.writeOne 0 0)] } =
      some (some (.refused .notConstructed)) := by decide +kernel

/-- P1: the 13 frames of the defaults, as integers, and the least duration of 588 times `T_EDGE`. -/
theorem test_initialize_frames :
    ((framesOf (initActions Config.codes Config.initDefaults)).take 12).map valueOf =
      [0x800, 0x80A, 0x802, 0x808, 0x830, 0x852, 0x880, 0x900, 0x94E, 0x9C6, 0x818, 0x81C] ∧
    (framesOf (initActions Config.codes Config.initDefaults)).drop 12 = [bitsOf 9 0x140 ++ List.replicate 128 false] ∧
    ((framesOf (initActions Config.codes Config.initDefaults)).map List.length).sum = 281 ∧
    minDuration Config.nominalTiming Config.params.sleepGran ((framesOf (initActions Config.codes Config.initDefaults)).map frameWave).flatten = 2352 := by
  decide +kernel

/-- V-R1 to V-R9, in both formats. -/
theorem test_scaled :
    [24543 / 1000, 71 / 10, 29 / 100, 12345 / 10, 99999 / 1000, 123456 / 10000, 1000, 999999 / 1000, 0].map
      (fun q : Rat => scaled .binary64 (.finite q)) =
      [.number 2454, .number 710, .number 28, .number 123450, .number 9999, .number 1234, .number 100000,
        .number 99999, .number 0] ∧
    [24543 / 1000, 71 / 10, 29 / 100, 12345 / 10, 99999 / 1000, 123456 / 10000, 1000, 999999 / 1000, 0].map
      (fun q : Rat => scaled .binary32 (.finite q)) =
      [.number 2454, .number 710, .number 29, .number 123450, .number 9999, .number 1234, .number 100000,
        .number 99999, .number 0] := by decide +kernel

/-- V-R4: the leading digit is lost; X1, X2: the two orders; V-R10, V-R11. -/
theorem test_digits :
    digits 123450 = [2, 3, 4, 5, 0] ∧ regionOrder .temperature (digits 2454) = [4, 5, 4, 2, 0] ∧
    regionOrder .humidity (digits 710) = [0, 0, 7, 1, 0] ∧ scaled .binary32 (.finite (-5)) = .negative ∧
    scaled .binary64 .nan = .notFinite ∧ scaled .binary64 .posInf = .notFinite := by decide +kernel

/-- P4 frame 1, with that program's test glyphs. -/
theorem test_glyphs :
    valueOf (writeFrame 0x0A (glyphs (Vector.ofFn (fun d => (BitVec.ofNat 4 d, BitVec.ofNat 4 (15 - d))))
      (regionOrder .temperature (digits 2454)))) = 0x14A4B5A4B2D0F := by decide +kernel

/-- P1 and P3: the display is driven only with both the oscillator and the LCD on; R33's and R35's numbers; R242's codes at
both ends. -/
theorem test_derived :
    displayDriven Config.meanings (initialisedCfg Config.initDefaults .off .off) = false ∧
    displayDriven Config.meanings (initialisedCfg Config.initDefaults .off .on) = true ∧
    toneSounding Config.meanings { initialisedCfg Config.initDefaults .on .off with osc := .off } = false ∧
    comCount Config.meanings.values .com4 = 4 ∧ biasRatio Config.meanings.values .b1_2 = 1 / 2 ∧
    (List.map (timebaseHertz Config.meanings.values) [.hz1, .hz8, .hz128]) = [1, 8, 128] ∧
    (BlockFault.lineAccessError .cs).code = 1 ∧ BlockFault.frameOverrun.code = 9 ∧
    faultFree State.reset = true := by decide +kernel

/-- R14: a chip whose SYS_DIS leaves the bias generator alone and whose tone needs no oscillator is other parameters. -/
theorem test_otherMeanings :
    lcdAfterSysDis { Config.meanings with sysDisStopsLcd := false } .on = .on ∧
    lcdAfterSysDis Config.meanings .on = .off ∧
    toneSounding { Config.meanings with toneNeedsOsc := false }
      { initialisedCfg Config.initDefaults .on .off with osc := .off } = true := by decide

/-- R32, R28, R29, 41_command_frames section 9: what further fields stand for. -/
theorem test_fieldMeanings :
    clockSource Config.meanings.values .ext256k = ⟨.external, 256⟩ ∧
    Config.meanings.values.timerOutput = .timeBase ∧ Config.meanings.values.wdtOutput = .wdtTimeOutFlag ∧
    wdtTimeoutSeconds Config.meanings.values .hz8 = 1 / 2 ∧ modeForUsers Config.meanings.values .test = false := by
  decide +kernel

/-- A code table that gives TEST the code of SYS_EN: the value is admitted as SYS_EN's (log 38), TEST by name is not. -/
theorem test_sharedCode :
    checkCommand { Config.codes with test := ⟨0x01#8, 0xFF#8⟩ } (.value 2) = none ∧
    checkCommand { Config.codes with test := ⟨0x01#8, 0xFF#8⟩ } (.named .test) =
      some (.operandRange (.command (.named .test))) := by decide +kernel

/-- A code table in which the row of SYS_DIS has two ignored bits and wins the canonical code of SYS_EN. -/
def otherCodes : CodeTable := { Config.codes with sysDis := ⟨0x00#8, 0xFE#8⟩, sysEn := ⟨0x01#8, 0x0F#8⟩ }

/-- A call of SYS_EN under that table, and the same block with its frame due. -/
def otherCall : State :=
  { waiting (.call (.writeCommand (.named .sysEn))) with params := { Config.params with codes := otherCodes } }
def otherDue : State := { otherCall with enc := { otherCall.enc with todo := [.frame (commandFrame 0x002)] } }

/-- R14, R120: its frame is no instruction of the model, is sent all the same, and the TARGET runs the row that wins. -/
theorem test_otherCodes :
    decode otherCodes (commandFrame (otherCodes.code .sysEn)) = .error (.unrepresentable 0x002) ∧
    otherCodes.lookup 0x002 = some .sysDis ∧ afterStep (·.target.cfg.osc) otherDue = some .off ∧
    afterStep (fun t => csEvents t.wave) otherDue = some [false, true] := by decide +kernel

/-! ## Witnesses: states and operands that meet the hypotheses of the statements -/

theorem witness_quiet (d : Driver) : Quiet (atRest d) := ⟨rfl, rfl, rfl, rfl, rfl⟩

theorem witness_canSend : CanSend (atRest .encoder) := ⟨rfl, rfl, witness_quiet _⟩

theorem witness_canWindow : CanWindow (atRest .foreign) := ⟨rfl, witness_quiet _⟩

theorem witness_canCall (op : HostOp) : CanCall op [] (waiting (.call op)) :=
  ⟨rfl, ⟨rfl, rfl, rfl, rfl, rfl⟩, rfl, rfl, rfl, rfl⟩

theorem witness_owned : Owned (waiting (.call .displayOn)) :=
  ⟨codes_sound, by decide, rfl, rfl, rfl, rfl, fun _ => ⟨rfl, rfl, rfl, rfl, rfl⟩, fun h => absurd rfl h, rfl, rfl, by decide, rfl,
    fun _ h => absurd h List.not_mem_nil, List.nodup_nil⟩

/-- The first bit and the last one of a field of nine. -/
theorem witness_FieldsGoOutMsbFirst : (0 < 9) ∧ 8 < 9 := by decide

/-- The first and the last nibble of a burst. -/
theorem witness_BurstFrameFormat : ([1, 2] : List Nibble)[0]? = some 1 ∧ ([1, 2] : List Nibble)[1]? = some 2 := by decide

theorem witness_DecodedFramesReencode :
    decode Config.codes [true, false, false, false, false, false, false, false, false, true, true, true] = .ok (.lcdOn 1) := by decide

/-- V-D3, V-D5: a code two rows match, and one none does. -/
theorem witness_CommandDecoding :
    (∃ r, findRow Config.codes.rows 0x01E = some r) ∧
    (∃ q ∈ Config.codes.rows, q.hits ((0x01E : Code).extractLsb' 1 8) = true) ∧
    findRow Config.codes.rows 0x014 = none := by
  refine ⟨⟨⟨.clrWdt, 0x0E, 0xFE⟩, by decide⟩, ⟨⟨.clrTimer, 0x0C, 0xFC⟩, by decide, by decide⟩, by decide⟩

theorem witness_EncoderAdmitsWellFormed :
    Config.codes.Sound ∧ ∀ i ∈ [Instr.lcdOn 0, .lcdOn 1], isCommand i = true ∧ Config.codes.Has i :=
  ⟨codes_sound, by unfold CodeTable.Has; decide⟩

/-- V-E6: a value that is no command's canonical one, and V-C4. -/
theorem witness_CommandFrameEncoder :
    (Command.lcdOn ≠ .test ∧ Config.codes.Sound) ∧ (∀ n : Command, n ≠ .test → (0x007 : Code) ≠ Config.codes.code n) ∧
    decode Config.codes (commandFrame 0x007) = .ok (.lcdOn 1) ∧ (∀ n : Command, n ≠ .test → (7 : Int) ≠ (Config.codes.code n).toNat) := by
  refine ⟨⟨by decide, codes_sound⟩, fun n _ => ?_, by decide, fun n _ => ?_⟩ <;> cases n <;> decide

/-- One instruction of each constructor with an effect. -/
def effective : List Instr :=
  [.sysDis 0, .sysEn 0, .lcdOff 0, .lcdOn 0, .timerDis 0, .timerEn 0, .wdtDis 0, .wdtEn 0, .toneOff 0, .toneOn 0,
    .tone4k 0, .tone2k 0, .clrTimer 0, .clrWdt 0, .xtal32k 0, .rc256k 0, .ext256k 0, .bias1_2_2com 0 0,
    .bias1_2_3com 0 0, .bias1_2_4com 0 0, .bias1_3_2com 0 0, .bias1_3_3com 0 0, .bias1_3_4com 0 0, .irqDis 0 0,
    .irqEn 0 0, .f1 0 0, .f2 0 0, .f4 0 0, .f8 0 0, .f16 0 0, .f32 0 0, .f64 0 0, .f128 0 0, .normal 0, .wr 31 15,
    .wrb 31 [1]]

/-- The hypotheses of `Completes`: no statement on these instructions has others. -/
theorem witness_Completes :
    (∀ i ∈ effective, (atRest .encoder).params.codes.Has i ∧ i.wellFormed = true) ∧ CanSend (atRest .encoder) ∧
    CanWindow (atRest .foreign) := by
  refine ⟨?_, witness_canSend, witness_canWindow⟩
  unfold CodeTable.Has
  decide +kernel

theorem witness_CounterClears :
    Config.codes.lookup 0x018 = some .clrTimer ∧ Config.codes.lookup 0x01B = some .clrTimer ∧ Config.codes.lookup 0x01C = some .clrWdt ∧
    Config.codes.lookup 0x01F = some .clrWdt := by decide

theorem witness_TestCommand :
    (∀ x, Config.codes.Has (.test x)) ∧ Config.codes.Sound ∧ CanWindow (atRest .foreign) ∧ CanSend (atRest .encoder) :=
  ⟨by unfold CodeTable.Has; decide +kernel, codes_sound, witness_canWindow, witness_canSend⟩

theorem witness_RepeatedCommand :
    isCommand (.lcdOn 0) = true ∧ (Instr.lcdOn 0).wellFormed = true ∧ Config.codes.Has (.lcdOn 0) ∧
    CanSend (atRest .encoder) ∧
    (∀ x, Instr.lcdOn 0 ≠ .clrTimer x) ∧ ∀ x, Instr.lcdOn 0 ≠ .clrWdt x :=
  ⟨rfl, rfl, has_zero codes_sound .lcdOn, witness_canSend, fun _ h => Instr.noConfusion h,
    fun _ h => Instr.noConfusion h⟩

/-- V-W2 and V-E4: the last address, and the first past it. -/
theorem witness_SingleWrite :
    (31 : Addr).toNat ≤ 31 ∧ 31 < (32 : Addr).toNat ∧ CanSend (atRest .encoder) ∧ (31 : Int) < 64 ∧ (0 : Int) ≤ 31 ∧
    (31 : Int) ≤ 31 ∧ (15 : Int) < 16 := ⟨by decide, by decide, witness_canSend, by decide⟩

/-- The last cell filled, an empty burst at 31, and V-W8 and V-W9, which do not fit. -/
theorem witness_BurstWrite :
    (31 : Addr).toNat + ([7] : List Nibble).length ≤ 32 ∧ (31 : Addr).toNat + ([] : List Nibble).length ≤ 32 ∧
    CanWindow (atRest .foreign) ∧ CanSend (atRest .encoder) ∧ 31 < (32 : Addr).toNat ∧ (31 : Addr).toNat ≤ 31 ∧
    32 < (31 : Addr).toNat + ([1, 2] : List Nibble).length :=
  ⟨by decide, by decide, witness_canWindow, witness_canSend, by decide, by decide, by decide⟩

/-- V-W10 and V-W11. -/
theorem witness_WriteOverflow :
    ([1, 2] : List Nibble) ≠ [] ∧ 32 < (31 : Addr).toNat + ([1, 2] : List Nibble).length ∧
    32 < (37 : Addr).toNat + ([7] : List Nibble).length ∧ 31 < (37 : Addr).toNat ∧ CanWindow (atRest .foreign) :=
  ⟨by decide, by decide, by decide, by decide, witness_canWindow⟩

/-- Two bits of a flag, eight of a command, five of an address, three of a nibble behind a burst that ends at cell 31, and
three of a nibble at address 37. -/
theorem witness_PartialFields :
    (([true, false] : Frame) ≠ [] ∧ ([true, false] : Frame).length < 3) ∧ (List.replicate 8 true).length < 9 ∧
    (List.replicate 5 true).length < 6 ∧
    ((List.replicate 3 true).length < 4 ∧ (31 : Addr).toNat + ([7] : List Nibble).length ≤ 32) ∧
    (37 : Addr).toNat + ([] : List Nibble).length > 32 ∧ Quiet (atRest .foreign) :=
  ⟨by decide, by decide, by decide, by decide, by decide, witness_quiet _⟩

theorem witness_ReservedWindows :
    ([true, true, false].length = 3 ∧ [true, true, false] ≠ commandFlag ∧ [true, true, false] ≠ writeFlag) ∧
    Config.codes.lookup 0x014 = none ∧ Quiet (atRest .foreign) := ⟨by decide, by decide, witness_quiet _⟩

theorem exec_window (i : Instr) :
    exec i (atRest .foreign) = .next (window (encode Config.codes i) (atRest .foreign)) := by
  rw [exec_eq_transmit]; rfl

theorem witness_FrameOverrun :
    isCommand (.lcdOn 0) = true ∧ (∀ x, Instr.lcdOn 0 ≠ .test x) ∧ [true] ≠ [] ∧ Config.codes.Has (.lcdOn 0) ∧ CanWindow (atRest .foreign) ∧
    ∃ t, exec (.lcdOn 0) (atRest .foreign) = .next t :=
  ⟨rfl, fun _ h => Instr.noConfusion h, by decide, has_zero codes_sound .lcdOn, witness_canWindow, _, exec_window _⟩

theorem witness_CommandFramesKeepTheRest :
    (isCommand (.lcdOn 1) = true ∧ CanWindow (atRest .foreign) ∧ ∃ t, exec (.lcdOn 1) (atRest .foreign) = .next t) ∧
    (CanSend (atRest .encoder) ∧ (Instr.lcdOn 0).wellFormed = true) ∧ ∀ x, Instr.lcdOn 1 ≠ .test x :=
  ⟨⟨rfl, witness_canWindow, _, exec_window _⟩, ⟨witness_canSend, rfl⟩, fun _ h => Instr.noConfusion h⟩

/-- A burst that ends at cell 31 and a window that goes past it; cells below and above the bytes stored to. -/
theorem witness_WriteFramesKeepTheRest :
    (∃ t, exec (.wrb 30 [1, 2]) (atRest .foreign) = .next t) ∧ (∃ t, exec (.wr 37 7) (atRest .foreign) = .next t) ∧
    CanWindow (atRest .foreign) ∧ CanSend (atRest .encoder) ∧ (Instr.wr 31 7).wellFormed = true ∧
    29 < (30 : Addr).toNat ∧ (29 : Addr).toNat + 2 ≤ 31 ∧ (30 : Addr).toNat + 2 ≤ 32 :=
  ⟨⟨_, exec_window _⟩, ⟨_, exec_window _⟩, witness_canWindow, witness_canSend, by decide⟩

/-- A frame that changes the field of each kind: from reset `cfg.osc` is Off and cell 5 is Unknown. -/
theorem witness_OnlyItsCommandsWriteAField :
    Quiet (atRest .foreign) ∧ (Config.codes.Has (.sysEn 0) ∧ Config.codes.Has (.wr 5 9)) ∧
    (∃ t, exec (.sysEn 0) (atRest .foreign) = .next t ∧ t.target.cfg.osc ≠ (atRest .foreign).target.cfg.osc) ∧
    ∃ t, exec (.wr 5 9) (atRest .foreign) = .next t ∧ t.target.ram ≠ (atRest .foreign).target.ram :=
  ⟨witness_quiet _, ⟨has_zero codes_sound .sysEn, has_write _ rfl⟩, ⟨_, exec_window _, by decide +kernel⟩, _, exec_window _, by decide +kernel⟩

/-- A frame to send, a window, a window that is no instruction, an edge, a queued frame that is none, a frame half sent,
and a table word. -/
theorem witness_StepRunsTheInstruction :
    ((State.reset.withFetchWord 12 0x806).enc.phase = .idle ∧
      (State.reset.withFetchWord 12 0x806).enc.todo = [.frame (commandFrame 0x006)] ∧
      decode Config.codes (commandFrame 0x006) = .ok (.lcdOn 0)) ∧
    (∀ it ∈ [Item.window (commandFrame 0x006), .window [true, true, false], .edge .cs false],
      (waiting it).enc.todo = [] ∧ (waiting it).enc.op = none ∧ (waiting it).inbox = [it] ∧
      (waiting it).line.cs ≠ .low ∧ (waiting it).line.rd ≠ .low ∧ (waiting it).line.wr ≠ .low) ∧
    decode Config.codes [true, true, false] = .error (.unknownFlag [true, true, false]) ∧
    ((State.reset.withFetchWord 12 0x814).enc.todo = [.frame (commandFrame 0x014)] ∧
      decode Config.codes (commandFrame 0x014) = .error (.unknownCommand 0x014) ∧
      (State.reset.withFetchWord 12 0x814).enc.status = .ready ∧
      ∀ n ∈ Command.all, n ≠ .test → commandFrame 0x014 ≠ commandFrame (Config.codes.code n)) ∧
    (otherDue.enc.phase = .idle ∧ otherDue.enc.todo = [.frame (commandFrame 0x002)] ∧
      decode otherDue.params.codes (commandFrame 0x002) = .error (.unrepresentable 0x002) ∧
      otherDue.enc.status = .ready ∧ commandFrame 0x002 = commandFrame (otherDue.params.codes.code .sysEn) ∧
      otherDue.line = allLines .high) ∧
    (startFrame (commandFrame 0x006) (atRest .encoder)).enc.phase ≠ .idle ∧
    decodeTableWord 12 0x806 = some (.lcdOn 0) := by decide +kernel

/-- `EveryStepGoesOn`, the way back of its second clause. -/
theorem witness_EveryStepGoesOn :
    (edgeLow .foreign).line.cs = .low ∧ (edgeLow .foreign).driver = .foreign ∧
    (edgeLow .encoder).enc.status = .ready ∧ instrFault (edgeLow .encoder).params.codes (.lcdOn 0) = none := by decide

theorem witness_frame : ([true] : Frame) ≠ [] := by decide

theorem witness_OneWindowPerFrame :
    (Instr.wr 31 15).wellFormed = true ∧ (Instr.wrb 0 []).wellFormed = true ∧ CanSend (atRest .encoder) :=
  ⟨rfl, rfl, witness_canSend⟩

theorem witness_WrEdgeWithCsHigh : (atRest .foreign).line.cs = .high := rfl

/-- The write flag's last bit, the fifth bit of an address and its sixth. -/
theorem witness_AddressField :
    (State.reset.target.setSt (.id [true, false])).rx.st = .id [true, false] ∧
    ((State.reset.target.setSt (.addr [true, false, true, false])).rx.st = .addr [true, false, true, false] ∧
      ([true, false, true, false] ++ [true]).length < 6) ∧ 6 ≤ ([true, false, true, false, true] ++ [true]).length := by
  decide

theorem witness_OneNibbleAtATime :
    (30 : Addr).toNat + ([1, 2] : List Nibble).length ≤ 32 ∧ CanWindow (atRest .foreign) :=
  ⟨by decide, witness_canWindow⟩

theorem witness_MemoryWrites :
    Memory.wf [(5, 9)] ∧ 31 < 32 ∧ (4 : Nat) < 32 ∧ (4 : Nat) ≠ 5 ∧ Memory.get [(5, 9)] 5 = some 9 := by decide

theorem witness_EveryStepKeepsMemory :
    (State.reset.withFetchWord 13 0x1459).target.ram.wf ∧
    ∃ t, step (State.reset.withFetchWord 13 0x1459) = .next t :=
  ⟨by decide, (step_quiet rfl).imp fun _ h => h.1⟩

/-- A call that is refused; a power cycle that waits while an operation has a frame to send. -/
theorem witness_FaultsStay :
    ((∃ t, step (waiting (.call (.writeOne 32 0))) = .next t) ∧
      (¬∃ rest, (waiting (.call (.writeOne 32 0))).inbox = .powerCycle :: rest) ∧
      (waiting (.call (.writeOne 32 0))).faults.Nodup) ∧
    ((∃ t, step { State.reset.withFetchWord 12 0x806 with inbox := [.powerCycle] } = .next t) ∧
      ¬({ State.reset.withFetchWord 12 0x806 with inbox := [.powerCycle] } : State).enc.todo = []) :=
  ⟨⟨(step_quiet rfl).imp fun _ h => h.1, fun ⟨_, h⟩ => absurd h (by simp [waiting]), List.nodup_nil⟩,
    (step_quiet rfl).imp fun _ h => h.1, by decide⟩

theorem witness_EveryStepKeepsOwned :
    Owned (waiting (.call .displayOn)) ∧ ∃ t, step (waiting (.call .displayOn)) = .next t :=
  ⟨witness_owned, (step_quiet rfl).imp fun _ h => h.1⟩

theorem witness_PowerCycle :
    (waiting .powerCycle).enc.phase = .idle ∧ (waiting .powerCycle).enc.todo = [] ∧
    (waiting .powerCycle).enc.op = none ∧ (waiting .powerCycle).inbox = [.powerCycle] := by decide

/-- All answers yes; WR refused while configuring; DATA refused while driving; a second `construct`. -/
theorem witness_Construct :
    (State.reset.enc.status = .unclaimed ∧ State.reset.target.rx.st = .idle) ∧
    firstRefused ⟨true, true, false, true⟩ = some .wr ∧ firstRefused ⟨true, true, true, false⟩ = some .data ∧
    (atRest .encoder).enc.status ≠ .unclaimed := by decide

theorem witness_NotConstructed :
    (∀ c d, HostOp.writeOne 0 0 ≠ .construct c d) ∧ State.reset.enc.status ≠ .ready ∧ State.reset.driver = .encoder :=
  ⟨fun _ _ h => HostOp.noConfusion h, by decide, rfl⟩

theorem witness_RefusalIsPrecise :
    (∀ c d, HostOp.writeOne 32 0 ≠ .construct c d) ∧ (waiting (.call (.writeOne 32 0))).enc.phase = .idle ∧
    (waiting (.call (.writeOne 32 0))).enc.todo = [] ∧ (waiting (.call (.writeOne 32 0))).enc.op = none ∧
    (waiting (.call (.writeOne 32 0))).inbox = [.call (.writeOne 32 0)] ∧
    admissionFault Config.params (.writeOne 32 0) .ready = some (.operandRange (.address 32)) ∧
    admissionFault Config.params (.writeOne 32 0) .failed = some .notConstructed :=
  ⟨fun _ _ h => HostOp.noConfusion h, rfl, rfl, rfl, rfl, by decide, by decide⟩

theorem witness_AdmissionOrder : ∀ q, HostNum.nan ≠ .finite q := fun _ h => HostNum.noConfusion h

/-- The last nibble at cell 31, and one past it. -/
theorem witness_WriteFrameEncoder :
    (CanCall (.writeBurst 30 [15, 0]) [] (waiting (.call (.writeBurst 30 [15, 0]))) ∧
      ((0 : Int) ≤ 30 ∧ (30 : Int) ≤ 31 ∧ (([15, 0] : List Int).length : Int) ≤ 32 - 30 ∧
        ∀ v ∈ ([15, 0] : List Int), 0 ≤ v ∧ v ≤ 15)) ∧
    (CanCall (.writeBurst 31 [15, 0]) [] (waiting (.call (.writeBurst 31 [15, 0]))) ∧
      ¬((0 : Int) ≤ 31 ∧ (31 : Int) ≤ 31 ∧ (([15, 0] : List Int).length : Int) ≤ 32 - 31 ∧
        ∀ v ∈ ([15, 0] : List Int), 0 ≤ v ∧ v ≤ 15)) :=
  ⟨⟨witness_canCall _, by decide⟩, witness_canCall _, by decide⟩

theorem witness_WriteOne :
    (CanCall (.writeOne 31 15) [] (waiting (.call (.writeOne 31 15))) ∧ (0 : Int) ≤ 31 ∧ (31 : Int) ≤ 31 ∧
      (0 : Int) ≤ 15 ∧ (15 : Int) ≤ 15) ∧
    (CanCall (.writeOne 31 16) [] (waiting (.call (.writeOne 31 16))) ∧
      ¬((0 : Int) ≤ 31 ∧ (31 : Int) ≤ 31 ∧ (0 : Int) ≤ 16 ∧ (16 : Int) ≤ 15)) ∧ State.reset.enc.status ≠ .ready :=
  ⟨⟨witness_canCall _, by decide⟩, ⟨witness_canCall _, by decide⟩, by decide⟩

theorem witness_WriteBurst :
    CanCall (.writeBurst 31 [15]) [] (waiting (.call (.writeBurst 31 [15]))) ∧ (0 : Int) ≤ 31 ∧ (31 : Int) ≤ 31 ∧
    (31 : Int) + (([15] : List Int).length : Int) ≤ 32 ∧ ∀ v ∈ ([15] : List Int), 0 ≤ v ∧ v ≤ 15 :=
  ⟨witness_canCall _, by decide⟩

/-- V-H5, V-H7: a region and a count of 0; a negative count, an address past the cells, an end past them. -/
theorem witness_ClearAndFillRange :
    (CanCall (.clearRange 4 0) [] (waiting (.call (.clearRange 4 0))) ∧
      CanCall (.fillRange 0 32) [] (waiting (.call (.fillRange 0 32))) ∧ (0 : Int) + 32 ≤ 32 ∧ (4 : Int) + 0 ≤ 32) ∧
    (-1 : Int) < 0 ∧ (31 : Int) < 32 ∧ (32 : Int) < 30 + 3 ∧ State.reset.enc.status ≠ .ready :=
  ⟨⟨witness_canCall _, witness_canCall _, by decide⟩, by decide⟩

theorem witness_WriteCommand :
    (Command.lcdOn ≠ .test ∧ Config.codes.Sound) ∧
    CanCall (.writeCommand (.named .lcdOn)) [] (waiting (.call (.writeCommand (.named .lcdOn)))) ∧
    CanCall (.writeCommand (.value 6)) [] (waiting (.call (.writeCommand (.value 6)))) ∧
    ((Config.codes.code .lcdOn).toNat : Int) = 6 ∧ CanCall (.writeCommand (.named .sysEn)) [] otherCall :=
  ⟨⟨by decide, codes_sound⟩, witness_canCall _, witness_canCall _, by decide, rfl, ⟨rfl, rfl, rfl, rfl, rfl⟩, rfl, rfl, rfl, rfl⟩

theorem witness_DisplayOnAndOff :
    Config.codes.Sound ∧ CanCall .displayOn [] (waiting (.call .displayOn)) ∧
    CanCall .displayOff [] (waiting (.call .displayOff)) :=
  ⟨codes_sound, witness_canCall _, witness_canCall _⟩

/-- V-H11: a duration of 0 too. -/
theorem witness_Beep :
    (0 : Rat) ≤ 0 ∧ Config.codes.Sound ∧ CanCall (.beep (.finite 0)) [] (waiting (.call (.beep (.finite 0)))) :=
  ⟨le_refl 0, codes_sound, witness_canCall _⟩

/-- `initialize` with no argument given, from rest; `construct` from reset. -/
theorem witness_Initialise :
    (CanCall (.initialise ⟨none, none, none, none, none, none, none, none⟩) []
        (waiting (.call (.initialise ⟨none, none, none, none, none, none, none, none⟩))) ∧
      checkInit (withDefaults Config.initDefaults ⟨none, none, none, none, none, none, none, none⟩) = none) ∧
    State.reset.enc.status = .unclaimed ∧ State.reset.enc.phase = .idle ∧ State.reset.enc.todo = [] ∧
    State.reset.enc.op = none ∧ State.reset.target.rx.st = .idle ∧ State.reset.params.meanings = Config.meanings ∧
    checkInit State.reset.params.initDefaults = none ∧ State.reset.params.codes.Sound :=
  ⟨⟨witness_canCall _, by decide⟩, by decide, by decide, by decide, by decide, by decide, rfl, by decide, codes_sound⟩

theorem witness_Results :
    ({ atRest .encoder with enc := { (atRest .encoder).enc with op := some .displayOn } } : State).enc.op =
      some .displayOn ∧
    (∀ c d, HostOp.writeOne 32 0 ≠ .construct c d) ∧
    admissionFault Config.params (.writeOne 32 0) .ready = some (.operandRange (.address 32)) :=
  ⟨rfl, fun _ _ h => HostOp.noConfusion h, by decide⟩

/-- V-R1 and V-R10, whichever format the host has. -/
theorem witness_ShowNumbers :
    scaled State.reset.params.floatFmt (.finite (24543 / 1000)) = .number 2454 ∧
    scaled State.reset.params.floatFmt (.finite (-5)) = .negative ∧
    (∀ v, CanCall (.showTemperature v) [] (waiting (.call (.showTemperature v)))) ∧
    (∀ v, CanCall (.showHumidity v) [] (waiting (.call (.showHumidity v)))) ∧ ∀ q, HostNum.posInf ≠ .finite q := by
  refine ⟨?_, ?_, fun _ => witness_canCall _, fun _ => witness_canCall _, fun _ h => HostNum.noConfusion h⟩ <;>
    · show scaled Config.floatFmt _ = _
      cases Config.floatFmt <;> decide +kernel

theorem witness_RendererFills :
    CanCall .showAllSegments [] (waiting (.call .showAllSegments)) ∧ CanCall .clearAll [] (waiting (.call .clearAll)) ∧
    CanCall .clearTemperatureRegion [] (waiting (.call .clearTemperatureRegion)) ∧
    CanCall .clearHumidityRegion [] (waiting (.call .clearHumidityRegion)) ∧ State.reset.enc.status ≠ .ready :=
  ⟨witness_canCall _, witness_canCall _, witness_canCall _, witness_canCall _, by decide⟩

end Sys2Proof.Tests
end

section
/-! SUPPORT. The obligations of 10_state: the display memory (R39), the micro steps of a frame (R24), the fault set
(R25), the construction status (R23), and who writes the fields of the TARGET (R26 to R39). -/

namespace Sys2Proof.Machine

/-! ## The display memory -/

/-- Settles O37: canonical memories that read alike are the same data, and reading after writing is `get_put`. -/
theorem memoryWrites : Obligations.MemoryWrites := by
  intro m a v hm ha
  have hput : ∀ b w, b < 32 → (m.put b w).wf := fun b w hb => put_wf w hb hm
  refine ⟨fun b => get_put m a b v, fun w => ?_, fun b w hb hne => ?_, fun hg => ?_⟩
  · refine eq_of_get (put_wf w ha (hput a v ha)) (hput a w ha) fun c => ?_
    rw [get_put, get_put, get_put]
    split_ifs <;> rfl
  · refine eq_of_get (put_wf w hb (hput a v ha)) (put_wf v ha (hput b w hb)) fun c => ?_
    rw [get_put, get_put, get_put, get_put]
    split_ifs with hcb hca
    · exact absurd (hcb.symm.trans hca) hne
    all_goals rfl
  · refine eq_of_get (hput a v ha) hm fun c => ?_
    rw [get_put]
    split_ifs with hc
    · rw [hc, hg]
    · rfl

/-! ## SendFrame in micro steps -/

/-- The micro steps that a frame in progress still takes (R24, R102). -/
def Encoder.ticksLeft (e : Encoder) : Nat :=
  match e.phase with
  | .idle => 0
  | .csSetup | .bitHigh => 2 * (e.frame.length - e.k) + 3
  | .bitLow => 2 * (e.frame.length - (e.k + 1)) + 4
  | .csHold => 2
  | .gap => 1

theorem drive_enc (l : Line) (b : Bool) (s : State) : (drive l b s).enc = s.enc :=
  (busSet_enc_wave l b (record [.set l b] s)).1

theorem startFrame_enc (f : Frame) (s : State) :
    (startFrame f s).enc = { s.enc with frame := f, k := 0, phase := .csSetup } :=
  drive_enc .cs false _

theorem bitLow_enc (b : Bool) (s : State) : (bitLow b s).enc = { s.enc with phase := .bitLow } := by
  rw [bitLow, wait_enc, drive_enc, drive_enc, setPhase_enc]

theorem bitHigh_enc (s : State) : (bitHigh s).enc = { s.enc with phase := .bitHigh, k := s.enc.k + 1 } := by
  simp only [bitHigh, wait_enc, setPhase_enc, drive_enc]

/-- Where a bit cell may start: the next bit's first half, or CS up after the last bit (R102). -/
theorem ticksLeft_tick_cell {s : State} (h : s.enc.phase = .csSetup ∨ s.enc.phase = .bitHigh) :
    (tick s).enc.ticksLeft + 1 = s.enc.ticksLeft := by
  have hl : s.enc.ticksLeft = 2 * (s.enc.frame.length - s.enc.k) + 3 := by
    rcases h with h | h <;> rw [Encoder.ticksLeft, h]
  cases hb : s.enc.frame[s.enc.k]? with
  | some b =>
    have ht : tick s = bitLow b s := by
      rcases h with h | h <;> simp only [tick, h, hb]
    obtain ⟨hk, -⟩ := List.getElem?_eq_some_iff.mp hb
    rw [hl, ht, bitLow_enc]
    simp only [Encoder.ticksLeft]
    omega
  | none =>
    have ht : tick s = drive .cs true (setPhase .csHold s) := by
      rcases h with h | h <;> simp only [tick, h, hb]
    have hk := List.getElem?_eq_none_iff.mp hb
    rw [hl, ht, drive_enc, setPhase_enc]
    simp only [Encoder.ticksLeft]
    omega

/-- A micro step inside a frame is one of those that were left. -/
theorem ticksLeft_tick {s : State} (h : s.enc.phase ≠ .idle) : (tick s).enc.ticksLeft + 1 = s.enc.ticksLeft := by
  cases hp : s.enc.phase with
  | idle => exact absurd hp h
  | csSetup => exact ticksLeft_tick_cell (Or.inl hp)
  | bitHigh => exact ticksLeft_tick_cell (Or.inr hp)
  | bitLow =>
    have ht : tick s = bitHigh s := by simp only [tick, hp]
    rw [ht, bitHigh_enc]
    simp only [Encoder.ticksLeft, hp]
  | csHold => simp only [tick, Encoder.ticksLeft, hp, wait_enc, setPhase_enc]
  | gap => simp only [tick, Encoder.ticksLeft, hp]

/-- As long as the frame is not over, steps of the machine are its micro steps (R24, log 17). -/
theorem run_eq_ticks (n : Nat) (s : State) (h : n ≤ s.enc.ticksLeft) :
    Host.Core.run Sys2Proof.core n s = .next (ticks n s) := by
  induction n generalizing s with
  | zero => exact run_zero s
  | succ n ih =>
    have hp : s.enc.phase ≠ .idle := fun hi => by simp [Encoder.ticksLeft, hi] at h
    have hleft := ticksLeft_tick hp
    rw [run_step n (step_tick s hp), ih (tick s) (by omega), ticks]

/-- Settles O31: a frame just started has two micro steps left for each bit and three more. -/
theorem microStepsMakeTheFrame : Obligations.MicroStepsMakeTheFrame := by
  intro f s _
  refine run_eq_ticks _ _ ?_
  rw [startFrame_enc]
  exact Nat.le_refl _

/-! ## The fault set -/

/-- No record of `fs` is lost in `gs`, and none comes to be there twice (R25). -/
def FaultsGrow (fs gs : List FaultRecord) : Prop := (∀ r ∈ fs, r ∈ gs) ∧ (fs.Nodup → gs.Nodup)

theorem FaultsGrow.refl (fs : List FaultRecord) : FaultsGrow fs fs := ⟨fun _ => id, id⟩

theorem FaultsGrow.trans {fs gs hs : List FaultRecord} (h : FaultsGrow fs gs) (k : FaultsGrow gs hs) :
    FaultsGrow fs hs := ⟨fun r hr => k.1 r (h.1 r hr), k.2 ∘ h.2⟩

theorem faultsGrow_addFault (r : FaultRecord) (fs : List FaultRecord) : FaultsGrow fs (addFault r fs) :=
  ⟨fun _ hq => mem_addFault.mpr (Or.inr hq), nodup_addFault r⟩

theorem WireKeeps.faultsGrow {s t : State} (h : WireKeeps s t) : FaultsGrow s.faults t.faults :=
  ⟨h.faults, h.faultsOnce⟩

theorem refuse_faultsGrow (k : BlockFault) (op : Option HostOp) (s : State) :
    FaultsGrow s.faults (refuse k op s).faults := faultsGrow_addFault _ _

theorem runFrame_faultsGrow {d : Driver} {f : Frame} {s t : State} (h : runFrame d f s = .next t) :
    FaultsGrow s.faults t.faults := by
  rcases runFrame_cases d f s with ⟨-, hf⟩ | ⟨u, hu, hcases⟩
  · rw [h] at hf; cases hf
  · rw [h] at hu
    cases hu
    rcases hcases with ⟨g, rfl⟩ | ⟨g, rfl⟩ | ⟨k, rfl⟩
    · exact (window_keeps g { s with driver := d }).faultsGrow
    · exact (sendFrame_keeps g { s with driver := d }).faultsGrow
    · exact refuse_faultsGrow k s.enc.op { s with driver := d }

theorem driveHigh_keeps (s : State) : WireKeeps s (driveHigh s) :=
  (((drive_keeps .cs true s).trans (drive_keeps .rd true _)).trans (drive_keeps .wr true _)).trans
    (drive_keeps .data true _)

theorem construct_faultsGrow (c d : Lines Bool) (s : State) : FaultsGrow s.faults (construct c d s).faults := by
  have hfailed : ∀ l op, FaultsGrow s.faults (constructFailed l op s).faults := fun l op =>
    refuse_faultsGrow (.lineAccessError l) (some op) s
  unfold construct
  simp only
  split_ifs
  · cases firstRefused c with
    | some l => exact hfailed l _
    | none =>
      cases firstRefused d with
      | some l => exact hfailed l _
      | none => exact (driveHigh_keeps s).faultsGrow
  · exact refuse_faultsGrow _ _ s

theorem issue_faultsGrow (op : HostOp) (s : State) : FaultsGrow s.faults (issue op s).faults := by
  by_cases hc : ∃ c d, op = .construct c d
  · obtain ⟨c, d, rfl⟩ := hc
    exact construct_faultsGrow c d s
  · rcases issue_cases op s (fun c d e => hc ⟨c, d, e⟩) with ⟨k, -, h⟩ | ⟨-, h⟩
    · rw [h]; exact refuse_faultsGrow k _ s
    · rw [h]; exact .refl s.faults

theorem shortInterval_faultsGrow (s : State) : FaultsGrow s.faults (shortInterval s).faults := by
  rw [shortInterval_eq]
  exact noteFaults_keeps _ _ _

/-- Settles O40, by the cases of a step: only the power cycle's does not add to the fault set. -/
theorem faultsStay : Obligations.FaultsStay := by
  intro s t h hno
  show FaultsGrow s.faults t.faults
  cases stepped_of_step h with
  | tick => exact (tick_keeps s).faultsGrow
  | frame f rest _ _ _ hr => exact runFrame_faultsGrow (s := setTodo rest s) hr
  | sleep q rest => exact (wait_keeps (.sleep q) (setTodo rest s)).faultsGrow
  | finish => exact .refl s.faults
  | call op rest => exact issue_faultsGrow op { s with inbox := rest }
  | window f rest _ _ _ _ _ hr => exact runFrame_faultsGrow (s := { s with inbox := rest }) hr
  | edge l b rest => exact (foreignEdge_keeps l b { s with inbox := rest, driver := .foreign }).faultsGrow
  | tooShort rest => exact shortInterval_faultsGrow { s with inbox := rest, driver := .foreign }
  | power rest hp hw ho hi => exact absurd ⟨hp, hw, ho, rest, hi⟩ hno
  | wait => exact .refl s.faults

/-! ## Before construction -/

/-- Settles O46: the status is the first check of a call's admission and of every frame of the ENCODER. -/
theorem notConstructed : Obligations.NotConstructed := by
  refine ⟨fun op s hc hs => ?_, fun i s hd hs => ?_⟩
  · have hk : admissionFault s.params op s.enc.status = some .notConstructed := if_neg hs
    rcases issue_cases op s hc with ⟨k, hk', h⟩ | ⟨hnone, -⟩
    · rw [hk] at hk'
      cases hk'
      exact h
    · rw [hk] at hnone
      cases hnone
  · rw [exec_eq_transmit, transmit_notConstructed i s hd hs]

/-! ## Who writes the TARGET's fields -/

/-- From idle lines an instruction leaves the TARGET as it was, or with its frame's bits received and the window
closed. -/
theorem exec_target {i : Instr} {s t : State} (q : Quiet s) (h : exec i s = .next t) :
    t.target = s.target ∨
      t.target = (receiveList s.params (encode s.params.codes i) s.target.opened).1.closed := by
  have hne := encode_ne_nil s.params.codes i
  rw [exec_eq_transmit] at h
  cases hd : s.driver with
  | foreign =>
    rw [transmit_foreign i s hd, onQuietWire_next _ (not_wireBusy q), window_eq _ hne s q] at h
    cases h
    exact Or.inr rfl
  | encoder =>
    rw [transmit_encoder i s hd] at h
    rcases sendChecked_cases (instrFault s.params.codes i) (encode s.params.codes i) s with
      ⟨-, hs⟩ | hs | ⟨k, hs⟩ <;> rw [hs] at h <;> cases h
    · rw [sendFrame_eq _ hne s q]
      exact Or.inr rfl
    · exact Or.inl rfl

/-- The bits of a command frame of the code table perform that command's rule (R121). -/
theorem receiveList_encode_command {p : Params} {i : Instr} {n : Command} {x : Nat} (hc : p.codes.Has i)
    (hf : i.fields = .command n x) (t : Target) :
    ∃ st, (receiveList p (encode p.codes i) t.opened).1 =
      (perform p.meanings (p.codes.codeWith n x) t.opened n).1.setSt st := by
  rw [encode_command hf, receiveList_commandFrame, execute_eq, (lookup_of_has hc hf).1]
  exact ⟨_, rfl⟩

/-- The bits of any write frame store those of its nibbles that land below cell 32 (R162, R165, R168). -/
theorem receiveList_writeFrame_target {p : Params} (a : Addr) (ds : List Nibble) (t : Target) :
    ∃ st, (receiveList p (writeFrame a ds) t.opened).1 =
      (t.opened.stored a.toNat (ds.take (32 - a.toNat))).setSt st := by
  rw [writeFrame, receiveList_append, receiveList_writeHead]
  by_cases hd : ds = []
  · subst hd
    exact ⟨.data [], by rw [List.take_nil]; rfl⟩
  · by_cases hfit : a.toNat + ds.length ≤ 32
    · rw [receiveList_nibbles ds _ rfl hfit, List.take_of_length_le (by omega)]
      exact ⟨.data [], rfl⟩
    · have hover := receiveList_past_end (p := p) ds hd [] (t.opened.pointAt a.toNat) rfl (by
        show 32 < a.toNat + ds.length
        omega)
      rw [List.append_nil] at hover
      rw [hover]
      exact ⟨.discard, rfl⟩

/-- The instructions that are write frames (R73, R74). -/
theorem eq_write_of_fields {i : Instr} {a : Addr} {ds : List Nibble} (hf : i.fields = .write a ds) :
    (∃ a d, i = .wr a d) ∨ ∃ a ds, i = .wrb a ds := by
  cases i with
  | wr a d => exact Or.inl ⟨a, d, rfl⟩
  | wrb a ds => exact Or.inr ⟨a, ds, rfl⟩
  | _ => cases hf

/-! Each rule of 41_command_frames sets the fields of its own family and leaves every other one: for each field, the
instructions whose rule names it (R26 to R38). -/

section perform_writers
variable {m : Meanings} {c : Code} {t : Target} {i : Instr} {n : Command} {x : Nat} (hf : i.fields = .command n x)
include hf

theorem perform_osc_writers (h : (perform m c t n).1.cfg.osc ≠ t.cfg.osc) :
    ∃ x, i = .sysDis x ∨ i = .sysEn x := by
  cases i with
  | sysDis | sysEn => simp
  | _ => cases hf <;> exact absurd rfl h

theorem perform_lcd_writers (h : (perform m c t n).1.cfg.lcd ≠ t.cfg.lcd) :
    ∃ x, i = .sysDis x ∨ i = .lcdOff x ∨ i = .lcdOn x := by
  cases i with
  | sysDis | lcdOff | lcdOn => simp
  | _ => cases hf <;> exact absurd rfl h

theorem perform_timerOut_writers (h : (perform m c t n).1.cfg.timerOut ≠ t.cfg.timerOut) :
    ∃ x, i = .timerDis x ∨ i = .timerEn x := by
  cases i with
  | timerDis | timerEn => simp
  | _ => cases hf <;> exact absurd rfl h

theorem perform_wdtOut_writers (h : (perform m c t n).1.cfg.wdtOut ≠ t.cfg.wdtOut) :
    ∃ x, i = .wdtDis x ∨ i = .wdtEn x := by
  cases i with
  | wdtDis | wdtEn => simp
  | _ => cases hf <;> exact absurd rfl h

theorem perform_tone_writers (h : (perform m c t n).1.cfg.tone ≠ t.cfg.tone) :
    ∃ x, i = .toneOff x ∨ i = .toneOn x := by
  cases i with
  | toneOff | toneOn => simp
  | _ => cases hf <;> exact absurd rfl h

theorem perform_toneFreq_writers (h : (perform m c t n).1.cfg.toneFreq ≠ t.cfg.toneFreq) :
    (∃ x, i = .tone4k x) ∨ ∃ x, i = .tone2k x := by
  cases i with
  | tone4k | tone2k => simp
  | _ => cases hf <;> exact absurd rfl h

theorem perform_clkSrc_writers (h : (perform m c t n).1.cfg.clkSrc ≠ t.cfg.clkSrc) :
    ∃ x, i = .xtal32k x ∨ i = .rc256k x ∨ i = .ext256k x := by
  cases i with
  | xtal32k | rc256k | ext256k => simp
  | _ => cases hf <;> exact absurd rfl h

theorem perform_biasCom_writers
    (h : (perform m c t n).1.cfg.bias ≠ t.cfg.bias ∨ (perform m c t n).1.cfg.com ≠ t.cfg.com) :
    ∃ y x, i = .bias1_2_2com y x ∨ i = .bias1_2_3com y x ∨ i = .bias1_2_4com y x ∨ i = .bias1_3_2com y x ∨
      i = .bias1_3_3com y x ∨ i = .bias1_3_4com y x := by
  cases i with
  | bias1_2_2com | bias1_2_3com | bias1_2_4com | bias1_3_2com | bias1_3_3com | bias1_3_4com => simp
  | _ => cases hf <;> exact h.elim (absurd rfl) (absurd rfl)

theorem perform_irq_writers (h : (perform m c t n).1.cfg.irq ≠ t.cfg.irq) :
    ∃ y x, i = .irqDis y x ∨ i = .irqEn y x := by
  cases i with
  | irqDis | irqEn => simp
  | _ => cases hf <;> exact absurd rfl h

theorem perform_tbFreq_writers (h : (perform m c t n).1.cfg.tbFreq ≠ t.cfg.tbFreq) :
    ∃ y x, i = .f1 y x ∨ i = .f2 y x ∨ i = .f4 y x ∨ i = .f8 y x ∨ i = .f16 y x ∨ i = .f32 y x ∨
      i = .f64 y x ∨ i = .f128 y x := by
  cases i with
  | f1 | f2 | f4 | f8 | f16 | f32 | f64 | f128 => simp
  | _ => cases hf <;> exact absurd rfl h

theorem perform_mode_writers (h : (perform m c t n).1.cfg.mode ≠ t.cfg.mode) :
    ∃ x, i = .normal x := by
  cases i with
  | normal => simp
  | _ => cases hf <;> exact absurd rfl h

theorem perform_tbClears_writers (h : (perform m c t n).1.counters.tbClears ≠ t.counters.tbClears) :
    ∃ x, i = .clrTimer x := by
  cases i with
  | clrTimer => simp
  | _ => cases hf <;> exact absurd rfl h

theorem perform_wdtClears_writers (h : (perform m c t n).1.counters.wdtClears ≠ t.counters.wdtClears) :
    ∃ x, i = .clrWdt x := by
  cases i with
  | clrWdt => simp
  | _ => cases hf <;> exact absurd rfl h

end perform_writers

/-- Settles O29: the TARGET performs the rule of the command received, and each rule sets its own fields; a write frame
sets cells only. -/
theorem onlyItsCommandsWriteAField : Obligations.OnlyItsCommandsWriteAField := by
  intro i s t q hc h
  rcases exec_target q h with ht | ht
  · simp only [ht, ne_eq, not_true_eq_false, or_self, false_imp_iff, and_self]
  · cases hf : i.fields with
    | command n x =>
      obtain ⟨st, hr⟩ := receiveList_encode_command hc hf s.target
      rw [ht, hr]
      exact ⟨perform_osc_writers hf, perform_lcd_writers hf, perform_timerOut_writers hf, perform_wdtOut_writers hf,
        perform_tone_writers hf, perform_toneFreq_writers hf, perform_clkSrc_writers hf, perform_biasCom_writers hf,
        perform_irq_writers hf, perform_tbFreq_writers hf, perform_mode_writers hf, perform_tbClears_writers hf,
        perform_wdtClears_writers hf, fun hne => absurd (perform_ram ..) hne⟩
    | write a ds =>
      obtain ⟨st, hr⟩ := receiveList_writeFrame_target (p := s.params) a ds s.target
      rw [encode_write hf, hr] at ht
      have hcfg : t.target.cfg = s.target.cfg := by rw [ht]; rfl
      have htb : t.target.counters.tbClears = s.target.counters.tbClears := by rw [ht]; rfl
      have hwdt : t.target.counters.wdtClears = s.target.counters.wdtClears := by rw [ht]; rfl
      simp [hcfg, htb, hwdt, eq_write_of_fields hf]

end Sys2Proof.Machine
end

section
/-! SUPPORT. The obligations of 20_memory: the order of a frame's bits (R53), single-nibble writes (R55), commands sent
again (R59), and the canonical display memory (R50). -/

namespace Sys2Proof.Machine

/-! ## The order of the bits -/

/-- The bit of a field sent at place `i` (R15, R53). -/
theorem getElem?_bitsOf {w i : Nat} (v : Nat) (h : i < w) : (bitsOf w v)[i]? = some (v.testBit (w - 1 - i)) := by
  induction w generalizing i with
  | zero => exact absurd h (Nat.not_lt_zero i)
  | succ w ih =>
    cases i with
    | zero => rfl
    | succ i => rw [bitsOf, List.getElem?_cons_succ, ih (by omega), show w + 1 - 1 - (i + 1) = w - 1 - i by omega]

/-- Settles O1: a field's bits by induction on its width; the two flags are the fields `100` and `101`. -/
theorem fieldsGoOutMsbFirst : Obligations.FieldsGoOutMsbFirst :=
  ⟨bitsOf_length, fun _ v _ h => getElem?_bitsOf v h, fun _ => rfl, fun _ _ => rfl⟩

/-! ## A command sent again -/

/-- The instructions whose frame is CLR_TIMER's or CLR_WDT's. -/
theorem eq_clear_of_fields {i : Instr} {n : Command} {x : Nat} (hf : i.fields = .command n x)
    (hn : n = .clrTimer ∨ n = .clrWdt) : (∃ x, i = .clrTimer x) ∨ ∃ x, i = .clrWdt x := by
  cases i with
  | clrTimer x => exact Or.inl ⟨x, rfl⟩
  | clrWdt x => exact Or.inr ⟨x, rfl⟩
  | _ => rcases hn with rfl | rfl <;> cases hf

/-- SYS_DIS a second time finds the bias generator as the first one left it (R122). -/
theorem lcdAfterSysDis_idem (m : Meanings) (lcd : OnOff) :
    lcdAfterSysDis m (lcdAfterSysDis m lcd) = lcdAfterSysDis m lcd := by
  unfold lcdAfterSysDis
  split_ifs <;> rfl

/-- In a second window a command's rule finds its fields already set; only the two clears count on (R59). -/
theorem perform_perform_closed (m : Meanings) (c : Code) (t : Target) (n : Command) (ht : n ≠ .clrTimer)
    (hw : n ≠ .clrWdt) :
    (perform m c (perform m c t.opened n).1.closed.opened n).1.closed = (perform m c t.opened n).1.closed := by
  cases n with
  | clrTimer => exact absurd rfl ht
  | clrWdt => exact absurd rfl hw
  | sysDis =>
    exact congrArg (fun lcd => { (perform m c t.opened .sysDis).1.closed with
      cfg := { t.cfg with osc := .off, lcd := lcd } }) (lcdAfterSysDis_idem m t.cfg.lcd)
  | _ => rfl

/-- A command the ENCODER sends performs its rule between the opening and the closing of its window, and the ENCODER
can send again with the same parameters. -/
theorem exec_command_sent {i : Instr} {n : Command} {x : Nat} {s : State} (hf : i.fields = .command n x)
    (hi : i.wellFormed = true) (hc : s.params.codes.Has i) (h : CanSend s) :
    ∃ t, exec i s = .next t ∧ CanSend t ∧ t.params = s.params ∧
      t.target = (perform s.params.meanings (s.params.codes.codeWith n x) s.target.opened n).1.closed := by
  obtain ⟨st, hr⟩ := receiveList_encode_command hc hf s.target
  refine ⟨_, exec_send i s (instrFault_wellFormed _ hi) h, ?_⟩
  rw [sendFrame_eq _ (encode_ne_nil _ i) s h.quiet, hr]
  exact ⟨sentState_canSend _ _ h.encoder h.ready h.quiet.rd, rfl, rfl⟩

/-- Settles O20: the second frame performs the rule on a TARGET where it has already been performed. -/
theorem repeatedCommand : Obligations.RepeatedCommand := by
  intro i s hcmd hwf hc h htimer hwdt
  obtain ⟨n, x, hf⟩ := fields_of_isCommand hcmd
  obtain ⟨t, hst, ht, hparams, htarget⟩ := exec_command_sent hf hwf hc h
  obtain ⟨u, htu, -, -, hu⟩ := exec_command_sent hf hwf (hparams ▸ hc) ht
  refine ⟨t, u, hst, htu, ?_⟩
  have hclear : ¬(n = .clrTimer ∨ n = .clrWdt) := fun hn =>
    (eq_clear_of_fields hf hn).elim (fun ⟨x, e⟩ => htimer x e) (fun ⟨x, e⟩ => hwdt x e)
  rw [not_or] at hclear
  rw [hu, hparams, htarget]
  exact perform_perform_closed _ _ s.target n hclear.1 hclear.2

/-! ## One nibble at a time -/

/-- A received bit leaves the memory alone or completes a nibble (R162). -/
theorem receive_ram_or_storeNibble {p : Params} (b : Bool) (t : Target) :
    (receive p b t).1.ram = t.ram ∨ ∃ v, receive p b t = storeNibble v t := by
  unfold receive
  cases t.rx.st with
  | idle | discard | cmdDone => exact Or.inl rfl
  | id bs | addr bs => left; simp only []; split_ifs <;> rfl
  | cmd bs => left; simp only []; split_ifs <;> [rfl; exact execute_ram ..]
  | data bs => simp only []; split_ifs <;> [exact Or.inl rfl; exact Or.inr ⟨_, rfl⟩]

/-- A completed nibble goes to the cell at the pointer, or, past cell 31, nowhere (R162). -/
theorem storeNibble_ram (v : Nibble) (t : Target) :
    (storeNibble v t).1.ram = t.ram ∨
      t.rx.ptr < 32 ∧ (storeNibble v t).1.rx.ptr = t.rx.ptr + 1 ∧ (storeNibble v t).1.ram = t.ram.put t.rx.ptr v := by
  unfold storeNibble
  split_ifs with h
  · exact Or.inr ⟨h, rfl, rfl⟩
  · exact Or.inl rfl

/-- A burst is the writes of its nibbles, each with its address, in order (R55). -/
theorem putAll_eq_foldl_put (m : Memory) (a : Nat) (ds : List Nibble) :
    m.putAll a ds = (ds.zipIdx a).foldl (fun m p => m.put p.2 p.1) m := by
  induction ds generalizing m a with
  | nil => rfl
  | cons d ds ih => rw [Memory.putAll, ih, List.zipIdx_cons, List.foldl_cons]

/-- Settles O36: a bit stores only where it completes a nibble, and a burst completes with `putAll`. -/
theorem oneNibbleAtATime : Obligations.OneNibbleAtATime := by
  refine ⟨fun p b t => ?_, fun a ds s hfit h => ?_⟩
  · rcases receive_ram_or_storeNibble (p := p) b t with hr | ⟨v, hr⟩
    · exact Or.inl hr
    · rw [hr]
      exact (storeNibble_ram v t).imp_right fun ⟨hp, hptr, hram⟩ => ⟨hp, hptr, v, hram⟩
  · exact ⟨_, (completes_write (.wrb a ds) a ds rfl hfit).2 s (has_write _ rfl) h, putAll_eq_foldl_put _ _ ds⟩

/-! ## The canonical form -/

theorem runFrame_memory {d : Driver} {f : Frame} {s t : State} (h : runFrame d f s = .next t)
    (hm : s.target.ram.wf) : t.target.ram.wf := by
  rcases runFrame_cases d f s with ⟨-, hf⟩ | ⟨u, hu, hcases⟩
  · rw [h] at hf; cases hf
  · rw [h] at hu
    cases hu
    rcases hcases with ⟨g, rfl⟩ | ⟨g, rfl⟩ | ⟨k, rfl⟩
    · exact (window_keeps g { s with driver := d }).memory hm
    · exact (sendFrame_keeps g { s with driver := d }).memory hm
    · exact hm

/-- `construct` reaches the TARGET only by driving the lines high (R180). -/
theorem construct_target (c d : Lines Bool) (s : State) :
    (construct c d s).target = s.target ∨ (construct c d s).target = (driveHigh s).target := by
  unfold construct
  simp only
  split_ifs
  · cases firstRefused c with
    | some l => exact Or.inl rfl
    | none =>
      cases firstRefused d with
      | some l => exact Or.inl rfl
      | none => exact Or.inr rfl
  · exact Or.inl rfl

/-- A call reaches the TARGET only if it is `construct`, by driving the lines high (R180, R193). -/
theorem issue_target (op : HostOp) (s : State) :
    (issue op s).target = s.target ∨ (issue op s).target = (driveHigh s).target := by
  by_cases hc : ∃ c d, op = .construct c d
  · obtain ⟨c, d, rfl⟩ := hc
    exact construct_target c d s
  · rcases issue_cases op s (fun c d e => hc ⟨c, d, e⟩) with ⟨k, -, h⟩ | ⟨-, h⟩ <;> rw [h] <;> exact Or.inl rfl

theorem issue_memory (op : HostOp) (s : State) (hm : s.target.ram.wf) : (issue op s).target.ram.wf := by
  rcases issue_target op s with h | h <;> rw [h]
  · exact hm
  · exact (driveHigh_keeps s).memory hm

/-- After an interval below the bounds every cell is `Unknown` (R114). -/
theorem shortInterval_ram (s : State) : (shortInterval s).target.ram = [] := by
  rw [shortInterval_eq]
  rfl

/-- Settles O38, by the cases of a step: the wire keeps the form, and a drawn memory and the one at power-on have it. -/
theorem everyStepKeepsMemory : Obligations.EveryStepKeepsMemory := by
  intro s t hm h
  cases stepped_of_step h with
  | tick => exact (tick_keeps s).memory hm
  | frame f rest _ _ _ hr => exact runFrame_memory hr hm
  | sleep q rest => exact (wait_keeps (.sleep q) (setTodo rest s)).memory hm
  | finish => exact hm
  | call op rest => exact issue_memory op { s with inbox := rest } hm
  | window f rest _ _ _ _ _ hr => exact runFrame_memory hr hm
  | edge l b rest => exact (foreignEdge_keeps l b { s with inbox := rest, driver := .foreign }).memory hm
  | tooShort rest => rw [shortInterval_ram]; exact ⟨List.Pairwise.nil, nofun⟩
  | power rest => exact powerOn_wf s.params.porRam
  | wait => exact hm

end Sys2Proof.Machine
end

section
/-! SUPPORT. The obligations of 30_encoding: the frames by their bits (R72 to R75), the decoder and the encoder as each
other's inverse (R71 to R82), what the ENCODER admits (R77), and the windows that end in a fault (R82, R84, R236,
R239). -/

namespace Sys2Proof.Machine

/-! ## Decoding an encoded instruction -/

/-- The two operands of a command whose ignored bits stand apart, out of the one number they make (R79). -/
theorem ofNat_append_low {v w : Nat} (y : BitVec v) (x : BitVec w) : BitVec.ofNat w (y ++ x).toNat = x := by
  rw [BitVec.ofNat_toNat, BitVec.setWidth_append_eq_right]

theorem ofNat_append_high {v w : Nat} (y : BitVec v) (x : BitVec w) :
    BitVec.ofNat v ((y ++ x).toNat / 2 ^ w) = y := by
  apply BitVec.eq_of_toNat_eq
  rw [BitVec.toNat_ofNat, BitVec.toNat_append, ← Nat.shiftRight_eq_div_pow, Nat.shiftRight_or_distrib,
    Nat.shiftLeft_shiftRight, Nat.shiftRight_eq_div_pow, Nat.div_eq_of_lt x.isLt, Nat.or_zero, Nat.mod_eq_of_lt y.isLt]

/-- A command and its ignored bits determine the instruction. -/
theorem toInstr_of_fields {i : Instr} {n : Command} {x : Nat} (hf : i.fields = .command n x) : n.toInstr x = i := by
  cases i with
  | wr a d => cases hf
  | wrb a ds => cases hf
  | bias1_2_2com y x | bias1_2_3com y x | bias1_2_4com y x | bias1_3_2com y x | bias1_3_3com y x | bias1_3_4com y x
  | irqDis y x | irqEn y x | f1 y x | f2 y x | f4 y x | f8 y x | f16 y x | f32 y x | f64 y x | f128 y x =>
    cases hf
    exact congrArg₂ _ (ofNat_append_high y x) (ofNat_append_low y x)
  | _ =>
    cases hf
    simp [Command.toInstr]

/-- A command is one of the code table where its code looks it up and has its ignored bits in their places; the converse
of `lookup_of_has`. -/
theorem has_command {codes : CodeTable} {i : Instr} {n : Command} {x : Nat} (hf : i.fields = .command n x)
    (hl : codes.lookup (codes.codeWith n x) = some n)
    (hg : gather (codes.entry n).free (codes.codeWith n x).toNat = x) : codes.Has i := by
  have hc : isCommand i = true := by unfold isCommand; rw [hf]
  have hi : n.toInstr x = i := toInstr_of_fields hf
  rw [CodeTable.Has, encode_command hf, canon_command hc, decode_commandFrame, hl]
  simp only [hg, hi, hf, if_true]

/-- In the table of R80 a command's code stands for it with any of the ignored bits its instruction holds: CLR_TIMER's
third one, which CLR_WDT's row compares, is in no instruction (R81). -/
theorem defaultCodes_command {i : Instr} {n : Command} {x : Nat} (hf : i.fields = .command n x) :
    Config.codes.lookup (Config.codes.codeWith n x) = some n ∧
      gather (Config.codes.entry n).free (Config.codes.codeWith n x).toNat = x := by
  cases i with
  | wr a d => cases hf
  | wrb a ds => cases hf
  | _ => cases hf; decide +kernel +revert

/-- Every instruction is one of the default table. -/
theorem defaultCodes_has (i : Instr) : Config.codes.Has i := by
  cases hf : i.fields with
  | command n x => exact (defaultCodes_command hf).elim (has_command hf)
  | write a ds => exact has_write _ hf

/-- A sound table has every instruction that the ENCODER may send, since a command among them has its ignored bits 0. -/
theorem has_of_wellFormed {codes : CodeTable} (hs : codes.Sound) {i : Instr} (hw : i.wellFormed = true) :
    codes.Has i := by
  cases hf : i.fields with
  | command n x =>
    obtain ⟨-, rfl⟩ := (wellFormed_command hf).mp hw
    exact toInstr_of_fields hf ▸ has_zero hs n
  | write a ds => exact has_write _ hf

/-- Settles O5: a command is looked up by its own code, and a write frame holds its fields one after the other. -/
theorem encodedInstructionsDecode : Obligations.EncodedInstructionsDecode :=
  ⟨defaultCodes_has, fun _ _ hs hw => has_of_wellFormed hs hw⟩

/-! ## Encoding a decoded frame -/

/-- The frames that decode: a command frame, or a write frame of whole nibbles (R71 to R75). -/
theorem frame_of_decode {codes : CodeTable} {f : Frame} {i : Instr} (h : decode codes f = .ok i) :
    (∃ c, f = commandFrame c) ∨ ∃ a ds, f = writeFrame a ds := by
  unfold decode at h
  split_ifs at h with hlen hcmd hwr
  · left
    unfold decodeCommand at h
    split_ifs at h with h9
    exact ⟨_, by rw [← commandFrame_of_bits _ h9, ← hcmd, List.take_append_drop]⟩
  · right
    unfold decodeWrite at h
    split_ifs at h with h6
    cases hn : nibblesOf ((f.drop 3).drop 6) with
    | none => rw [hn] at h; cases h
    | some ds =>
      refine ⟨BitVec.ofNat 6 (valueOf ((f.drop 3).take 6)), ds, ?_⟩
      have h6' : ((f.drop 3).take 6).length = 6 := by rw [List.length_take]; omega
      rw [writeFrame, bitsOf_toNat_ofNat _ h6', nibblesOf_inv _ _ hn, ← hwr, List.append_assoc, List.take_append_drop,
        List.take_append_drop]

theorem encode_of_decode {codes : CodeTable} {f : Frame} {i : Instr} (h : decode codes f = .ok i) :
    encode codes i = f := by
  rcases frame_of_decode h with ⟨c, rfl⟩ | ⟨a, ds, rfl⟩
  · obtain ⟨-, -, -, he⟩ := decode_commandFrame_ok h
    exact he
  · rw [decode_writeFrame] at h
    cases h
    exact encode_writeInstr codes a ds

/-- In the table of R80 the ignored bits of a code fit the instruction of the command it stands for: a code of
CLR_TIMER's row with the third one set is CLR_WDT's (R81). -/
theorem defaultCodes_representable : ∀ c : Code, ∀ n ∈ Config.codes.lookup c,
    (n.toInstr (gather (Config.codes.entry n).free c.toNat)).fields =
      .command n (gather (Config.codes.entry n).free c.toNat) := by
  decide +kernel

/-- Settles O6: a frame that decodes has the bits of its fields, and under R80 no code's ignored bits are too many. -/
theorem decodedFramesReencode : Obligations.DecodedFramesReencode := by
  refine ⟨fun _ _ _ => encode_of_decode, fun c n hl => ?_⟩
  have hf := defaultCodes_representable c n hl
  refine ⟨_, _, ?_, hf⟩
  rw [decode_commandFrame, hl]
  exact if_pos hf

/-! ## The fields of a frame by their places -/

/-- A field after other bits is the low part of their number. -/
theorem valueOf_append_bitsOf (bs : List Bool) {w v : Nat} (h : v < 2 ^ w) :
    valueOf (bs ++ bitsOf w v) = valueOf bs <<< w ||| v := by
  rw [valueOf, List.foldl_append, valueOf_acc, Nat.mod_eq_of_lt h, Nat.mul_comm, Nat.two_pow_add_eq_or_of_lt h,
    Nat.mul_comm, Nat.shiftLeft_eq]
  rfl

/-- Settles O2: the flag is the three highest bits of the twelve. -/
theorem commandFrameFormat : Obligations.CommandFrameFormat := fun c =>
  ⟨rfl, commandFrame_length c, valueOf_append_bitsOf commandFlag c.isLt⟩

theorem singleWrite_value (a : Addr) (d : Nibble) :
    valueOf (writeFrame a [d]) = 0x1400 ||| a.toNat <<< 4 ||| d.toNat := by
  have hd : writeFrame a [d] = (writeFlag ++ bitsOf 6 a.toNat) ++ bitsOf 4 d.toNat := rfl
  rw [hd, valueOf_append_bitsOf _ d.isLt, valueOf_append_bitsOf _ a.isLt, Nat.shiftLeft_or_distrib]
  rfl

/-- Settles O3: the data is the lowest four bits of the thirteen, the address the six above them. -/
theorem singleWriteFrameFormat : Obligations.SingleWriteFrameFormat := fun _ a d =>
  ⟨rfl, writeFrame_length a [d], singleWrite_value a d⟩

theorem writeFrame_take_head (a : Addr) (ds : List Nibble) :
    (writeFrame a ds).take 9 = [true, false, true] ++ bitsOf 6 a.toNat := by
  rw [writeFrame]
  exact List.take_left' (by simp [writeFlag])

/-- The nibble of number `i` stands `4 i` bits behind the first (R74). -/
theorem nibbleBits_drop_take {ds : List Nibble} {i : Nat} {d : Nibble} (h : ds[i]? = some d) :
    ((ds.flatMap (fun d => bitsOf 4 d.toNat)).drop (4 * i)).take 4 = bitsOf 4 d.toNat := by
  induction ds generalizing i with
  | nil => cases h
  | cons e ds ih =>
    rw [List.flatMap_cons]
    cases i with
    | zero =>
      cases h
      exact List.take_left' (bitsOf_length 4 _)
    | succ i =>
      have hi : 4 * (i + 1) = (bitsOf 4 e.toNat).length + 4 * i := by rw [bitsOf_length]; omega
      rw [hi, List.drop_length_add_append]
      exact ih h

theorem writeFrame_drop_take {a : Addr} {ds : List Nibble} {i : Nat} {d : Nibble} (h : ds[i]? = some d) :
    ((writeFrame a ds).drop (9 + 4 * i)).take 4 = bitsOf 4 d.toNat := by
  have hl : (writeFlag ++ bitsOf 6 a.toNat).length = 9 := by simp [writeFlag]
  rw [writeFrame, ← hl, List.drop_length_add_append]
  exact nibbleBits_drop_take h

/-- Settles O4: the head has nine bits and every nibble four. -/
theorem burstFrameFormat : Obligations.BurstFrameFormat := fun _ a ds =>
  ⟨writeFrame_length a ds, writeFrame_take_head a ds, fun _ _ => writeFrame_drop_take, fun _ => rfl⟩

/-- Settles O8: the words are closed, and the decoder computes. -/
theorem specWordsDecode : Obligations.SpecWordsDecode := by
  unfold Obligations.SpecWordsDecode
  decide

/-! ## The most specific row -/

/-- A row found compares at least as many bits as `q`. -/
def Covers (best : Option Row) (q : Row) : Prop := ∃ b, best = some b ∧ q.weight ≤ b.weight

/-- One row looked at for the function code `k` (R81): the step of `findRow`. -/
def pickRow (k : BitVec 8) (best : Option Row) (r : Row) : Option Row := if r.hits k then some (r.better best) else best

theorem findRow_eq_foldl (rows : List Row) (c : Code) :
    findRow rows c = rows.foldl (pickRow (c.extractLsb' 1 8)) none := rfl

/-- Of two rows the better one compares at least as many bits as either (R81). -/
theorem covers_better (r : Row) (best : Option Row) :
    Covers (some (r.better best)) r ∧ ∀ q, Covers best q → Covers (some (r.better best)) q := by
  cases best with
  | none => exact ⟨⟨r, rfl, Nat.le_refl _⟩, fun q ⟨b, hb, _⟩ => nomatch hb⟩
  | some b =>
    by_cases h : b.weight < r.weight
    · have hr : r.better (some b) = r := if_pos h
      rw [hr]
      refine ⟨⟨r, rfl, Nat.le_refl _⟩, ?_⟩
      rintro q ⟨_, ⟨⟩, hq⟩
      exact ⟨r, rfl, by omega⟩
    · have hb : r.better (some b) = b := if_neg h
      rw [hb]
      exact ⟨⟨b, rfl, by omega⟩, fun _ => id⟩

theorem covers_pickRow {k : BitVec 8} {best : Option Row} {q : Row} (r : Row) (h : Covers best q) :
    Covers (pickRow k best r) q := by
  unfold pickRow
  split_ifs
  · exact (covers_better r best).2 q h
  · exact h

theorem covers_foldl_pickRow {k : BitVec 8} {best : Option Row} {q : Row} (rows : List Row) (h : Covers best q) :
    Covers (rows.foldl (pickRow k) best) q := by
  induction rows generalizing best with
  | nil => exact h
  | cons r rows ih => exact ih (covers_pickRow r h)

/-- No matching row compares more bits than the row found (R81). -/
theorem covers_findRow {rows : List Row} {c : Code} {q : Row} (hq : q ∈ rows)
    (hh : q.hits (c.extractLsb' 1 8) = true) : Covers (findRow rows c) q := by
  obtain ⟨before, behind, rfl⟩ := List.append_of_mem hq
  rw [findRow_eq_foldl, List.foldl_append, List.foldl_cons]
  refine covers_foldl_pickRow behind ?_
  rw [pickRow, if_pos hh]
  exact (covers_better q _).1

theorem findRow_none_iff (rows : List Row) (c : Code) :
    findRow rows c = none ↔ ∀ q ∈ rows, q.hits (c.extractLsb' 1 8) = false := by
  constructor
  · intro hn q hq
    by_contra hh
    obtain ⟨b, hb, -⟩ := covers_findRow hq (eq_true_of_ne_false hh)
    rw [hn] at hb
    cases hb
  · intro hmiss
    cases hr : findRow rows c with
    | none => rfl
    | some r =>
      obtain ⟨hmem, hhit⟩ := findRow_some hr
      rw [hmiss r hmem] at hhit
      cases hhit

/-- The reserved codes of a table are those no command's row matches (R82). -/
theorem lookup_none_iff (codes : CodeTable) (c : Code) :
    codes.lookup c = none ↔ ∀ n ∈ Command.all, Row.hits ⟨n, codes.entry n⟩ (c.extractLsb' 1 8) = false := by
  rw [CodeTable.lookup, Option.map_eq_none_iff, findRow_none_iff, CodeTable.rows, List.forall_mem_map]

/-- Bit `c[0]` is not part of the function code (R79). -/
theorem extractLsb'_append_bit (k : BitVec 8) (x : BitVec 1) : (k ++ x : Code).extractLsb' 1 8 = k :=
  BitVec.extractLsb'_append_eq_left

/-- Settles O7: the row found is kept against every lighter one, and of the 256 function codes R80's rows leave out
those of R82. -/
theorem commandDecoding : Obligations.CommandDecoding := by
  refine ⟨fun rows c r hr => ?_, findRow_none_iff, by decide, fun k x => ?_⟩
  · obtain ⟨hmem, hhit⟩ := findRow_some hr
    refine ⟨hmem, hhit, fun q hq hh => ?_⟩
    obtain ⟨b, hb, hle⟩ := covers_findRow hq hh
    rw [hr] at hb
    cases hb
    exact hle
  · rw [lookup_none_iff, extractLsb'_append_bit]
    revert k
    decide +kernel

/-! ## What the ENCODER admits -/

/-- Under a sound table a command of it is well-formed where its code is the canonical one of a command other than TEST:
that command is then its own, and its ignored bits are 0 (R77). -/
theorem wellFormed_iff_canonical {codes : CodeTable} {i : Instr} {n : Command} {x : Nat} (hs : codes.Sound)
    (hc : codes.Has i) (hf : i.fields = .command n x) :
    i.wellFormed = true ↔ ∃ m : Command, m ≠ .test ∧ codes.codeWith n x = codes.code m := by
  rw [wellFormed_command hf]
  constructor
  · rintro ⟨hn, rfl⟩
    exact ⟨n, hn, codeWith_zero codes n⟩
  · rintro ⟨m, hm, he⟩
    obtain ⟨hl, hg⟩ := lookup_of_has hc hf
    rw [he, hs m] at hl
    cases hl
    rw [he] at hg
    exact ⟨hm, hg.symm.trans (gather_canonical _)⟩

theorem instrFault_none_iff {codes : CodeTable} {i : Instr} (hs : codes.Sound) (hc : codes.Has i) :
    instrFault codes i = none ↔ i.wellFormed = true := by
  cases hf : i.fields with
  | command n x =>
    rw [instrFault_command hf, checkCommand_value, wellFormed_iff_canonical hs hc hf]
    simp only [Nat.cast_inj, BitVec.toNat_inj]
  | write a ds => rw [instrFault_write hf, writeFault_none, wellFormed_write hf]

/-- Settles O9: a command's check is that of its code, a write's that of its first and last cell. -/
theorem encoderAdmitsWellFormed : Obligations.EncoderAdmitsWellFormed := by
  refine ⟨fun _ _ => instrFault_none_iff, fun a ds => wellFormed_write rfl, fun codes i hcmd hs hc => ?_⟩
  obtain ⟨n, x, hf⟩ := fields_of_isCommand hcmd
  rw [wellFormed_iff_canonical hs hc hf, encode_command hf]
  exact exists_congr fun m => and_congr_right fun _ => ⟨congrArg commandFrame, commandFrame_inj⟩

/-! ## Windows that end in a fault -/

/-- Where the first bits of a window record one fault and nothing else, the rest of it is ignored (R231, R243). -/
theorem window_discarded {f : Frame} {s : State} {k : BlockFault} (bs : List Bool) (hf : f ≠ []) (q : Quiet s)
    (h : receiveList s.params f s.target.opened = (s.target.opened.setSt .discard, [k])) :
    window (f ++ bs) s = windowState (f ++ bs) (raise k .target s.enc.op s) := by
  rw [window_eq _ (List.append_ne_nil_of_left_ne_nil hf bs) s q, receiveList_append, h,
    receiveList_discard bs _ rfl]
  rfl

theorem receiveList_reserved {p : Params} {c : Code} (t : Target) (h : p.codes.lookup c = none) :
    receiveList p (commandFrame c) t.opened = (t.opened.setSt .discard, [.unknownCommand c]) := by
  rw [receiveList_commandFrame, execute_eq, h]
  rfl

/-- Settles O25: the receiver discards after the flag's third bit and after the code's ninth. -/
theorem reservedWindows : Obligations.ReservedWindows := by
  refine ⟨fun fl bs s hl hcmd hwr q => ?_, fun c bs s hc q => ?_⟩
  · exact window_discarded bs (List.ne_nil_of_length_pos (by omega)) q (receiveList_badFlag fl hl hcmd hwr _)
  · exact window_discarded bs (by nofun) q (receiveList_reserved _ hc)

/-- Only TEST's rule raises a fault (R155). -/
theorem perform_no_fault (m : Meanings) (c : Code) (t : Target) {n : Command} (h : n ≠ .test) :
    (perform m c t n).2 = none := by
  cases n with
  | test => exact absurd rfl h
  | _ => rfl

theorem ne_test_of_fields {i : Instr} {n : Command} {x : Nat} (hf : i.fields = .command n x)
    (h : ∀ x, i ≠ .test x) : n ≠ .test := by
  rintro rfl
  exact h _ (toInstr_of_fields hf).symm

/-- The bits of a command frame perform the command's rule, and the receiver is done (R121). -/
theorem receiveList_encode_done {p : Params} {i : Instr} (hcmd : isCommand i = true) (ht : ∀ x, i ≠ .test x)
    (hc : p.codes.Has i) (t : Target) :
    ∃ u : Target, receiveList p (encode p.codes i) t.opened = (u.setSt .cmdDone, []) := by
  obtain ⟨n, x, hf⟩ := fields_of_isCommand hcmd
  rw [encode_command hf]
  exact ⟨_, receiveList_command _ n t (lookup_of_has hc hf).1 (perform_no_fault _ _ _ (ne_test_of_fields hf ht))⟩

/-- A frame with a bit in it leaves DATA as that bit, whatever it was (R103). -/
theorem dataAfter_of_ne_nil {f : Frame} (hf : f ≠ []) (l l' : Level) : dataAfter f l = dataAfter f l' := by
  unfold dataAfter
  rw [List.getLast?_eq_some_getLast hf]

/-- Settles O26: the frame leaves the receiver done, and one more bit is the fault. -/
theorem frameOverrun : Obligations.FrameOverrun := by
  intro i bs s t hcmd ht hbs hc h hst
  obtain ⟨b, bs, rfl⟩ := List.exists_cons_of_ne_nil hbs
  obtain ⟨u, hu⟩ := receiveList_encode_done hcmd ht hc s.target
  have hne := encode_ne_nil s.params.codes i
  have hne' : encode s.params.codes i ++ b :: bs ≠ [] := List.append_ne_nil_of_left_ne_nil hne _
  rw [exec_foreign i s h, window_eq _ hne s h.quiet, hu] at hst
  cases hst
  rw [window_eq _ hne' s h.quiet, receiveList_append, hu, receiveList_overrun b bs _ rfl]
  simp only [windowState, dataAfter_of_ne_nil hne' s.line.data (dataAfter (encode s.params.codes i) s.line.data)]
  rfl

end Sys2Proof.Machine
end

section
/-! SUPPORT. The obligations of 40_bus_signalling: the block whose lines only its ENCODER drives (R115), windows that
end inside a field (R109), and the waveform of a frame (R110 to R113). -/

namespace Sys2Proof.Machine

/-! ## What an admitted operation sends -/

/-- A frame still to send is admitted where it decodes to an instruction of R77. -/
theorem admitted_frame_iff {codes : CodeTable} {f : Frame} :
    Action.admitted codes (.frame f) = true ↔ ∃ i, decode codes f = .ok i ∧ i.wellFormed = true := by
  cases h : decode codes f <;> simp [Action.admitted, h]

theorem cmdAction_admitted {codes : CodeTable} (hs : codes.Sound) {n : Command} (hn : n ≠ .test) :
    (cmdAction codes n).admitted codes = true := by
  rw [cmdAction, admitted_frame_iff]
  exact ⟨_, decode_code (hs n), (wellFormed_command (toInstr_zero_fields n)).mpr ⟨hn, rfl⟩⟩

theorem fields_writeInstr (a : Addr) (ds : List Nibble) : (writeInstr a ds).fields = .write a ds := by
  match ds with
  | [] => rfl
  | [_] => rfl
  | _ :: _ :: _ => rfl

theorem writeAction_admitted (codes : CodeTable) {a : Int} {ds : List Nibble} (ha : 0 ≤ a) (ha' : a ≤ 31)
    (hfit : a + ds.length ≤ 32) : (writeAction a ds).admitted codes = true := by
  rw [writeAction, admitted_frame_iff]
  refine ⟨_, decode_writeFrame codes _ ds, (wellFormed_write (fields_writeInstr _ ds)).mpr ?_⟩
  rw [toNat_addr a ha ha']
  omega

/-- No category of `initialize`'s arguments holds TEST (R194). -/
theorem ne_test_of_category {category : List Command} {n : Command} (hc : Command.test ∉ category)
    (h : checkCategory category n = none) : n ≠ .test :=
  fun he => hc (he ▸ (checkCategory_none category n).mp h)

/-- The commands of `initialize` with admitted arguments are none of them TEST (R181, R194). -/
theorem initCommands_ne_test {a : InitArgs Command} (h : checkInit a = none) :
    ∀ n ∈ [Command.sysDis, a.watchdog, .sysEn, a.timer, a.clock, a.biasCom, a.toneFreq, a.irq, a.timebase, a.mode,
      .clrTimer, .clrWdt], n ≠ .test := by
  simp only [checkInit, firstFault_none_iff] at h
  obtain ⟨htimer, hwatchdog, hclock, hbias, htone, hirq, htimebase, hmode, -⟩ := h
  simp only [List.forall_mem_cons]
  exact ⟨nofun, ne_test_of_category (by decide) hwatchdog, nofun, ne_test_of_category (by decide) htimer,
    ne_test_of_category (by decide) hclock, ne_test_of_category (by decide) hbias,
    ne_test_of_category (by decide) htone, ne_test_of_category (by decide) hirq,
    ne_test_of_category (by decide) htimebase, ne_test_of_category (by decide) hmode, nofun, nofun, nofun⟩

theorem initActions_admitted {codes : CodeTable} (hs : codes.Sound) {a : InitArgs Command} (h : checkInit a = none) :
    ∀ x ∈ initActions codes a, x.admitted codes = true := by
  refine List.forall_mem_append.mpr ⟨List.forall_mem_map.mpr fun n hn => ?_, List.forall_mem_singleton.mpr ?_⟩
  · exact cmdAction_admitted hs (initCommands_ne_test h n hn)
  · exact writeAction_admitted codes (by decide) (by decide) (by decide)

theorem rangeAction_admitted (codes : CodeTable) {a n : Int} (v : Nibble) (ha : 0 ≤ a) (ha' : a ≤ 31) (hn : 0 ≤ n)
    (hfit : a + n ≤ 32) : (rangeAction a n v).admitted codes = true :=
  writeAction_admitted codes ha ha' (by rw [List.length_replicate]; omega)

theorem length_drawNibbles (n k : Nat) : (drawNibbles n k).length = k := by
  induction k generalizing n with
  | zero => rfl
  | succ k ih => rw [drawNibbles, List.length_cons, ih]

theorem length_shownNibbles (p : Params) (r : Region) (n : Nat) : (shownNibbles p r n).length = 10 := by
  cases r <;> rfl

/-- A rendered value takes at most the ten cells of its region (R215, R216). -/
theorem length_renderNibbles_le (p : Params) (r : Region) (v : HostNum) (d : Nat) :
    (renderNibbles p r v d).1.length ≤ 10 := by
  unfold renderNibbles
  cases scaled p.floatFmt v with
  | notFinite => exact Nat.zero_le 10
  | negative => exact (length_drawNibbles d 10).le
  | number n => exact (length_shownNibbles p r n).le
  | overflow => exact (length_shownNibbles p r _).le

/-- An operation whose operands pass R193 expands to frames that R77 admits; `construct` sends its defaults. -/
theorem expand_admitted {p : Params} (hs : p.codes.Sound) (hd : checkInit p.initDefaults = none) (op : HostOp) (d : Nat)
    (h : operandFault p op = none) : ∀ x ∈ (expand p op d).1, x.admitted p.codes = true := by
  cases op with
  | construct c d => exact initActions_admitted hs hd
  | initialise a => exact initActions_admitted hs h
  | writeCommand c =>
    obtain ⟨-, n, hn, hc⟩ := (checkCommand_none p.codes c).mp h
    refine List.forall_mem_singleton.mpr ?_
    rw [hc, BitVec.ofInt_natCast, BitVec.ofNat_toNat, BitVec.setWidth_eq]
    exact cmdAction_admitted hs hn
  | writeOne a v =>
    simp only [operandFault, firstFault_none_iff, checkAddress_none] at h
    obtain ⟨⟨ha, ha'⟩, -⟩ := h
    exact List.forall_mem_singleton.mpr (writeAction_admitted _ ha ha' (Int.add_le_add_right ha' 1))
  | writeBurst a vs =>
    simp only [operandFault, firstFault_none_iff, firstFault_append_none, checkAddress_none, checkFit_none] at h
    obtain ⟨⟨ha, ha'⟩, -, hfit, -⟩ := h
    exact List.forall_mem_singleton.mpr (writeAction_admitted _ ha ha' (by rwa [List.length_map]))
  | clearRange a n | fillRange a n =>
    simp only [operandFault, firstFault_none_iff, checkAddress_none, checkCount_none, checkFit_none] at h
    obtain ⟨⟨ha, ha'⟩, hn, hfit, -⟩ := h
    exact List.forall_mem_singleton.mpr (rangeAction_admitted _ _ ha ha' hn hfit)
  | displayOn | displayOff => exact List.forall_mem_singleton.mpr (cmdAction_admitted hs nofun)
  | beep v =>
    cases v with
    | finite q =>
      simp only [expand, List.forall_mem_cons]
      exact ⟨cmdAction_admitted hs nofun, rfl, cmdAction_admitted hs nofun, nofun⟩
    | _ => nofun
  | showTemperature v =>
    have := length_renderNibbles_le p .temperature v d
    exact List.forall_mem_singleton.mpr
      (writeAction_admitted _ (by decide) (by decide) (by simp only [Config.tempBase]; omega))
  | showHumidity v =>
    have := length_renderNibbles_le p .humidity v d
    exact List.forall_mem_singleton.mpr
      (writeAction_admitted _ (by decide) (by decide) (by simp only [Config.humBase]; omega))
  | showAllSegments | clearAll | clearTemperatureRegion | clearHumidityRegion =>
    exact List.forall_mem_singleton.mpr (rangeAction_admitted _ _ (by decide) (by decide) (by decide) (by decide))

/-! ## The invariant of a block whose lines only its ENCODER drives -/

/-- Lines and edge detectors left alone stay idle. -/
theorem Quiet.of_eq {s t : State} (q : Quiet s) (hl : t.line = s.line) (hr : t.target.rx = s.target.rx) : Quiet t where
  cs := hl ▸ q.cs
  rd := hl ▸ q.rd
  wr := hl ▸ q.wr
  csSeen := hr ▸ q.csSeen
  wrSeen := hr ▸ q.wrSeen

/-- A machine whose parameters `Owned` asks for has the invariant at power-on (R260). -/
theorem owned_powerOn {p : Params} (n : Nat) {inbox : List Item} (hs : p.codes.Sound)
    (hd : checkInit p.initDefaults = none) (hm : p.porCfg.mode = some .normal) (hi : inbox.all Item.own = true) :
    Owned (State.powerOn p n inbox) where
  codes := hs
  defaults := hd
  porMode := hm
  own := hi
  idle := rfl
  noFrame := rfl
  quiet := nofun
  unsent _ := ⟨rfl, rfl⟩
  admitted := rfl
  receiver := rfl
  memory := powerOn_wf p.porRam
  mode := by
    show p.porCfg.mode.getD (Config.drawMode (n + 11)) = .normal
    rw [hm, Option.getD_some]
  noTargetFault := List.forall_mem_nil _
  faultsOnce := List.nodup_nil

/-- Settles O41: reset is power-on with the default parameters. -/
theorem ownedAtReset : Obligations.OwnedAtReset :=
  owned_powerOn 0 codes_sound (by decide) rfl rfl

/-- The faults that end an operation are the ENCODER's or the renderer's (R231, R234). -/
theorem raiser_ne_target (k : BlockFault) : k.raiser ≠ .target := by
  unfold BlockFault.raiser
  split <;> nofun

theorem Owned.refuse {s : State} (h : Owned s) (k : BlockFault) (op : Option HostOp) : Owned (refuse k op s) :=
  { h with
    quiet := fun hr => (h.quiet hr).of_eq rfl rfl
    unsent := fun _ => ⟨rfl, rfl⟩
    admitted := rfl
    noTargetFault := fun r hr => (mem_addFault.mp hr).elim (fun e => e ▸ raiser_ne_target k) (h.noTargetFault r)
    faultsOnce := nodup_addFault _ h.faultsOnce }

/-- An admitted operation, once taken up, has only admitted frames to send (R77, R193). -/
theorem Owned.beginOp {s : State} (h : Owned s) (hr : s.enc.status = .ready) {op : HostOp}
    (ho : operandFault s.params op = none) : Owned (beginOp op s) :=
  { h with
    quiet := fun hr => (h.quiet hr).of_eq rfl rfl
    unsent := fun hn => absurd hr hn
    admitted := List.all_eq_true.mpr (expand_admitted h.codes h.defaults op s.draws ho) }

/-- A failed construction leaves every line `Unknown` and nothing to send (R180, R268). -/
theorem Owned.constructFailed {s : State} (h : Owned s) (l : Line) (op : HostOp) : Owned (constructFailed l op s) :=
  { h.refuse (.lineAccessError l) (some op) with quiet := nofun, unsent := fun _ => ⟨rfl, rfl⟩ }

/-- Driving every line high makes the lines idle, and the block constructed (R103, R180). -/
theorem Owned.constructed {s : State} (h : Owned s) :
    Owned { driveHigh s with enc := { (driveHigh s).enc with status := .ready } } := by
  obtain ⟨d, hd⟩ := driveHigh_eq s h.receiver
  rw [hd]
  exact { h with quiet := fun _ => ⟨rfl, rfl, rfl, rfl, rfl⟩, unsent := fun hn => absurd rfl hn }

theorem Owned.construct {s : State} (h : Owned s) (c d : Lines Bool) : Owned (construct c d s) := by
  unfold Machine.construct
  simp only
  split_ifs
  · cases firstRefused c with
    | some l => exact h.constructFailed l _
    | none =>
      cases firstRefused d with
      | some l => exact h.constructFailed l _
      | none => exact h.constructed.beginOp rfl rfl
  · exact h.refuse _ _

theorem Owned.issue {s : State} (h : Owned s) (op : HostOp) : Owned (issue op s) := by
  by_cases hc : ∃ c d, op = .construct c d
  · obtain ⟨c, d, rfl⟩ := hc
    exact h.construct c d
  · rcases issue_cases op s (fun c d e => hc ⟨c, d, e⟩) with ⟨k, -, he⟩ | ⟨hnone, he⟩ <;> rw [he]
    · exact h.refuse k _
    · unfold admissionFault at hnone
      split_ifs at hnone with hr
      exact h.beginOp hr hnone

/-- A well-formed frame raises no fault at the TARGET: its command is not TEST, and its nibbles end by cell 31 (R77,
R242). -/
theorem receiveList_wellFormed {p : Params} (hs : p.codes.Sound) {i : Instr} (hw : i.wellFormed = true) (t : Target) :
    ∃ u, receiveList p (encode p.codes i) t.opened = (u, []) := by
  cases hf : i.fields with
  | command n x =>
    have ht : n ≠ .test := ((wellFormed_command hf).mp hw).1
    have hl := (lookup_of_has (has_of_wellFormed hs hw) hf).1
    rw [encode_command hf]
    exact ⟨_, receiveList_command _ n t hl (perform_no_fault _ _ _ ht)⟩
  | write a ds =>
    rw [encode_write hf]
    exact ⟨_, receiveList_writeFrame a ds t ((wellFormed_write hf).mp hw).2⟩

/-- A well-formed frame sent from idle lines leaves them idle, RD as it was and the receiver idle (R103, R108, R109). -/
theorem Owned.exec {s t : State} (h : Owned s) (hc : CanSend s) {i : Instr} (hw : i.wellFormed = true)
    (he : exec i s = .next t) : Owned t := by
  obtain ⟨u, hu⟩ := receiveList_wellFormed h.codes hw s.target
  have hkeeps := sendFrame_keeps (encode s.params.codes i) s
  rw [exec_send i s (instrFault_wellFormed _ hw) hc] at he
  cases he
  rw [sendFrame_eq _ (encode_ne_nil _ i) s hc.quiet, hu] at hkeeps ⊢
  exact
    { h with
      idle := rfl
      noFrame := rfl
      quiet := fun _ => ⟨rfl, hc.quiet.rd, rfl, rfl, rfl⟩
      receiver := rfl
      memory := hkeeps.memory h.memory
      mode := hkeeps.mode h.mode }

/-- Only a constructed block has something to send (R263). -/
theorem Owned.ready_of_todo {s : State} (h : Owned s) {a : Action} {rest : List Action} (hw : s.enc.todo = a :: rest) :
    s.enc.status = .ready := by
  by_contra hn
  rw [(h.unsent hn).1] at hw
  cases hw

theorem Owned.setTodo {s : State} (h : Owned s) {a : Action} {rest : List Action} (hw : s.enc.todo = a :: rest) :
    Owned (setTodo rest s) := by
  have ha := h.admitted
  rw [hw, List.all_cons, Bool.and_eq_true] at ha
  exact
    { h with
      quiet := fun hr => (h.quiet hr).of_eq rfl rfl
      unsent := fun hn => absurd (h.ready_of_todo hw) hn
      admitted := ha.2 }

theorem Owned.driver {s : State} (h : Owned s) (d : Driver) : Owned { s with driver := d } :=
  { h with quiet := fun hr => (h.quiet hr).of_eq rfl rfl }

/-- The next frame is admitted, so it is sent as the well-formed instruction it is (R77). -/
theorem Owned.frame {s t : State} (h : Owned s) {f : Frame} {rest : List Action} (hw : s.enc.todo = .frame f :: rest)
    (hr : runFrame .encoder f (Machine.setTodo rest s) = .next t) : Owned t := by
  have ha := h.admitted
  rw [hw, List.all_cons, Bool.and_eq_true, admitted_frame_iff] at ha
  obtain ⟨⟨i, hd, hi⟩, -⟩ := ha
  have hready := h.ready_of_todo hw
  have hs : Owned { Machine.setTodo rest s with driver := .encoder } := (h.setTodo hw).driver .encoder
  rw [runFrame_ok .encoder f i (Machine.setTodo rest s) hd] at hr
  exact hs.exec ⟨rfl, hready, hs.quiet hready⟩ hi hr

theorem Owned.sleep {s : State} (h : Owned s) (q : Rat) : Owned (sleep q s) :=
  { h with quiet := fun hr => (h.quiet hr).of_eq rfl rfl }

theorem Owned.finishOp {s : State} (h : Owned s) : Owned (finishOp s) :=
  { h with quiet := fun hr => (h.quiet hr).of_eq rfl rfl, unsent := fun hn => ⟨(h.unsent hn).1, rfl⟩ }

/-- The next input is the block's own (R115, R273), and so are those behind it. -/
theorem Owned.own_cons {s : State} (h : Owned s) {it : Item} {rest : List Item} (hi : s.inbox = it :: rest) :
    it.own = true ∧ Owned { s with inbox := rest } := by
  have ho := h.own
  rw [hi, List.all_cons, Bool.and_eq_true] at ho
  exact ⟨ho.1, { h with own := ho.2, quiet := fun hr => (h.quiet hr).of_eq rfl rfl }⟩

/-- Settles O42, by the cases of a step: another agent's inputs are none of the block's own, a frame goes on from idle
lines only, and each other case keeps the invariant. -/
theorem everyStepKeepsOwned : Obligations.EveryStepKeepsOwned := by
  intro s t h hst
  cases stepped_of_step hst with
  | tick hp => exact absurd h.idle hp
  | frame f rest _ _ hw hr => exact h.frame hw hr
  | sleep q rest _ hw => exact (h.setTodo hw).sleep q
  | finish => exact h.finishOp
  | call op rest _ _ _ hi => exact (h.own_cons hi).2.issue op
  | window f rest _ _ _ _ hi => exact absurd (h.own_cons hi).1 nofun
  | edge l b rest _ _ _ hi => exact absurd (h.own_cons hi).1 nofun
  | tooShort rest _ _ _ hi => exact absurd (h.own_cons hi).1 nofun
  | power rest _ _ _ hi => exact owned_powerOn _ h.codes h.defaults h.porMode (h.own_cons hi).2.own
  | wait => exact h

/-! ## Windows that end inside a field -/

/-- A window whose bits raise no fault leaves the target they bring the receiver to, closed (R109). -/
theorem window_of_receiveList {f : Frame} {s : State} {u : Target} (hf : f ≠ []) (q : Quiet s)
    (h : receiveList s.params f s.target.opened = (u, [])) : window f s = windowState f { s with target := u } := by
  rw [window_eq f hf s q, h]
  rfl

/-- A write frame that fits, or has no nibble at all, stores its nibbles and waits for the next one (R160, R162). -/
theorem receiveList_writeFrame_stored {p : Params} {a : Addr} {ds : List Nibble}
    (h : ds = [] ∨ a.toNat + ds.length ≤ 32) (t : Target) :
    receiveList p (writeFrame a ds) t.opened = (t.opened.stored a.toNat ds, []) := by
  rcases h with rfl | h
  · exact (congrArg (receiveList p · t.opened) (List.append_nil _)).trans (receiveList_writeHead a t)
  · exact receiveList_writeFrame a ds t h

/-- Settles O24: the bits of a field that is not complete are only kept, and the rising edge of CS drops them. -/
theorem partialFields : Obligations.PartialFields := by
  refine ⟨fun f s hf hl q => ?_, fun bs s hl q => ?_, fun bs s hl q => ?_, fun a ds bs s hl hfit q => ?_⟩
  · exact window_of_receiveList hf q (u := s.target.opened.setSt (.id f)) (receiveList_id_short f hl s.target)
  · refine window_of_receiveList (by nofun) q (u := s.target.opened.setSt (.cmd bs)) ?_
    rw [receiveList_append, receiveList_commandFlag,
      receiveList_cmd_short bs [] (s.target.opened.setSt (.cmd [])) rfl (by simpa using hl)]
    rfl
  · refine window_of_receiveList (by nofun) q (u := s.target.opened.setSt (.addr bs)) ?_
    rw [receiveList_append, receiveList_writeFlag,
      receiveList_addr_short bs [] (s.target.opened.setSt (.addr [])) rfl (by simpa using hl)]
    rfl
  · refine window_of_receiveList (by nofun) q (u := (s.target.opened.stored a.toNat ds).setSt (.data bs)) ?_
    rw [receiveList_append, receiveList_writeFrame_stored hfit,
      receiveList_partial bs hl (s.target.opened.stored a.toNat ds) rfl]
    rfl

/-! ## The waveform of a frame -/

/-- A frame's waveform: CS down, the bit cells, CS up (R102). -/
theorem frameWave_eq (f : Frame) :
    frameWave f = .set .cs false :: .wait .css :: (cellsWave f ++ [WaveEvent.set .cs true, .wait .gap]) :=
  List.append_assoc ([_, _] ++ cellsWave f) [_] [_]

/-- The bits sampled in the cells of a frame are the frame (R105), and DATA is left at its last bit. -/
theorem sampledBits_cellsWave_append (d : Bool) (f : Frame) (es : List WaveEvent) :
    sampledBits d (cellsWave f ++ es) = f ++ sampledBits (f.getLastD d) es := by
  induction f generalizing d with
  | nil => rfl
  | cons b f ih =>
    cases f with
    | nil => rfl
    | cons c f => exact congrArg (b :: ·) (ih b)

theorem csEvents_append (es es' : List WaveEvent) : csEvents (es ++ es') = csEvents es ++ csEvents es' :=
  List.filterMap_append

/-- The bit cells move WR and DATA only (R101). -/
theorem csEvents_cellsWave (f : Frame) : csEvents (cellsWave f) = [] := by
  induction f with
  | nil => rfl
  | cons b f ih =>
    cases f with
    | nil => rfl
    | cons c f => exact ih

theorem ne_csHigh_of_mem_cellsWave {e : WaveEvent} {f : Frame} (he : e ∈ cellsWave f) : e ≠ .set .cs true := by
  rintro rfl
  have hmem : true ∈ csEvents (cellsWave f) := List.mem_filterMap.mpr ⟨_, he, rfl⟩
  rw [csEvents_cellsWave] at hmem
  cases hmem

/-- Settles O32: a frame the ENCODER sends is recorded as `frameWave`, whose cells sample its bits one by one. -/
theorem oneWindowPerFrame : Obligations.OneWindowPerFrame := by
  intro i s hi h
  refine ⟨_, frameWave (encode s.params.codes i), exec_send i s (instrFault_wellFormed _ hi) h, ?_, rfl, ?_,
    fun d => ?_, fun d => ?_⟩
  · rw [sendFrame_eq _ (encode_ne_nil _ i) s h.quiet]
    rfl
  · have hcs := csEvents_append (cellsWave (encode s.params.codes i)) [.set .cs true, .wait .gap]
    rw [csEvents_cellsWave] at hcs
    rw [frameWave_eq]
    exact congrArg (false :: ·) hcs
  · have hlow := sampledBits_cellsWave_append d (encode s.params.codes i) []
    rw [frameWave_eq, List.takeWhile_cons_of_pos (by simp), List.takeWhile_cons_of_pos (by simp),
      List.takeWhile_append_of_pos (fun _ he => bne_iff_ne.mpr (ne_csHigh_of_mem_cellsWave he)),
      List.takeWhile_cons_of_neg (by simp)]
    exact hlow.trans (List.append_nil _)
  · have hall := sampledBits_cellsWave_append d (encode s.params.codes i) [.set .cs true, .wait .gap]
    rw [frameWave_eq]
    exact hall.trans (List.append_nil _)

/-! ## The least duration of a frame -/

@[simp] theorem minDuration_nil (t : Timing) (g : Duration) : minDuration t g [] = 0 := rfl

@[simp] theorem minDuration_set (t : Timing) (g : Duration) (l : Line) (b : Bool) (es : List WaveEvent) :
    minDuration t g (.set l b :: es) = minDuration t g es := rfl

@[simp] theorem minDuration_wait (t : Timing) (g : Duration) (d : Delay) (es : List WaveEvent) :
    minDuration t g (.wait d :: es) = d.bound t g + minDuration t g es := rfl

theorem minDuration_append (t : Timing) (g : Duration) (es es' : List WaveEvent) :
    minDuration t g (es ++ es') = minDuration t g es + minDuration t g es' := by
  induction es with
  | nil => exact (zero_add _).symm
  | cons e es ih =>
    cases e with
    | set l b => exact ih
    | wait d => rw [List.cons_append, minDuration_wait, minDuration_wait, ih, add_assoc]

/-- The bounds of the waits of one bit cell add up (R101). -/
theorem minDuration_cell (t : Timing) (g : Duration) (b : Bool) (d : Delay) :
    minDuration t g [.set .data b, .set .wr false, .wait .edge, .set .wr true, .wait d] = t.edge + d.bound t g :=
  congrArg (_ + ·) (add_zero _)

/-- Each bit cell takes two edges, the last one an edge and the hold (R101). -/
theorem minDuration_cellsWave (t : Timing) (g : Duration) {f : Frame} (hf : f ≠ []) :
    minDuration t g (cellsWave f) = (2 * f.length - 1) * t.edge + t.csh := by
  induction f with
  | nil => exact absurd rfl hf
  | cons b f ih =>
    cases f with
    | nil =>
      have hcell : minDuration t g (cellsWave [b]) = t.edge + t.csh := minDuration_cell t g b .csh
      rw [hcell, List.length_singleton, Nat.cast_one]
      ring
    | cons c f =>
      have hcell : minDuration t g (cellsWave (b :: c :: f)) =
          t.edge + t.edge + minDuration t g (cellsWave (c :: f)) :=
        (minDuration_append t g _ (cellsWave (c :: f))).trans (congrArg (· + _) (minDuration_cell t g b .edge))
      have hlen : ((b :: c :: f).length : ℚ) = (c :: f).length + 1 := Nat.cast_succ _
      rw [hcell, ih (List.cons_ne_nil c f), hlen]
      ring

theorem minDuration_lowWave (t : Timing) (g : Duration) {f : Frame} (hf : f ≠ []) :
    minDuration t g (lowWave f) = t.css + (2 * f.length - 1) * t.edge + t.csh := by
  have hhead : minDuration t g [.set .cs false, .wait .css] = t.css := add_zero _
  rw [lowWave, minDuration_append, minDuration_append, minDuration_cellsWave t g hf, hhead, minDuration_set,
    minDuration_nil, add_zero, add_assoc]

theorem minDuration_frameWave (t : Timing) (g : Duration) {f : Frame} (hf : f ≠ []) :
    minDuration t g (frameWave f) = t.css + (2 * f.length - 1) * t.edge + t.csh + t.gap := by
  have hgap : minDuration t g [.wait .gap] = t.gap := add_zero _
  rw [frameWave, minDuration_append, minDuration_lowWave t g hf, hgap]

/-- Settles O33: the waits of the bit cells add up, and a command frame has twelve bits. -/
theorem frameDuration : Obligations.FrameDuration := by
  refine ⟨fun t g f hf => ⟨minDuration_lowWave t g hf, minDuration_frameWave t g hf⟩, fun g c => ?_⟩
  have hne : commandFrame c ≠ [] := by nofun
  rw [minDuration_lowWave _ g hne, minDuration_frameWave _ g hne, commandFrame_length]
  norm_num [Config.nominalTiming]

/-! ## Edges outside a frame -/

/-- Settles O34: with CS high the edge reaches the edge detector alone. -/
theorem wrEdgeWithCsHigh : Obligations.WrEdgeWithCsHigh := by
  intro b s hcs
  obtain ⟨d, hd⟩ := onWr_csHigh b { s with line := { s.line with wr := .ofBool b } } hcs
  have hbus : busSet .wr b s = _ := hd
  rw [hbus]
  exact ⟨rfl, rfl, rfl, rfl, rfl, rfl⟩

end Sys2Proof.Machine
end

section
/-! SUPPORT. The obligations of 41_command_frames: which command frames the ENCODER sends (R120), what each command
does (R122 to R156), and what every command frame leaves alone (R17, R39). -/

namespace Sys2Proof.Machine

/-! ## The command frame encoder -/

/-- The lowest bit of a canonical code is the don't-care bit, sent as 0 (R79). -/
theorem canonical_getLsbD_zero (p : CodePattern) : p.canonical.getLsbD 0 = false := by
  rw [CodePattern.canonical, BitVec.getLsbD_append]
  rfl

/-- For the instruction of a command frame the ENCODER checks the frame's code (R77, R120). -/
theorem instrFault_of_decode {codes : CodeTable} {c : Code} {i : Instr} (h : decode codes (commandFrame c) = .ok i) :
    instrFault codes i = checkCommand codes (.value c.toNat) := by
  obtain ⟨n, -, hf, he⟩ := decode_commandFrame_ok h
  rw [encode_command hf] at he
  rw [instrFault_command hf, commandFrame_inj he]

/-- A canonical code other than TEST's passes the check, whatever instruction its frame is (R77). -/
theorem checkCommand_code {codes : CodeTable} {n : Command} (hn : n ≠ .test) :
    checkCommand codes (.value (codes.code n).toNat) = none :=
  (checkCommand_value codes _).mpr ⟨n, hn, rfl⟩

/-- A frame that decodes to an instruction the ENCODER admits is sent bit for bit (R120). -/
theorem exec_decoded {c : Code} {i : Instr} {s : State} (hd : decode s.params.codes (commandFrame c) = .ok i)
    (hk : checkCommand s.params.codes (.value c.toNat) = none) (h : CanSend s) :
    exec i s = .next (sendFrame (commandFrame c) s) := by
  obtain ⟨-, -, -, he⟩ := decode_commandFrame_ok hd
  rw [exec_send i s ((instrFault_of_decode hd).trans hk) h, he]

theorem CanSend.setDriver {s : State} (h : CanSend s) : { s with driver := .encoder } = s := by
  rw [← h.encoder]

/-- The ENCODER sends a canonical command's frame also where the code table makes its bits another instruction, or
none (R14, R120). -/
theorem runFrame_canonical {n : Command} {s : State} (hn : n ≠ .test) (h : CanSend s) :
    runFrame .encoder (commandFrame (s.params.codes.code n)) s =
      .next (sendFrame (commandFrame (s.params.codes.code n)) s) := by
  cases hd : decode s.params.codes (commandFrame (s.params.codes.code n)) with
  | ok i => rw [runFrame_ok _ _ i s hd, h.setDriver, exec_decoded hd (checkCommand_code hn) h]
  | error e =>
    have hnone := (bitsFault_none s.params.codes _).mpr ⟨n, hn, rfl⟩
    rw [runFrame_bits _ s e hd, h.setDriver, hnone, sendChecked_none _ h.ready,
      onQuietWire_next _ (not_wireBusy h.quiet)]

/-- Settles O10: the check compares the frame's code with the canonical ones, whatever the frame decodes to. -/
theorem commandFrameEncoder : Obligations.CommandFrameEncoder := by
  refine ⟨fun _ => rfl, fun codes n => canonical_getLsbD_zero _, fun n s hn hs h => ?_, fun _ _ => runFrame_canonical,
    fun c i s hc h hd => ?_, fun p v => checkCommand_refused⟩
  · have hd := decode_code (hs n)
    exact ⟨_, hd, exec_decoded hd (checkCommand_code hn) h⟩
  · have hk : instrFault s.params.codes i = some (.operandRange (.command (.value c.toNat))) :=
      (instrFault_of_decode hd).trans (checkCommand_refused fun n hn he =>
        hc n hn (BitVec.eq_of_toNat_eq (Int.ofNat_inj.mp he)))
    exact ⟨_, by rw [exec_eq_transmit, transmit_refused i s _ h.encoder h.ready hk], rfl⟩

/-! ## What each command does -/

/-- A command whose rule writes configuration fields only, as the meanings of the fields say, completes with that
write. -/
theorem completes_mapCfg_meanings {i : Instr} {n : Command} {x : Nat} (g : Meanings → Cfg → Cfg)
    (hf : i.fields = .command n x) (hp : ∀ m c t, perform m c t n = ({ t with cfg := g m t.cfg }, none)) :
    Completes i (fun s => mapCfg (g s.params.meanings) s) :=
  completes_command i n x _ (fun m t => { t with cfg := g m t.cfg }) hf hp (fun _ _ => rfl) (fun _ _ => rfl)

/-- The same where the rule does not read the meanings, as all but SYS_DIS's do not. -/
theorem completes_mapCfg {i : Instr} {n : Command} {x : Nat} {g : Cfg → Cfg} (hf : i.fields = .command n x)
    (hp : ∀ m c t, perform m c t n = ({ t with cfg := g t.cfg }, none)) : Completes i (mapCfg g) :=
  completes_mapCfg_meanings (fun _ => g) hf hp

/-- Under the spec's meanings the glass is driven from both fields (R43, log 7). -/
theorem displayDriven_iff (c : Cfg) : displayDriven Config.meanings c = true ↔ c.osc = .on ∧ c.lcd = .on := by
  simp [displayDriven, Config.meanings]

/-- Under the spec's meanings the tone sounds only while the oscillator runs (R43, log 7). -/
theorem toneSounding_iff (c : Cfg) : toneSounding Config.meanings c = true ↔ c.osc = .on ∧ c.tone = .on := by
  simp [toneSounding, Config.meanings]

/-- Settles O11: SYS_DIS alone reads the meanings. -/
theorem oscillatorAndLcdCommands : Obligations.OscillatorAndLcdCommands := by
  refine ⟨fun x => ⟨?_, ?_, ?_, ?_⟩, fun _ => rfl, displayDriven_iff⟩
  · exact completes_mapCfg_meanings (i := .sysDis x)
      (fun m c => { c with osc := .off, lcd := lcdAfterSysDis m c.lcd }) rfl fun _ _ _ => rfl
  all_goals exact completes_mapCfg rfl fun _ _ _ => rfl

/-- Settles O12: each of the four rules writes its own output enable. -/
theorem timerAndWatchdogOutputs : Obligations.TimerAndWatchdogOutputs := fun _ => by
  refine ⟨?_, ?_, ?_, ?_⟩ <;> exact completes_mapCfg rfl fun _ _ _ => rfl

/-- Settles O13: each rule writes the output or the frequency; when the tone sounds is a matter of the meanings. -/
theorem toneCommands : Obligations.ToneCommands :=
  ⟨fun _ => ⟨completes_mapCfg rfl fun _ _ _ => rfl, completes_mapCfg rfl fun _ _ _ => rfl⟩,
    fun _ => completes_mapCfg rfl fun _ _ _ => rfl, fun _ => completes_mapCfg rfl fun _ _ _ => rfl,
    toneSounding_iff, rfl, rfl⟩

/-- Settles O14: the rule sets the counter to 0, and by the end of the window it has run on. -/
theorem counterClears : Obligations.CounterClears := by
  refine ⟨fun x => ?_, fun x => ?_, fun p c t hl => ?_, fun p c t hl => ?_⟩
  · exact completes_command _ .clrTimer x.toNat _ (fun _ => clrTimerEffect) rfl (fun _ _ _ => rfl) (fun _ _ => rfl)
      (fun _ _ => rfl)
  · exact completes_command _ .clrWdt x.toNat _ (fun _ => clrWdtEffect) rfl (fun _ _ _ => rfl) (fun _ _ => rfl)
      (fun _ _ => rfl)
  · rw [execute_some c .clrTimer t hl rfl]
    rfl
  · rw [execute_some c .clrWdt t hl rfl]
    rfl

/-- Settles O15: each rule writes the clock source; what the sources are is a matter of the meanings. -/
theorem clockSourceCommands : Obligations.ClockSourceCommands :=
  ⟨fun _ => by refine ⟨?_, ?_, ?_⟩ <;> exact completes_mapCfg rfl fun _ _ _ => rfl, rfl, rfl, rfl⟩

/-- Settles O16: each rule writes the bias and the commons. -/
theorem biasCommands : Obligations.BiasCommands := fun _ _ => by
  refine ⟨?_, ?_, ?_, ?_, ?_, ?_⟩ <;> exact completes_mapCfg rfl fun _ _ _ => rfl

/-- Settles O17: each rule writes the IRQ output enable or the mode. -/
theorem irqAndNormalCommands : Obligations.IrqAndNormalCommands :=
  ⟨fun _ _ => ⟨completes_mapCfg rfl fun _ _ _ => rfl, completes_mapCfg rfl fun _ _ _ => rfl⟩,
    fun _ => completes_mapCfg rfl fun _ _ _ => rfl⟩

/-- Settles O18: each of the eight rules writes its own frequency. -/
theorem timeBaseCommands : Obligations.TimeBaseCommands := fun _ _ => by
  refine ⟨?_, ?_, ?_, ?_, ?_, ?_, ?_, ?_⟩ <;> exact completes_mapCfg rfl fun _ _ _ => rfl

/-! ## TEST -/

/-- TEST's ninth bit is recorded, and the receiver discards (R155, R238). -/
theorem receiveList_test {p : Params} {c : Code} (t : Target) (h : p.codes.lookup c = some .test) :
    receiveList p (commandFrame c) t.opened = (t.opened.setSt .discard, [.testModeUnmodelled c]) := by
  rw [receiveList_commandFrame, execute_eq, h]
  rfl

/-- Under a sound table TEST's code is no other command's canonical one, so the ENCODER refuses it with any ignored
bit (R77, R155). -/
theorem instrFault_test {codes : CodeTable} {x : BitVec 1} (hs : codes.Sound) (hc : codes.Has (.test x)) :
    instrFault codes (.test x) = some (.operandRange (.command (.value (codes.codeWith .test x.toNat).toNat))) := by
  rw [instrFault_command rfl]
  refine checkCommand_refused fun n hn he => hn ?_
  have hl := (lookup_of_has hc rfl).1
  rw [BitVec.eq_of_toNat_eq (Int.ofNat_inj.mp he), hs n] at hl
  exact Option.some.inj hl

/-- Settles O19: the TARGET discards at TEST's ninth bit, and the ENCODER's check fails on TEST's code and on its
name. -/
theorem testCommand : Obligations.TestCommand := by
  refine ⟨fun x s hc h => ?_, fun x s hs hc h => ?_, fun _ => rfl, by decide⟩
  · have hrec := receiveList_test s.target (lookup_of_has hc rfl).1
    have hwin := window_discarded [] (encode_ne_nil _ (.test x)) h.quiet hrec
    rw [List.append_nil] at hwin
    rw [exec_foreign _ s h, hwin]
  · rw [exec_eq_transmit, transmit_refused _ s _ h.encoder h.ready (instrFault_test hs hc)]

/-! ## What a command frame leaves alone -/

/-- The state with what the receiver has made of a window's bits: the TARGET, and the faults recorded (R105, R231). -/
def withReceived (r : Target × List BlockFault) (s : State) : State :=
  { s with target := r.1, faults := noteFaults s.enc.op r.2 s.faults }

/-- A frame sent, or another agent's window, is its bits received between the edges of CS. -/
theorem exec_received {i : Instr} {s t : State} (h : CanWindow s ∨ CanSend s ∧ i.wellFormed = true)
    (he : exec i s = .next t) :
    ∃ r, r = receiveList s.params (encode s.params.codes i) s.target.opened ∧
      (t = sentState (encode s.params.codes i) (withReceived r s) ∨
        t = windowState (encode s.params.codes i) (withReceived r s)) := by
  have hne := encode_ne_nil s.params.codes i
  refine ⟨_, rfl, ?_⟩
  rcases h with h | ⟨h, hi⟩
  · rw [exec_foreign i s h, window_eq _ hne s h.quiet] at he
    cases he
    exact Or.inr rfl
  · rw [exec_send i s (instrFault_wellFormed _ hi) h, sendFrame_eq _ hne s h.quiet] at he
    cases he
    exact Or.inl rfl

/-- No command moves the write pointer, a reserved code included (log 32). -/
theorem execute_ptr {p : Params} (c : Code) (t : Target) : (execute p c t).1.rx.ptr = t.rx.ptr := by
  rw [execute_eq]
  cases p.codes.lookup c with
  | none => rfl
  | some n => exact perform_ptr p.meanings c t n

/-- The bits of a command frame execute one code, which writes neither the memory nor the pointer. -/
theorem receiveList_encode_ram_and_ptr {p : Params} {i : Instr} (hcmd : isCommand i = true) (t : Target) :
    (receiveList p (encode p.codes i) t.opened).1.ram = t.ram ∧
      (receiveList p (encode p.codes i) t.opened).1.rx.ptr = t.rx.ptr := by
  obtain ⟨n, x, hf⟩ := fields_of_isCommand hcmd
  rw [encode_command hf, receiveList_commandFrame]
  exact ⟨execute_ram _ t.opened, execute_ptr _ t.opened⟩

/-- Settles O27: receiving the bits keeps the memory and the pointer, and raises a fault only where TEST's code or a
code that is not the instruction's is executed; the frame around them moves lines other than RD. -/
theorem commandFramesKeepTheRest : Obligations.CommandFramesKeepTheRest := by
  intro i s t hcmd h he
  obtain ⟨r, hr, ht⟩ := exec_received h he
  obtain ⟨hram, hptr⟩ : r.1.ram = s.target.ram ∧ r.1.rx.ptr = s.target.rx.ptr :=
    hr ▸ receiveList_encode_ram_and_ptr hcmd s.target
  have hnone : (∀ x, i ≠ .test x) → s.params.codes.Has i → r.2 = [] := fun htest hc => by
    obtain ⟨u, hu⟩ := receiveList_encode_done hcmd htest hc s.target
    rw [hr, hu]
  have hgrow := (noteFaults_keeps s.enc.op r.2 s.faults).1
  rcases ht with rfl | rfl <;>
    exact ⟨fun a => congrArg (Memory.get · a) hram, hram, hptr, rfl, rfl, rfl, rfl, rfl, rfl, rfl, rfl, rfl, hgrow,
      fun htest hc => congrArg (noteFaults s.enc.op · s.faults) (hnone htest hc)⟩

end Sys2Proof.Machine
end

section
/-! SUPPORT. The obligations of 42_write_frames: the address field (R160), write frames that fit and those the ENCODER
refuses (R164 to R166), nibbles past cell 31 (R162, R168), what every write frame leaves alone (R169), and the write
frame encoder (R163). -/

namespace Sys2Proof.Machine

/-! ## The address field -/

/-- The third bit of the write flag opens the address field (R121). -/
theorem receive_writeFlag_last {p : Params} {t : Target} (h : t.rx.st = .id [true, false]) :
    receive p true t = (t.setSt (.addr []), none) := by
  unfold receive
  rw [h]
  rfl

/-- With six bits or more the address field is complete and sets the pointer (R160). -/
theorem receive_addr_full {p : Params} {b : Bool} {bs : List Bool} {t : Target} (h : t.rx.st = .addr bs)
    (hl : 6 ≤ (bs ++ [b]).length) : receive p b t = (t.pointAt (valueOf (bs ++ [b])), none) := by
  unfold receive
  rw [h]
  exact if_neg (Nat.not_lt.mpr hl)

/-- Settles O35: a bit of the address field is kept, or it is the last one. -/
theorem addressField : Obligations.AddressField :=
  ⟨fun _ _ => receive_writeFlag_last, fun _ b bs t h =>
    ⟨fun hl => receive_addr_more b bs t h (by simpa using hl), receive_addr_full h⟩⟩

/-! ## Writes the ENCODER refuses -/

theorem writeFault_address {a : Addr} (n : Nat) (h : 31 < a.toNat) :
    writeFault a n = some (.operandRange (.address a.toNat)) := by
  rw [writeFault_eq, if_pos h]

theorem writeFault_overflow {a : Addr} {n : Nat} (ha : a.toNat ≤ 31) (h : 32 < a.toNat + n) :
    writeFault a n = some (.addressOverflow (a.toNat + n - 1)) := by
  rw [writeFault_eq, if_neg (by omega), if_neg (by omega)]

/-- A write frame whose operands have a fault is refused with it before any line moves (R77, R193). -/
theorem exec_write_refused {i : Instr} {a : Addr} {ds : List Nibble} {k : BlockFault} {s : State}
    (hf : i.fields = .write a ds) (hk : writeFault a ds.length = some k) (h : CanSend s) :
    exec i s = .next (refuse k s.enc.op s) := by
  rw [exec_eq_transmit, transmit_refused i s k h.encoder h.ready ((instrFault_write hf).trans hk)]

theorem operandFault_writeOne_address (p : Params) {a : Int} (d : Int) (h : 31 < a) :
    operandFault p (.writeOne a d) = some (.operandRange (.address a)) := by
  rw [operandFault, checkAddress_eq, if_pos (Or.inr h), firstFault_cons_some]

theorem operandFault_writeOne_nibble (p : Params) {a d : Int} (ha : 0 ≤ a) (ha' : a ≤ 31) (h : 15 < d) :
    operandFault p (.writeOne a d) = some (.operandRange (.nibble d)) := by
  rw [operandFault, (checkAddress_none a).mpr ⟨ha, ha'⟩, firstFault_cons_none, checkNibble_eq, if_pos (Or.inr h),
    firstFault_cons_some]

/-! ## Writes that fit -/

/-- Settles O21: WR is the write of one nibble, which fits at every address that names a cell. -/
theorem singleWrite : Obligations.SingleWrite := by
  refine ⟨fun _ _ _ => rfl, fun a d ha => ?_, fun a d s ha h => ?_, fun p _ d => operandFault_writeOne_address p d,
    fun p _ _ => operandFault_writeOne_nibble p⟩
  · exact completes_write (.wr a d) a [d] rfl (Nat.succ_le_succ ha)
  · exact exec_write_refused (i := .wr a d) rfl (writeFault_address 1 ha) h

/-- Settles O22: what fits is stored; without a nibble the window ends at the loaded pointer, wherever it points. -/
theorem burstWrite : Obligations.BurstWrite := by
  refine ⟨fun a ds => completes_write (.wrb a ds) a ds rfl, fun a s h => ?_, fun a ds s ha h => ?_,
    fun a ds s ha hover h => ?_, fun m a b ds => get_putAll ds m a b⟩
  · have hempty := receiveList_writeFrame_stored (p := s.params) (a := a) (Or.inl rfl) s.target
    rw [exec_foreign _ s h, window_of_receiveList (encode_ne_nil _ (.wrb a [])) h.quiet hempty]
    rfl
  · exact exec_write_refused (i := .wrb a ds) rfl (writeFault_address ds.length ha) h
  · exact exec_write_refused (i := .wrb a ds) rfl (writeFault_overflow ha hover) h

/-! ## Nibbles past cell 31 -/

/-- The bits of a write frame that goes past cell 31: the nibbles that fit are stored, and the next one is the fault
(R162, R168). -/
theorem receiveList_writeFrame_overflow {p : Params} {a : Addr} {ds : List Nibble} (hd : ds ≠ [])
    (h : 32 < a.toNat + ds.length) (t : Target) :
    receiveList p (writeFrame a ds) t.opened =
      ((t.opened.stored a.toNat (ds.take (32 - a.toNat))).setSt .discard, [.addressOverflow (max a.toNat 32)]) := by
  have hdata := receiveList_past_end (p := p) ds hd [] (t.opened.pointAt a.toNat) rfl h
  rw [List.append_nil] at hdata
  rw [writeFrame, receiveList_append, receiveList_writeHead, hdata]
  rfl

/-- Another agent's write frame that goes past cell 31 (R168). -/
theorem exec_write_overflow {i : Instr} {a : Addr} {ds : List Nibble} {s : State} (hf : i.fields = .write a ds)
    (hd : ds ≠ []) (hover : 32 < a.toNat + ds.length) (h : CanWindow s) :
    exec i s = .next (windowState (encode s.params.codes i) (raise (.addressOverflow (max a.toNat 32)) .target s.enc.op
      (writeCells a.toNat (ds.take (32 - a.toNat)) s))) := by
  have hne := encode_ne_nil s.params.codes i
  rw [exec_foreign i s h, window_eq _ hne s h.quiet, encode_write hf, receiveList_writeFrame_overflow hd hover]
  rfl

/-- Settles O23: WR is the case of one nibble, none of which fits where its address is past 31. -/
theorem writeOverflow : Obligations.WriteOverflow := by
  refine ⟨fun a ds s => exec_write_overflow (i := .wrb a ds) rfl, fun a d s ha h => ?_⟩
  have hover := exec_write_overflow (i := .wr a d) rfl (List.cons_ne_nil d []) (Nat.succ_lt_succ ha) h
  rwa [Nat.sub_eq_zero_of_le ha, List.take_zero, max_eq_left (by omega)] at hover

/-! ## What a write frame leaves alone -/

/-- A write of the first nibbles of `ds` changes no cell outside those from `a` on, one for each of `ds`. -/
theorem get_putAll_take_of_outside (m : Memory) {a b : Nat} {ds : List Nibble} (n : Nat)
    (h : b < a ∨ a + ds.length ≤ b) : (m.putAll a (ds.take n)).get b = m.get b := by
  have hlen : (ds.take n).length ≤ ds.length := List.length_take_le' n ds
  rw [get_putAll, if_neg (by omega)]

/-- Settles O28: the bits of a write frame store cells and raise no fault where they fit; the frame around them moves
lines other than RD. -/
theorem writeFramesKeepTheRest : Obligations.WriteFramesKeepTheRest := by
  intro i a ds s t hi h he
  have hf : i.fields = .write a ds := by rcases hi with rfl | ⟨d, rfl, rfl⟩ <;> rfl
  obtain ⟨r, hr, ht⟩ := exec_received h he
  rw [encode_write hf] at hr
  obtain ⟨st, hst⟩ := receiveList_writeFrame_target (p := s.params) a ds s.target
  rw [← hr] at hst
  have hcfg : r.1.cfg = s.target.cfg := by rw [hst]; rfl
  have hcounters : r.1.counters = s.target.counters := by rw [hst]; rfl
  have hcell : ∀ b, b < a.toNat ∨ a.toNat + ds.length ≤ b → r.1.ram.get b = cell s b := fun b hb => by
    rw [hst]
    exact get_putAll_take_of_outside s.target.ram _ hb
  have hnone : a.toNat + ds.length ≤ 32 → r.2 = [] := fun hfit => by
    rw [hr, receiveList_writeFrame a ds s.target hfit]
  have hgrow := (noteFaults_keeps s.enc.op r.2 s.faults).1
  rcases ht with rfl | rfl <;>
    exact ⟨hcfg, (congrArg Counters.tbClears hcounters :), (congrArg Counters.wdtClears hcounters :), hcell, rfl, rfl, rfl, rfl,
      rfl, rfl, rfl, rfl, rfl, hgrow, fun hfit => congrArg (noteFaults s.enc.op · s.faults) (hnone hfit)⟩

/-! ## The write frame encoder -/

theorem operandFault_writeBurst_none (p : Params) (a : Int) (vs : List Int) :
    operandFault p (.writeBurst a vs) = none ↔
      0 ≤ a ∧ a ≤ 31 ∧ vs.length ≤ 32 - a ∧ ∀ v ∈ vs, 0 ≤ v ∧ v ≤ 15 := by
  have hfit : a + vs.length ≤ 32 ↔ (vs.length : Int) ≤ 32 - a := by omega
  rw [operandFault, firstFault_none_iff, firstFault_append_none, checkAddress_none, checkNibbles_none,
    firstFault_none_iff, checkFit_none, hfit, and_assoc, and_iff_left (show firstFault [] = none from rfl),
    and_comm (b := (vs.length : Int) ≤ 32 - a)]

/-- The fault answered is that of one of the checks. -/
theorem mem_of_firstFault {xs : List (Option BlockFault)} {k : BlockFault} (h : firstFault xs = some k) :
    some k ∈ xs := by
  induction xs with
  | nil => cases h
  | cons x xs ih =>
    cases x with
    | none => exact List.mem_cons_of_mem _ (ih h)
    | some j => exact h ▸ List.mem_cons_self

theorem faultUnless_some {ok : Bool} {k j : BlockFault} (h : faultUnless ok k = some j) : j = k := by
  unfold faultUnless at h
  split_ifs at h
  exact (Option.some.inj h).symm

/-- The faults that refuse a `write_burst` once the block is constructed (R163). -/
theorem operandFault_writeBurst_kinds {p : Params} {a : Int} {vs : List Int} {k : BlockFault}
    (h : operandFault p (.writeBurst a vs) = some k) :
    (∃ o, k = .operandRange o) ∨ ∃ e, k = .addressOverflow e := by
  rcases List.mem_cons.mp (mem_of_firstFault h) with ha | h
  · exact Or.inl ⟨_, faultUnless_some ha.symm⟩
  rcases List.mem_append.mp h with hv | hfit
  · obtain ⟨v, -, hv⟩ := List.mem_map.mp hv
    exact Or.inl ⟨_, faultUnless_some hv⟩
  · exact Or.inr ⟨_, faultUnless_some (List.mem_singleton.mp hfit).symm⟩

/-- A call whose operands have a fault is refused with it in one step (R193). -/
theorem step_refused_call {op : HostOp} {rest : List Item} {s : State} {k : BlockFault} (h : CanCall op rest s)
    (hc : ∀ c d, op ≠ .construct c d) (hk : operandFault s.params op = some k) :
    step s = .next (refuse k (some op) { s with inbox := rest }) := by
  have hadm : admissionFault s.params op s.enc.status = some k := (if_pos h.ready).trans hk
  rw [step_item s _ rest h.phase h.noTodo h.noOp h.next]
  rcases issue_cases op { s with inbox := rest } hc with ⟨j, hj, he⟩ | ⟨hnone, -⟩
  · cases hadm.symm.trans hj
    exact congrArg Host.Outcome.next he
  · cases hadm.symm.trans hnone

/-- The ENCODER sends a queued write frame that fits with one SendFrame (R102, R163). -/
theorem runFrame_writeFrame {a : Addr} {ds : List Nibble} {s : State} (ha : a.toNat ≤ 31)
    (hfit : a.toNat + ds.length ≤ 32) (h : CanSend { s with driver := .encoder }) :
    runFrame .encoder (writeFrame a ds) s = .next (sendFrame (writeFrame a ds) { s with driver := .encoder }) := by
  have hwf := (wellFormed_write (fields_writeInstr a ds)).mpr ⟨ha, hfit⟩
  rw [runFrame_ok _ _ _ s (decode_writeFrame _ a ds), exec_send _ _ (instrFault_wellFormed _ hwf) h, encode_writeInstr]

/-- An admitted call that expands to one write frame is taken up in one step, and the next sends that frame (R186). -/
theorem run_call_writeFrame {op : HostOp} {rest : List Item} {s : State} {a : Addr} {ds : List Nibble}
    (h : CanCall op rest s) (hc : ∀ c d, op ≠ .construct c d) (hadm : operandFault s.params op = none)
    (hexp : expand s.params op s.draws = ([.frame (writeFrame a ds)], 0)) (ha : a.toNat ≤ 31)
    (hfit : a.toNat + ds.length ≤ 32) :
    Host.Core.run Sys2Proof.core 2 s =
      .next (sendFrame (writeFrame a ds) { takenUp rest s with enc := { s.enc with op := some op } }) := by
  have hbegin : beginOp op { s with inbox := rest } =
      { s with inbox := rest, enc := { s.enc with op := some op, todo := [.frame (writeFrame a ds)] } } := by
    simp only [beginOp, hexp]
    rfl
  have hsend : CanSend { takenUp rest s with enc := { s.enc with op := some op, todo := [] } } :=
    ⟨rfl, h.ready, h.quiet.of_eq rfl rfl⟩
  have hframe := step_frame (beginOp op { s with inbox := rest }) (writeFrame a ds) [] h.phase (by rw [hbegin])
  rw [hbegin, runFrame_writeFrame ha hfit hsend] at hframe
  rw [run_step 1 (step_admitted_call op rest s h hc hadm), hbegin, run_step 0 hframe, run_zero]
  simp only [setTodo, takenUp, ← h.noTodo]

/-- Settles O49: an admitted call is taken up in the first step and its frame is sent in the second; the fault of the
operands refuses any other in the first. -/
theorem writeFrameEncoder : Obligations.WriteFrameEncoder := by
  refine ⟨fun _ _ => rfl, fun a vs rest s h ha ha' hlen hvs => ?_, fun a vs rest s h hbad => ?_⟩
  · have hadm := (operandFault_writeBurst_none s.params a vs).mpr ⟨ha, ha', hlen, hvs⟩
    have haddr := toNat_addr a ha ha'
    exact run_call_writeFrame h nofun hadm rfl (by omega) (by rw [List.length_map]; omega)
  · cases hk : operandFault s.params (.writeBurst a vs) with
    | none => exact absurd ((operandFault_writeBurst_none s.params a vs).mp hk) hbad
    | some k =>
      refine ⟨k, _, operandFault_writeBurst_kinds hk, step_refused_call h nofun hk, rfl, rfl, rfl, rfl, ?_⟩
      rw [refuse_enc, ← h.noOp, ← h.noTodo]

end Sys2Proof.Machine
end

section
/-! SUPPORT. The obligations of 43_host_operations about one step: what a step runs (R186), the admission checks and
what a refused call answers (R192 to R194), and `construct` (R180). -/

namespace Sys2Proof.Machine

/-! ## Admission -/

/-- Of the nibbles out of range the first is named, before any later check (R193, log 35). -/
theorem firstFault_checkNibbles (vs : List Int) (checks : List (Option BlockFault)) :
    firstFault (vs.map checkNibble ++ checks) =
      (vs.find? (fun d => d < 0 ∨ 15 < d)).elim (firstFault checks) (fun d => some (.operandRange (.nibble d))) := by
  induction vs with
  | nil => rfl
  | cons v vs ih =>
    rw [List.map_cons, List.cons_append, checkNibble_eq]
    by_cases hv : v < 0 ∨ 15 < v
    · rw [if_pos hv, firstFault_cons_some]
      simp only [List.find?_cons, hv, decide_true, Option.elim_some]
    · rw [if_neg hv, firstFault_cons_none, ih]
      simp only [List.find?_cons, hv, decide_false]

theorem firstFault_singleton (x : Option BlockFault) : firstFault [x] = x := by cases x <;> rfl

/-- What refuses a range operation once the block is constructed: its address, its count, its end (R193, R243). -/
theorem operandFault_clearRange (p : Params) (a n : Int) :
    operandFault p (.clearRange a n) =
      if a < 0 ∨ 31 < a then some (.operandRange (.address a))
      else if n < 0 then some (.operandRange (.count n))
      else if a + n ≤ 32 then none else some (.addressOverflow (a + n - 1)) := by
  change firstFault [checkAddress a, checkCount n, checkFit a n] = _
  rw [checkAddress_eq, checkCount_eq, checkFit_eq]
  split_ifs <;> rfl

/-- The categories of `initialize`'s arguments (R194). -/
theorem checkInit_none (b : InitArgs Command) :
    checkInit b = none ↔
      b.timer ∈ timerCmds ∧ b.watchdog ∈ watchdogCmds ∧ b.clock ∈ clockCmds ∧ b.biasCom ∈ biasComCmds ∧
        b.toneFreq ∈ toneFreqCmds ∧ b.irq ∈ irqCmds ∧ b.timebase ∈ timebaseCmds ∧ b.mode ∈ modeCmds := by
  simp only [checkInit, firstFault_none_iff, checkCategory_none, firstFault, and_true]

/-- Settles O48: each check is one condition on its operand, and the first that fails gives the fault. -/
theorem admissionOrder : Obligations.AdmissionOrder := by
  refine ⟨fun p a vs => ?_, fun p a n => ⟨rfl, operandFault_clearRange p a n⟩, fun p q => ?_, fun p n hn => ?_,
    fun p a => ?_⟩
  · change firstFault (checkAddress a :: (vs.map checkNibble ++ [checkFit a vs.length])) = _
    rw [checkAddress_eq]
    by_cases ha : a < 0 ∨ 31 < a
    · rw [if_pos ha, if_pos ha, firstFault_cons_some]
    · rw [if_neg ha, if_neg ha, firstFault_cons_none, firstFault_checkNibbles, firstFault_singleton, checkFit_eq]
      cases vs.find? (fun d => d < 0 ∨ 15 < d) <;> rfl
  · by_cases hq : q < 0
    · rw [if_pos hq]
      exact if_neg (by rwa [decide_eq_true_eq, not_le])
    · rw [if_neg hq]
      exact if_pos (decide_eq_true (not_lt.mp hq))
  · cases n with
    | finite q => exact absurd rfl (hn q)
    | nan | posInf | negInf => rfl
  · exact (checkInit_none _).trans ⟨fun h => ⟨_, rfl, h⟩, fun ⟨_, hb, h⟩ => hb ▸ h⟩

/-! ## What a refused call and a finished operation answer -/

/-- A call that fails its admission check is refused with that fault (R193, R231). -/
theorem issue_refused {op : HostOp} {k : BlockFault} {s : State} (hc : ∀ c d, op ≠ .construct c d)
    (hk : admissionFault s.params op s.enc.status = some k) : issue op s = refuse k (some op) s := by
  rcases issue_cases op s hc with ⟨j, hj, he⟩ | ⟨hnone, -⟩
  · cases hk.symm.trans hj
    exact he
  · cases hk.symm.trans hnone

/-- Settles O47: the refusal drops the operation and its work, and between operations there is neither. -/
theorem refusalIsPrecise : Obligations.RefusalIsPrecise := by
  intro op rest k s hc hphase htodo hop hinbox hk
  have henc : ({ s.enc with op := none, todo := [] } : Encoder) = s.enc := by rw [← hop, ← htodo]
  have hissue : issue op { s with inbox := rest } = _ := issue_refused hc hk
  rw [step_item s _ rest hphase htodo hop hinbox, takeItem, hissue, refuse, raise, henc]

/-- Settles O57: `finishOp` is the only return of an admitted operation, `refuse` that of a refused one. -/
theorem results : Obligations.Results := by
  refine ⟨fun o s hphase htodo hop => step_finish s o hphase htodo hop, fun op k s hc hk => ?_⟩
  rw [issue_refused hc hk]
  exact ⟨rfl, mem_addFault.mpr (Or.inl rfl)⟩

/-! ## Construction -/

/-- The lines are asked for in the order CS, RD, WR, DATA (R180, D30). -/
theorem firstRefused_or (a : Lines Bool) (x : Option Line) :
    (firstRefused a).or x =
      if a.cs = false then some .cs else if a.rd = false then some .rd else if a.wr = false then some .wr
      else if a.data = false then some .data else x := by
  obtain ⟨cs, rd, wr, data⟩ := a
  cases cs with
  | false => rfl
  | true =>
    cases rd with
    | false => rfl
    | true =>
      cases wr with
      | false => rfl
      | true => cases data <;> rfl

/-- A line refused, first while configuring and then while driving, ends `construct` (R180, R232). -/
theorem construct_failed {c d : Lines Bool} {l : Line} {s : State} (hs : s.enc.status = .unclaimed)
    (h : (firstRefused c).or (firstRefused d) = some l) :
    construct c d s = constructFailed l (.construct c d) s := by
  simp only [construct, hs, if_true]
  cases hc : firstRefused c with
  | some j =>
    rw [hc] at h
    cases h
    rfl
  | none =>
    rw [hc] at h
    simp only [show firstRefused d = some l from h]

/-- The GPIO abstraction answers yes for every line (R180). -/
def allYes : Lines Bool := ⟨true, true, true, true⟩

/-- The block constructed: every line is high and seen so, and the frames of the defaults are to be sent. `n` is the
next draw (R42, R180). -/
def constructed (n : Nat) (s : State) : State :=
  { s with
    line := allLines .high
    enc :=
      { s.enc with
        status := .ready
        op := some (.construct allYes allYes)
        todo := initActions s.params.codes s.params.initDefaults }
    wave := s.wave ++ [.set .cs true, .set .rd true, .set .wr true, .set .data true]
    draws := n
    target := { s.target with rx := { s.target.rx with csPrev := .high, wrPrev := .high } } }

/-- With every answer yes the lines are driven high and the operation is taken up (R180). -/
theorem construct_allYes {s : State} (hs : s.enc.status = .unclaimed) (hrx : s.target.rx.st = .idle) :
    ∃ n, construct allYes allYes s = constructed n s := by
  obtain ⟨n, hn⟩ := driveHigh_eq s hrx
  have hyes : firstRefused allYes = none := rfl
  refine ⟨n, ?_⟩
  simp only [construct, hs, if_true, hyes, hn]
  rfl

/-- Settles O45: the answers decide between `driveHigh` and `constructFailed`. (`construct` itself is the model's
function.) -/
theorem construct_outcomes : Obligations.Construct := by
  refine ⟨fun s c d hs hrx hc hd => ?_, fun s c d l hs hl => ?_, fun s c d hs => if_neg hs⟩
  · obtain ⟨n, hn⟩ := construct_allYes hs hrx
    obtain rfl : c = allYes := hc
    obtain rfl : d = allYes := hd
    rw [hn]
    exact ⟨rfl, rfl, rfl, rfl, rfl, rfl, hrx, rfl, rfl, rfl⟩
  · have hfirst : (firstRefused c).or (firstRefused d) = some l := by
      rw [← Option.or_none (o := firstRefused d), firstRefused_or, firstRefused_or, hl]
    rw [construct_failed hs hfirst]
    rfl

/-! ## What a step runs -/

theorem wireBusy_false {s : State} (hcs : s.line.cs ≠ .low) (hrd : s.line.rd ≠ .low) (hwr : s.line.wr ≠ .low) :
    wireBusy s = false := by
  rw [← Bool.not_eq_true, wireBusy_iff]
  exact fun h => h.elim hcs (fun h => h.elim hrd hwr)

/-- The constructed ENCODER sends a frame it admits, on a wire no line of which is known to be low (R102). -/
theorem sendChecked_sent {f : Frame} {s : State} (hr : s.enc.status = .ready) (hb : wireBusy s = false) :
    sendChecked none f s = .next (sendFrame f s) := by
  rw [sendChecked_none f hr, onQuietWire_next _ hb]

/-- Another agent's bits that decode to no instruction are taken bit by bit (R109). -/
theorem runFrame_window {f : Frame} {s : State} {e : DecodeError} (hd : decode s.params.codes f = .error e)
    (hb : wireBusy s = false) :
    runFrame .foreign f s = .next (window f { s with driver := .foreign }) := by
  unfold runFrame
  simp only [hd]
  exact onQuietWire_next _ hb

theorem decode_of_decodeTableWord {nbits w : Nat} {i : Instr} (h : decodeTableWord nbits w = some i) :
    decode Config.codes (frameOfWord nbits w) = .ok i := by
  unfold decodeTableWord at h
  split at h
  case h_1 hd => rw [hd, Option.some.inj h]
  case h_2 => cases h

/-- Settles O30: a step with work to do runs its first frame, and one between operations takes the next input. -/
theorem stepRunsTheInstruction : Obligations.StepRunsTheInstruction := by
  refine ⟨fun s f rest i hp hw hd => ?_, fun s f rest i hp hw ho hi hd => ?_,
    fun s f rest e hp hw ho hi hd hcs hrd hwr => ?_, fun s l b rest hp hw ho hi => ⟨_, rfl, ?_⟩,
    fun s f rest e hp hw hd hr hf => ?_, fun s f rest e n hp hw hd hr hn hf hcs hrd hwr => ?_, step_tick,
    fun s nbits w i hcodes hi => ?_⟩
  · rw [step_frame s f rest hp hw]
    exact runFrame_ok .encoder f i (setTodo rest s) hd
  · rw [step_item s _ rest hp hw ho hi]
    exact runFrame_ok .foreign f i { s with inbox := rest } hd
  · rw [step_item s _ rest hp hw ho hi]
    exact runFrame_window (s := { s with inbox := rest }) hd (wireBusy_false hcs hrd hwr)
  · rw [step_item s _ rest hp hw ho hi]
    rfl
  · rw [step_frame s f rest hp hw, runFrame_bits f (setTodo rest s) e hd, setTodo_params, bitsFault_some hf]
    exact sendChecked_some _ f hr
  · have hadmit := (bitsFault_none s.params.codes f).mpr ⟨n, hn, hf⟩
    rw [step_frame s f rest hp hw, runFrame_bits f (setTodo rest s) e hd, setTodo_params, hadmit]
    exact sendChecked_sent (s := { setTodo rest s with driver := .encoder }) hr (wireBusy_false hcs hrd hwr)
  · have hd : decode s.params.codes (frameOfWord nbits w) = .ok i := hcodes ▸ decode_of_decodeTableWord hi
    rw [State.withFetchWord, step_frame (loadFrame _ s) _ [] rfl rfl]
    exact runFrame_ok .encoder _ i (setTodo [] (loadFrame _ s)) hd

end Sys2Proof.Machine
end

section
/-! SUPPORT. The obligations of 43_host_operations about whole operations: the steps of an admitted one (R186), the
operations of one frame (R183 to R190) and `beep` (R191). -/

namespace Sys2Proof.Machine

/-! ## What a sent frame does -/

theorem commandFrame_ne_nil (c : Code) : commandFrame c ≠ [] := List.cons_ne_nil _ _

theorem writeFrame_ne_nil (a : Addr) (ds : List Nibble) : writeFrame a ds ≠ [] := List.cons_ne_nil _ _

/-- The rule of the command `n` performed (R121). -/
def performed (n : Command) (s : State) : State :=
  { s with target := (perform s.params.meanings (s.params.codes.code n) s.target n).1 }

/-- The frame of the command `n` sent and its rule performed (R102, R120, R121). -/
def commandSent (n : Command) (s : State) : State :=
  sentState (commandFrame (s.params.codes.code n)) (performed n s)

/-- The frame of a command other than TEST performs its rule, where the table sends the code to it (R80, R121). -/
theorem sendFrame_command {n : Command} {s : State} (hs : s.params.codes.Sound) (hn : n ≠ .test) (q : Quiet s) :
    sendFrame (commandFrame (s.params.codes.code n)) s = commandSent n s := by
  rw [sendFrame_eq _ (commandFrame_ne_nil _) s q, receiveList_command _ n _ (hs n) (perform_no_fault _ _ _ hn)]
  cases n <;> rfl

/-- A write frame that fits writes its cells (R164, R165). -/
theorem sendFrame_write {a : Addr} {ds : List Nibble} {s : State} (hfit : a.toNat + ds.length ≤ 32) (q : Quiet s) :
    sendFrame (writeFrame a ds) s = sentState (writeFrame a ds) (writeCells a.toNat ds s) := by
  rw [sendFrame_eq _ (writeFrame_ne_nil a ds) s q, receiveList_writeFrame a ds s.target hfit]
  rfl

/-! ## The steps of an operation -/

/-- The call is `construct`, which has its own admission (R180, R193). -/
def isConstruct : HostOp → Bool
  | .construct _ _ => true
  | _ => false

theorem ne_construct {op : HostOp} (h : isConstruct op = false) : ∀ c d, op ≠ .construct c d := by
  rintro c d rfl
  cases h

/-- The constructed ENCODER, its lines idle, is running `o` and has `todo` left to do (R24). -/
def Running (s : State) (o : HostOp) (todo : List Action) : Prop :=
  s.enc.status = .ready ∧ Quiet s ∧ s.enc.phase = .idle ∧ s.enc.op = some o ∧ s.enc.todo = todo

/-- The ENCODER has taken its next frame, with `rest` to do after it, and has the wire. -/
def sending (rest : List Action) (s : State) : State := { setTodo rest s with driver := .encoder }

/-- The call has been taken out of the inbox and its work `todo` is due. -/
def begun (op : HostOp) (todo : List Action) (rest : List Item) (s : State) : State :=
  { s with inbox := rest, enc := { s.enc with op := some op, todo := todo } }

/-- The ENCODER has taken up the call, has the wire, and has nothing left to do after this frame. -/
def called (op : HostOp) (rest : List Item) (s : State) : State :=
  { takenUp rest s with enc := { s.enc with op := some op } }

section calls
variable {op : HostOp} {rest : List Item} {s : State} (h : CanCall op rest s)
include h

/-- An admitted call that takes no draw is taken up in one step (R186, R193). -/
theorem step_call {todo : List Action} (hc : ∀ c d, op ≠ .construct c d) (hadm : operandFault s.params op = none)
    (hexp : expand s.params op s.draws = (todo, 0)) : step s = .next (begun op todo rest s) := by
  rw [step_admitted_call op rest s h hc hadm]
  simp only [beginOp, hexp]
  rfl

theorem running_begun (todo : List Action) : Running (begun op todo rest s) op todo :=
  ⟨h.ready, h.quiet.of_eq rfl rfl, h.phase, rfl, rfl⟩

theorem canSend_called : CanSend (called op rest s) := ⟨rfl, h.ready, h.quiet.of_eq rfl rfl⟩

theorem sending_begun (todo : List Action) : sending [] (begun op todo rest s) = called op rest s := by
  rw [sending, setTodo, begun, called, takenUp, ← h.noTodo]

/-- Between operations there is neither an operation nor work (R186). -/
theorem takenUp_eq :
    takenUp rest s =
      { s with inbox := rest, driver := .encoder, enc := { s.enc with op := none, todo := [] } } := by
  rw [takenUp, ← h.noOp, ← h.noTodo]

end calls

namespace Running
variable {o : HostOp} {todo rest : List Action} {s : State}

theorem ready (h : Running s o todo) : s.enc.status = .ready := h.1
theorem quiet (h : Running s o todo) : Quiet s := h.2.1
theorem phase (h : Running s o todo) : s.enc.phase = .idle := h.2.2.1
theorem op (h : Running s o todo) : s.enc.op = some o := h.2.2.2.1
theorem todo_eq (h : Running s o todo) : s.enc.todo = todo := h.2.2.2.2

theorem canSend {a : Action} (h : Running s o (a :: rest)) : CanSend (sending rest s) :=
  ⟨rfl, h.ready, h.quiet.of_eq rfl rfl⟩

/-- A frame sent leaves the ENCODER with the rest of the operation (R102, R103). -/
theorem sendFrame {f : Frame} (hf : f ≠ []) (h : Running s o (.frame f :: rest)) :
    Running (sendFrame f (sending rest s)) o rest := by
  rw [sendFrame_eq f hf _ h.canSend.quiet]
  exact ⟨h.ready, ⟨rfl, h.quiet.rd, rfl, rfl, rfl⟩, rfl, h.op, rfl⟩

theorem sleep {q : Rat} (h : Running s o (.sleep q :: rest)) : Running (sleep q (setTodo rest s)) o rest :=
  ⟨h.ready, h.quiet.of_eq rfl rfl, h.phase, h.op, rfl⟩

/-- The frame of a command other than TEST is sent, whatever the code table reads there (R77, R120). -/
theorem step_command {n : Command} (h : Running s o (cmdAction s.params.codes n :: rest)) (hn : n ≠ .test) :
    step s = .next (Machine.sendFrame (commandFrame (s.params.codes.code n)) (sending rest s)) :=
  (step_frame s _ rest h.phase h.todo_eq).trans (runFrame_canonical (s := sending rest s) hn h.canSend)

/-- The same where the table sends the code to the command: its rule is performed (R80, R121). -/
theorem step_commandSent {n : Command} (h : Running s o (cmdAction s.params.codes n :: rest))
    (hn : n ≠ .test) (hs : s.params.codes.Sound) :
    step s = .next (commandSent n (sending rest s)) ∧ Running (commandSent n (sending rest s)) o rest := by
  have hsent := sendFrame_command (s := sending rest s) hs hn h.canSend.quiet
  exact ⟨hsent ▸ h.step_command hn, hsent ▸ h.sendFrame (commandFrame_ne_nil _)⟩

/-- A write frame that fits is sent and writes its cells (R163 to R165). -/
theorem step_writeFrame {a : Addr} {ds : List Nibble} (ha : a.toNat ≤ 31) (hfit : a.toNat + ds.length ≤ 32)
    (h : Running s o (.frame (writeFrame a ds) :: rest)) :
    step s = .next (sentState (writeFrame a ds) (writeCells a.toNat ds (sending rest s))) ∧
      Running (sentState (writeFrame a ds) (writeCells a.toNat ds (sending rest s))) o rest := by
  have hsent := sendFrame_write (s := sending rest s) hfit h.canSend.quiet
  have hstep := (step_frame s _ rest h.phase h.todo_eq).trans (runFrame_writeFrame ha hfit h.canSend)
  exact ⟨hsent ▸ hstep, hsent ▸ h.sendFrame (writeFrame_ne_nil a ds)⟩

/-- With nothing left to do the operation returns `Ok` (R192). -/
theorem step_return (h : Running s o []) : step s = .next (finishOp s) :=
  step_finish s o h.phase h.todo_eq h.op

end Running

/-! ## Operations of one frame -/

section oneFrame
variable {op : HostOp} {rest : List Item} {s : State} (h : CanCall op rest s) (hc : ∀ c d, op ≠ .construct c d)
  (hadm : operandFault s.params op = none)
include h hc hadm

/-- An operation of one command frame: the call is taken up, the frame sent, `Ok` returned, under any code table (R77,
R120, R186, R192). -/
theorem run_call_command {n : Command} (hn : n ≠ .test)
    (hexp : expand s.params op s.draws = ([cmdAction s.params.codes n], 0)) :
    Host.Core.run Sys2Proof.core 3 s =
      .next (finishOp (sendFrame (commandFrame (s.params.codes.code n)) (called op rest s))) := by
  have hbegun := running_begun h [cmdAction s.params.codes n]
  have hreturn := (hbegun.sendFrame (commandFrame_ne_nil _)).step_return
  rw [run_step 2 (step_call h hc hadm hexp), run_step 1 (hbegun.step_command hn), ← sending_begun h]
  exact run_step 0 hreturn

/-- The same where the table sends the code to the command: its rule is performed (R80, R121). -/
theorem run_call_commandSent {n : Command} (hn : n ≠ .test) (hs : s.params.codes.Sound)
    (hexp : expand s.params op s.draws = ([cmdAction s.params.codes n], 0)) :
    Host.Core.run Sys2Proof.core 3 s = .next (returnedOk (commandSent n (takenUp rest s))) := by
  obtain ⟨hstep, hsent⟩ := (running_begun h [cmdAction s.params.codes n]).step_commandSent hn hs
  rw [run_step 2 (step_call h hc hadm hexp), run_step 1 hstep, run_step 0 hsent.step_return, run_zero, takenUp_eq h]
  rfl

/-- An operation of one write frame that fits: its cells are written and `Ok` returned (R164, R165). -/
theorem run_call_writeAction {a : Int} {ds : List Nibble}
    (hexp : expand s.params op s.draws = ([writeAction a ds], 0)) (ha : 0 ≤ a) (ha' : a ≤ 31)
    (hfit : a + ds.length ≤ 32) :
    Host.Core.run Sys2Proof.core 3 s =
      .next (returnedOk (sentState (writeFrame (BitVec.ofInt 6 a) ds) (writeCells a.toNat ds (takenUp rest s)))) := by
  have haddr := toNat_addr a ha ha'
  obtain ⟨hstep, hsent⟩ := (running_begun h [writeAction a ds]).step_writeFrame (by omega) (by omega)
  rw [run_step 2 (step_call h hc hadm hexp), run_step 1 hstep, run_step 0 hsent.step_return, run_zero,
    takenUp_eq h, haddr]
  rfl

end oneFrame

/-! ## `write_one`, `write_burst`, `clear_range` and `fill_range` -/

theorem operandFault_writeOne_none (p : Params) (a v : Int) :
    operandFault p (.writeOne a v) = none ↔ 0 ≤ a ∧ a ≤ 31 ∧ 0 ≤ v ∧ v ≤ 15 := by
  change firstFault [checkAddress a, checkNibble v] = none ↔ _
  rw [firstFault_none_iff, firstFault_singleton, checkAddress_none, checkNibble_none, and_assoc]

/-- The faults that refuse a `write_one` once the block is constructed (R184). -/
theorem operandFault_writeOne_kind {p : Params} {a v : Int} {k : BlockFault}
    (h : operandFault p (.writeOne a v) = some k) : ∃ o, k = .operandRange o := by
  rcases List.mem_cons.mp (mem_of_firstFault h) with ha | hv
  · exact ⟨_, faultUnless_some ha.symm⟩
  · exact ⟨_, faultUnless_some (List.mem_singleton.mp hv).symm⟩

/-- Settles O50: the operands pass the checks, or the first one that fails refuses the call. -/
theorem writeOne : Obligations.WriteOne := by
  refine fun a v rest s => ⟨fun h ha ha' hv hv' => ?_, fun h hbad => ?_, notConstructed.1 _ s (ne_construct rfl)⟩
  · have hadm := (operandFault_writeOne_none s.params a v).mpr ⟨ha, ha', hv, hv'⟩
    exact run_call_writeAction h (ne_construct rfl) hadm rfl ha ha' (Int.add_le_add_right ha' 1)
  · cases hk : operandFault s.params (.writeOne a v) with
    | none => exact absurd ((operandFault_writeOne_none s.params a v).mp hk) hbad
    | some k =>
      obtain ⟨o, rfl⟩ := operandFault_writeOne_kind hk
      exact ⟨o, _, step_refused_call h (ne_construct rfl) hk, rfl, rfl, rfl⟩

/-- Settles O51: `write_burst` is one write frame. -/
theorem writeBurst : Obligations.WriteBurst := by
  intro a vs rest s h ha ha' hfit hvs
  have hadm := (operandFault_writeBurst_none s.params a vs).mpr ⟨ha, ha', by omega, hvs⟩
  exact run_call_writeAction h (ne_construct rfl) hadm rfl ha ha' (by rwa [List.length_map])

/-- Settles O52: both operations have the same checks, and send `count` copies of their nibble. -/
theorem clearAndFillRange : Obligations.ClearAndFillRange := by
  intro a n rest s
  have hfault := operandFault_clearRange s.params a n
  refine ⟨fun ha ha' hn hfit => ?_, fun ha ha' hn => ?_, fun ha => ?_, fun ha ha' hover => ?_, fun hs =>
    ⟨notConstructed.1 _ s (ne_construct rfl) hs, notConstructed.1 _ s (ne_construct rfl) hs⟩⟩
  · rw [if_neg (by omega), if_neg (by omega), if_pos hfit] at hfault
    have hlen : ∀ v : Nibble, a + (List.replicate n.toNat v).length ≤ 32 := fun v => by
      rw [List.length_replicate]
      omega
    exact ⟨fun h => run_call_writeAction h (ne_construct rfl) hfault rfl ha ha' (hlen 0x0),
      fun h => run_call_writeAction h (ne_construct rfl) hfault rfl ha ha' (hlen 0xF)⟩
  · rw [if_neg (by omega), if_pos hn] at hfault
    exact ⟨hfault, hfault⟩
  · rw [if_pos ha] at hfault
    exact ⟨hfault, hfault⟩
  · rw [if_neg (by omega), if_neg (by omega), if_neg (by omega)] at hfault
    exact ⟨hfault, hfault⟩

/-! ## `write_command`, `display_on`, `display_off` and `beep` -/

/-- A command named, or given by its canonical value, is that command's code (R183). -/
theorem argCode_of_names {codes : CodeTable} {n : Command} {c : CmdArg}
    (h : c = .named n ∨ c = .value (codes.code n).toNat) : argCode codes c = (codes.code n).toNat := by
  rcases h with rfl | rfl <;> rfl

theorem operandFault_writeCommand_none {p : Params} {n : Command} {c : CmdArg} (hn : n ≠ .test)
    (h : c = .named n ∨ c = .value (p.codes.code n).toNat) : operandFault p (.writeCommand c) = none := by
  refine (checkCommand_none p.codes c).mpr ⟨?_, n, hn, argCode_of_names h⟩
  rcases h with rfl | rfl
  · exact fun he => hn (CmdArg.named.inj he)
  · exact CmdArg.noConfusion

theorem expand_writeCommand {p : Params} {n : Command} {c : CmdArg} (d : Nat)
    (h : c = .named n ∨ c = .value (p.codes.code n).toNat) :
    expand p (.writeCommand c) d = ([cmdAction p.codes n], 0) := by
  change ([Action.frame (commandFrame (.ofInt 9 (argCode p.codes c)))], 0) = _
  rw [argCode_of_names h, BitVec.ofInt_natCast, BitVec.ofNat_toNat, BitVec.setWidth_eq, cmdAction]

/-- `write_command` sends the frame of the command it is given, under any code table (R183, R14). -/
theorem run_writeCommand {n : Command} {c : CmdArg} {rest : List Item} {s : State}
    (h : CanCall (.writeCommand c) rest s) (hn : n ≠ .test)
    (hname : c = .named n ∨ c = .value (s.params.codes.code n).toNat) :
    Host.Core.run Sys2Proof.core 3 s =
      .next (finishOp (sendFrame (commandFrame (s.params.codes.code n)) (called (.writeCommand c) rest s))) :=
  run_call_command h (ne_construct rfl) (operandFault_writeCommand_none hn hname) hn (expand_writeCommand s.draws hname)

/-- Settles O53: the command's frame is sent whatever it decodes to; a sound table makes it the command itself. -/
theorem writeCommand : Obligations.WriteCommand := by
  refine ⟨fun n c rest s hn hname h => run_writeCommand h hn hname, fun n c rest s hn hs hname h => ?_⟩
  have hdecode := decode_code (hs n)
  exact ⟨_, _, hdecode, (wellFormed_command (toInstr_zero_fields n)).mpr ⟨hn, rfl⟩,
    exec_decoded hdecode (checkCommand_code hn) (canSend_called h), run_writeCommand h hn hname⟩

/-- Settles O54: each is an operation of one command frame. -/
theorem displayOnAndOff : Obligations.DisplayOnAndOff := fun _ _ hs =>
  ⟨fun h => run_call_commandSent (n := .lcdOn) h (ne_construct rfl) rfl (by decide) hs rfl,
    fun h => run_call_commandSent (n := .lcdOff) h (ne_construct rfl) rfl (by decide) hs rfl⟩

/-- Settles O55: the call, TONE_ON, the sleep, TONE_OFF and the return, one step each. -/
theorem beep : Obligations.Beep := by
  refine fun q rest s hq hs h => ⟨?_, by simp only [minDuration, Delay.bound, add_zero]⟩
  have hadm : operandFault s.params (.beep (.finite q)) = none :=
    (faultUnless_none _ _).mpr (decide_eq_true hq)
  have hrun := running_begun h [cmdAction s.params.codes .toneOn, .sleep q, cmdAction s.params.codes .toneOff]
  obtain ⟨hon, hrun_on⟩ := hrun.step_commandSent (n := .toneOn) (by decide) hs
  have hsleep := step_sleep _ q _ hrun_on.phase hrun_on.todo_eq
  obtain ⟨hoff, hrun_off⟩ := hrun_on.sleep.step_commandSent (n := .toneOff) (by decide) hs
  rw [run_step 4 (step_call h (ne_construct rfl) hadm rfl), run_step 3 hon, run_step 2 hsleep, run_step 1 hoff,
    run_step 0 hrun_off.step_return, run_zero, takenUp_eq h]
  rfl

end Sys2Proof.Machine
end

section
/-! SUPPORT. The obligation of 43_host_operations about `initialize` and `construct`: runs of command frames, and what
the 13 frames leave (R180, R181, R196). -/

namespace Sys2Proof.Machine

/-! ## What an admitted argument's command does

Whichever command of its category an argument of `initialize` is (R194), its rule writes the fields of that category and
nothing else. -/

section arguments
variable (m : Meanings) (c : Code) (t : Target) {n : Command}

theorem perform_timerCmds (h : n ∈ timerCmds) :
    perform m c t n = ({ t with cfg := { t.cfg with timerOut := timerSetting n } }, none) := by
  fin_cases h <;> rfl

theorem perform_watchdogCmds (h : n ∈ watchdogCmds) :
    perform m c t n = ({ t with cfg := { t.cfg with wdtOut := watchdogSetting n } }, none) := by
  fin_cases h <;> rfl

theorem perform_clockCmds (h : n ∈ clockCmds) :
    perform m c t n = ({ t with cfg := { t.cfg with clkSrc := clockSetting n } }, none) := by
  fin_cases h <;> rfl

theorem perform_biasComCmds (h : n ∈ biasComCmds) :
    perform m c t n = ({ t with cfg := { t.cfg with bias := biasSetting n, com := comSetting n } }, none) := by
  fin_cases h <;> rfl

theorem perform_toneFreqCmds (h : n ∈ toneFreqCmds) :
    perform m c t n = ({ t with cfg := { t.cfg with toneFreq := toneFreqSetting n } }, none) := by
  fin_cases h <;> rfl

theorem perform_irqCmds (h : n ∈ irqCmds) :
    perform m c t n = ({ t with cfg := { t.cfg with irq := irqSetting n } }, none) := by
  fin_cases h <;> rfl

theorem perform_timebaseCmds (h : n ∈ timebaseCmds) :
    perform m c t n = ({ t with cfg := { t.cfg with tbFreq := timebaseSetting n } }, none) := by
  fin_cases h <;> rfl

theorem perform_modeCmds (h : n ∈ modeCmds) :
    perform m c t n = ({ t with cfg := { t.cfg with mode := .normal } }, none) := by
  fin_cases h
  rfl

end arguments

/-! ## Command frames one after another -/

/-- The TARGET after the frame of the command `n` (R109, R121). -/
def afterCommand (p : Params) (t : Target) (n : Command) : Target :=
  (perform p.meanings (p.codes.code n) t n).1.closed

/-- A running operation sends its commands, one step each, and has the rest to do (R186). Their rules are performed one
after another, and their frames are the waveform. -/
theorem run_commands {o : HostOp} {ns : List Command} {rest : List Action} {s : State}
    (h : Running s o (ns.map (cmdAction s.params.codes) ++ rest)) (hs : s.params.codes.Sound)
    (hns : ∀ n ∈ ns, n ≠ .test) :
    ∃ t : State, (∀ k, Host.Core.run Sys2Proof.core (ns.length + k) s = Host.Core.run Sys2Proof.core k t) ∧
      Running t o rest ∧ t.inbox = s.inbox ∧ t.faults = s.faults ∧
      t.target = ns.foldl (afterCommand s.params) s.target ∧
      t.wave = s.wave ++ (ns.map (fun n => frameWave (commandFrame (s.params.codes.code n)))).flatten := by
  induction ns generalizing s with
  | nil =>
    refine ⟨s, fun k => ?_, h, rfl, rfl, rfl, (List.append_nil _).symm⟩
    rw [List.length_nil, Nat.zero_add]
  | cons n ns ih =>
    obtain ⟨hn, hns⟩ := List.forall_mem_cons.mp hns
    rw [List.map_cons, List.cons_append] at h
    obtain ⟨hstep, hrunning⟩ := h.step_commandSent hn hs
    obtain ⟨t, hrun, ht, hinbox, hfaults, htarget, hwave⟩ := ih hrunning hs hns
    refine ⟨t, fun k => ?_, ht, hinbox, hfaults, htarget, ?_⟩
    · rw [List.length_cons, Nat.add_right_comm, run_step _ hstep, hrun]
    · rw [hwave, List.map_cons, List.flatten_cons, ← List.append_assoc]
      rfl

/-! ## The 13 frames -/

/-- The commands of `initialize`, in the order of R181. -/
def initCommands (b : InitArgs Command) : List Command :=
  [.sysDis, b.watchdog, .sysEn, b.timer, b.clock, b.biasCom, b.toneFreq, b.irq, b.timebase, b.mode, .clrTimer, .clrWdt]

/-- The nibbles of its write frame: 0 for every cell. Irreducible, so that no proof computes the 32 writes. -/
@[irreducible] def zeros : List Nibble := List.replicate 32 0

theorem zeros_length : zeros.length = 32 := by rw [zeros, List.length_replicate]

theorem get_putAll_zeros (m : Memory) {k : Nat} (hk : k < 32) : (m.putAll 0 zeros).get k = some 0 := by
  rw [get_putAll, if_pos ⟨Nat.zero_le k, by rwa [zeros_length, Nat.zero_add]⟩, zeros,
    List.getElem?_replicate, if_pos (by omega)]

theorem initActions_eq (codes : CodeTable) (b : InitArgs Command) :
    initActions codes b = (initCommands b).map (cmdAction codes) ++ [Action.frame (writeFrame 0 zeros)] := by
  rw [zeros]
  rfl

theorem framesOf_commands (codes : CodeTable) (ns : List Command) (f : Frame) :
    framesOf (ns.map (cmdAction codes) ++ [Action.frame f]) = ns.map (fun n => commandFrame (codes.code n)) ++ [f] := by
  induction ns with
  | nil => rfl
  | cons n ns ih => exact congrArg (commandFrame (codes.code n) :: ·) ih

theorem wave_initActions (codes : CodeTable) (b : InitArgs Command) :
    ((framesOf (initActions codes b)).map frameWave).flatten =
      ((initCommands b).map (fun n => frameWave (commandFrame (codes.code n)))).flatten ++
        frameWave (writeFrame 0 zeros) := by
  rw [initActions_eq, framesOf_commands, List.map_append, List.map_map, List.flatten_append, List.map_singleton,
    List.flatten_singleton]
  rfl

/-- The configuration and the clear events after the 12 commands (R196, R266). -/
theorem foldl_initCommands (p : Params) {b : InitArgs Command} (h : checkInit b = none) (t : Target) :
    ((initCommands b).foldl (afterCommand p) t).cfg =
        initialisedCfg b t.cfg.tone (lcdAfterSysDis p.meanings t.cfg.lcd) ∧
      ((initCommands b).foldl (afterCommand p) t).counters.tbClears = t.counters.tbClears + 1 ∧
      ((initCommands b).foldl (afterCommand p) t).counters.wdtClears = t.counters.wdtClears + 1 := by
  obtain ⟨htimer, hwatchdog, hclock, hbias, htone, hirq, htimebase, hmode⟩ := (checkInit_none b).mp h
  simp only [initCommands, List.foldl_cons, List.foldl_nil, afterCommand, perform_timerCmds _ _ _ htimer,
    perform_watchdogCmds _ _ _ hwatchdog, perform_clockCmds _ _ _ hclock, perform_biasComCmds _ _ _ hbias,
    perform_toneFreqCmds _ _ _ htone, perform_irqCmds _ _ _ hirq, perform_timebaseCmds _ _ _ htimebase,
    perform_modeCmds _ _ _ hmode]
  exact ⟨rfl, rfl, rfl⟩

/-- An operation that has the 13 frames of the arguments `b` to send: the 12 commands, the write frame and the return,
one step each (R181, R196). -/
theorem run_initActions {o : HostOp} {b : InitArgs Command} {s : State}
    (h : Running s o (initActions s.params.codes b)) (hs : s.params.codes.Sound) (hb : checkInit b = none) :
    ∃ t : State, Host.Core.run Sys2Proof.core 14 s = .next t ∧
      t.target.cfg = initialisedCfg b s.target.cfg.tone (lcdAfterSysDis s.params.meanings s.target.cfg.lcd) ∧
      (∀ k, k < 32 → cell t k = some 0) ∧
      t.target.counters.tbClears = s.target.counters.tbClears + 1 ∧
      t.target.counters.wdtClears = s.target.counters.wdtClears + 1 ∧
      t.faults = s.faults ∧ t.enc.status = .ready ∧ t.enc.phase = .idle ∧ t.target.rx.st = .idle ∧ Quiet t ∧
      t.enc.op = none ∧ t.enc.todo = [] ∧ t.inbox = s.inbox ∧ t.result = some .ok ∧
      t.wave = s.wave ++ ((framesOf (initActions s.params.codes b)).map frameWave).flatten := by
  obtain ⟨u, hcommands, hu, hinbox, hfaults, htarget, hwave⟩ :=
    run_commands (ns := initCommands b) (initActions_eq s.params.codes b ▸ h) hs (initCommands_ne_test hb)
  obtain ⟨hwrite, hdone⟩ := hu.step_writeFrame (by decide) (by rw [zeros_length]; decide)
  obtain ⟨hcfg, htb, hwdt⟩ := foldl_initCommands s.params hb s.target
  rw [← htarget] at hcfg htb hwdt
  refine ⟨_, (hcommands 2).trans ((run_step 1 hwrite).trans (run_step 0 hdone.step_return)), hcfg,
    fun k hk => get_putAll_zeros u.target.ram hk, htb, hwdt, hfaults, hu.ready, rfl, rfl,
    ⟨rfl, hu.quiet.rd, rfl, rfl, rfl⟩, rfl, rfl, hinbox, rfl, ?_⟩
  rw [wave_initActions, ← List.append_assoc, ← hwave]
  rfl

/-! ## `initialize` and `construct` -/

/-- SYS_DIS turns the LCD bias generator off under the meanings of the HT1621 family (R27, log 7). -/
theorem lcdAfterSysDis_off {m : Meanings} (h : m = Config.meanings) (lcd : OnOff) : lcdAfterSysDis m lcd = .off := by
  rw [h]
  rfl

/-- Settles O56: both operations run the 13 frames, `construct` from the lines it has driven high. -/
theorem initialise : Obligations.Initialise := by
  refine ⟨fun a rest s h hs hb => ?_, fun rest s hstatus hphase htodo hop hrx hs hb hinbox => ?_⟩
  · have hrunning := running_begun h (initActions s.params.codes (withDefaults s.params.initDefaults a))
    obtain ⟨t, hrun, hcfg, ht⟩ := run_initActions hrunning hs hb
    refine ⟨_, t, rfl, (run_step 14 (step_call h (ne_construct rfl) hb rfl)).trans hrun, hcfg, fun hm => ?_, ht⟩
    rw [hcfg]
    exact lcdAfterSysDis_off hm _
  · obtain ⟨n, hn⟩ := construct_allYes (s := { s with inbox := rest }) hstatus hrx
    have hcall := step_item s _ rest hphase htodo hop hinbox
    have hrunning : Running (constructed n { s with inbox := rest }) (.construct allYes allYes)
        (initActions s.params.codes s.params.initDefaults) :=
      ⟨rfl, ⟨rfl, rfl, rfl, rfl, rfl⟩, hphase, rfl, rfl⟩
    obtain ⟨t, hrun, hcfg, hcells, -, -, hfaults, hready, -, -, hquiet, -, -, hrest, hresult, -⟩ :=
      run_initActions hrunning hs hb
    exact ⟨t, (run_step 14 (hcall.trans (congrArg Host.Outcome.next hn))).trans hrun, hcfg, hcells, hfaults, hready,
      hquiet, hrest, hresult⟩

end Sys2Proof.Machine
end

section
/-! SUPPORT. The obligations of 44_glyph_renderer: the digits and the nibbles of a number (R212, R214), the two regions
(R215 to R217), and the lamp test and the clears (R218 to R221). -/

namespace Sys2Proof.Machine

/-! ## Digits and glyphs -/

theorem digits_val (n : Nat) :
    (digits n).map Fin.val = [n / 10000 % 10, n / 1000 % 10, n / 100 % 10, n / 10 % 10, n % 10] := rfl

/-- The five digits read as a decimal number lose what stands above the fifth (R212). -/
theorem digits_value (n : Nat) : ((digits n).map Fin.val).foldl (fun v d => 10 * v + d) 0 = n % 100000 := by
  simp only [digits_val, List.foldl_cons, List.foldl_nil]
  omega

/-- Settles O58: each digit is the remainder of a quotient by 10, and each sends the two nibbles of its glyph. -/
theorem digitsAndGlyphs : Obligations.DigitsAndGlyphs := ⟨digits_val, digits_value, fun _ _ _ _ _ _ => rfl⟩

/-! ## The write of a renderer operation -/

/-- An operation of one write frame that fits, its nibbles taking `k` draws: its cells are written and `Ok` returned
(R164, R165, R211). -/
theorem run_call_writeAction_drawn {op : HostOp} {rest : List Item} {s : State} {a : Int} {ds : List Nibble} {k : Nat}
    (h : CanCall op rest s) (hc : ∀ c d, op ≠ .construct c d) (hadm : operandFault s.params op = none)
    (hexp : expand s.params op s.draws = ([writeAction a ds], k)) (ha : 0 ≤ a) (ha' : a ≤ 31)
    (hfit : a + ds.length ≤ 32) :
    Host.Core.run Sys2Proof.core 3 s =
      .next (returnedOk (sentState (writeFrame (BitVec.ofInt 6 a) ds)
        (writeCells a.toNat ds { takenUp rest s with draws := s.draws + k }))) := by
  have haddr := toNat_addr a ha ha'
  have hbegin : beginOp op { s with inbox := rest } =
      { begun op [writeAction a ds] rest s with draws := s.draws + k } := by
    simp only [beginOp, hexp, begun]
  have hrunning : Running { begun op [writeAction a ds] rest s with draws := s.draws + k } op [writeAction a ds] :=
    ⟨h.ready, h.quiet.of_eq rfl rfl, h.phase, rfl, rfl⟩
  obtain ⟨hstep, hsent⟩ := hrunning.step_writeFrame (by omega) (by omega)
  rw [run_step 2 (step_admitted_call op rest s h hc hadm), hbegin, run_step 1 hstep, run_step 0 hsent.step_return,
    run_zero, takenUp_eq h, haddr]
  rfl

/-! ## Shown numbers -/

/-- The operation that shows a value in a region (R215, R216). -/
def showIn : Region → HostNum → HostOp
  | .temperature, v => .showTemperature v
  | .humidity, v => .showHumidity v

theorem expand_showIn (p : Params) (r : Region) (v : HostNum) (d : Nat) :
    expand p (showIn r v) d = ([writeAction (regionBase r) (renderNibbles p r v d).1], (renderNibbles p r v d).2) := by
  cases r <;> rfl

theorem operandFault_showIn (p : Params) (r : Region) (v : HostNum) :
    operandFault p (showIn r v) = checkValue p.floatFmt v := by
  cases r <;> rfl

theorem checkValue_none {fmt : FloatFmt} {v : HostNum} (h : scaled fmt v ≠ .notFinite) : checkValue fmt v = none :=
  (faultUnless_none _ _).mpr (bne_iff_ne.mpr h)

/-- NaN and the infinities are refused under every format (R211, R234). -/
theorem checkValue_of_ne_finite (fmt : FloatFmt) {v : HostNum} (h : ∀ q, v ≠ .finite q) :
    checkValue fmt v = some (.operandRange (.value v)) := by
  cases v with
  | finite q => exact absurd rfl (h q)
  | posInf | negInf | nan => rfl

theorem renderNibbles_number {p : Params} {v : HostNum} {n : Nat} (r : Region) (d : Nat)
    (h : scaled p.floatFmt v = .number n) : renderNibbles p r v d = (shownNibbles p r n, 0) := by
  rw [renderNibbles, h]

/-- A negative value has ten nibbles, each of them a draw (R211). -/
theorem renderNibbles_negative {p : Params} {v : HostNum} (r : Region) (d : Nat)
    (h : scaled p.floatFmt v = .negative) : ∃ ns, ns.length = 10 ∧ renderNibbles p r v d = (ns, 10) :=
  ⟨drawNibbles d 10, length_drawNibbles d 10, by rw [renderNibbles, h]⟩

/-- Both regions fit in the display memory (R12). -/
theorem regionBase_bounds (r : Region) : 0 ≤ regionBase r ∧ regionBase r + 10 ≤ 32 := by
  cases r <;> decide

section shown
variable {r : Region} {v : HostNum} {rest : List Item} {s : State} (h : CanCall (showIn r v) rest s)
include h

/-- A value that is not refused goes in one burst to its region (R215, R216). -/
theorem run_showIn {ns : List Nibble} {k : Nat} (hv : scaled s.params.floatFmt v ≠ .notFinite)
    (hr : renderNibbles s.params r v s.draws = (ns, k)) :
    Host.Core.run Sys2Proof.core 3 s =
      .next (returnedOk (sentState (writeFrame (BitVec.ofInt 6 (regionBase r)) ns)
        (writeCells (regionBase r).toNat ns { takenUp rest s with draws := s.draws + k }))) := by
  obtain ⟨hbase, hend⟩ := regionBase_bounds r
  have hlen : ns.length ≤ 10 := by simpa only [hr] using length_renderNibbles_le s.params r v s.draws
  have hadm := (operandFault_showIn s.params r v).trans (checkValue_none hv)
  have hexp := expand_showIn s.params r v s.draws
  rw [hr] at hexp
  exact run_call_writeAction_drawn h (ne_construct (by cases r <;> rfl)) hadm hexp hbase (by omega) (by omega)

/-- A number's ten nibbles take no draw (R214). -/
theorem run_showIn_number {n : Nat} (hv : scaled s.params.floatFmt v = .number n) :
    Host.Core.run Sys2Proof.core 3 s =
      .next (returnedOk (sentState (writeFrame (BitVec.ofInt 6 (regionBase r)) (shownNibbles s.params r n))
        (writeCells (regionBase r).toNat (shownNibbles s.params r n) (takenUp rest s)))) :=
  run_showIn (k := 0) h (by rw [hv]; nofun) (renderNibbles_number r s.draws hv)

/-- A negative value is sent as ten drawn nibbles, which change no cell outside its region (R211). -/
theorem run_showIn_negative (hv : scaled s.params.floatFmt v = .negative) :
    ∃ ns, ns.length = 10 ∧ ∃ t, Host.Core.run Sys2Proof.core 3 s = .next t ∧
      t.wave = s.wave ++ frameWave (writeFrame (BitVec.ofInt 6 (regionBase r)) ns) ∧
      t.target.cfg = s.target.cfg ∧ t.result = some .ok ∧
      ∀ b, b < (regionBase r).toNat ∨ (regionBase r).toNat + 10 ≤ b → cell t b = cell s b := by
  obtain ⟨ns, hlen, hr⟩ := renderNibbles_negative r s.draws hv
  exact ⟨ns, hlen, _, run_showIn h (by rw [hv]; nofun) hr, rfl, rfl, rfl,
    fun b hb => (get_putAll ns s.target.ram _ b).trans (if_neg (by omega))⟩

end shown

set_option exponentiation.threshold 1024 in
/-- V-R1 and V-R2 in both formats; the range of binary64 ends at `2 ^ 1024` (`maxExp`). -/
theorem scaled_examples (fmt : FloatFmt) :
    scaled fmt (.finite (24543 / 1000)) = .number 2454 ∧ scaled fmt (.finite (71 / 10)) = .number 710 := by
  cases fmt with
  | binary32 | binary64 => with_unfolding_all exact ⟨rfl, rfl⟩

/-- Settles O59: the two operations are `showIn` for the two regions. -/
theorem showNumbers : Obligations.ShowNumbers :=
  ⟨fun _ _ _ _ hv =>
      ⟨fun h => ⟨_, rfl, run_showIn_number (r := .temperature) h hv⟩,
        fun h => ⟨_, rfl, run_showIn_number (r := .humidity) h hv⟩⟩,
    fun _ _ _ hv =>
      ⟨fun h => run_showIn_negative (r := .temperature) h hv,
        fun h =>
          have ⟨ns, hlen, t, hrun, hwave, hcfg, hresult, hcells⟩ := run_showIn_negative (r := .humidity) h hv
          ⟨ns, hlen, t, hrun, hwave, hcfg, hresult, fun b hb => hcells b (.inr hb)⟩⟩,
    fun p _ hv => ⟨checkValue_of_ne_finite p.floatFmt hv, checkValue_of_ne_finite p.floatFmt hv⟩,
    scaled_examples⟩

/-! ## The lamp test and the clears -/

theorem get_putAll_replicate (m : Memory) (a n b : Nat) (v : Nibble) :
    (m.putAll a (List.replicate n v)).get b = if a ≤ b ∧ b < a + n then some v else m.get b := by
  rw [get_putAll, List.length_replicate]
  split_ifs with hb
  · rw [List.getElem?_replicate, if_pos (by omega)]
  · rfl

/-- An operation that expands to `n` copies of one nibble puts it in `n` cells and leaves every other (R187, R188). -/
theorem run_call_rangeAction {op : HostOp} {rest : List Item} {s : State} (a n : Nat) (v : Nibble)
    (h : CanCall op rest s) (hc : ∀ c d, op ≠ .construct c d) (hadm : operandFault s.params op = none)
    (hexp : expand s.params op s.draws = ([rangeAction a n v], 0)) (ha : a ≤ 31) (hfit : a + n ≤ 32) :
    ∃ t, Host.Core.run Sys2Proof.core 3 s = .next t ∧ t.result = some .ok ∧ t.target.cfg = s.target.cfg ∧
      t.wave = s.wave ++ frameWave (writeFrame (BitVec.ofInt 6 a) (List.replicate n v)) ∧
      ∀ b, cell t b = if a ≤ b ∧ b < a + n then some v else cell s b := by
  have hlen : (a : Int) + (List.replicate n v).length ≤ 32 := by
    rw [List.length_replicate]
    omega
  exact ⟨_, run_call_writeAction h hc hadm hexp (by omega) (by omega) hlen, rfl, rfl, rfl,
    fun b => get_putAll_replicate s.target.ram a n b v⟩

/-- An operation that expands to 32 copies of one nibble puts it in every cell (R218, R219). -/
theorem run_call_fillAll {op : HostOp} {rest : List Item} {s : State} (v : Nibble)
    (h : CanCall op rest s) (hc : ∀ c d, op ≠ .construct c d) (hadm : operandFault s.params op = none)
    (hexp : expand s.params op s.draws = ([rangeAction 0 32 v], 0)) :
    ∃ t, Host.Core.run Sys2Proof.core 3 s = .next t ∧ t.result = some .ok ∧ t.target.cfg = s.target.cfg ∧
      t.wave = s.wave ++ frameWave (writeFrame 0 (List.replicate 32 v)) ∧ ∀ b, b < 32 → cell t b = some v := by
  obtain ⟨t, hrun, hresult, hcfg, hwave, hcells⟩ :=
    run_call_rangeAction 0 32 v h hc hadm hexp (by decide) (by decide)
  exact ⟨t, hrun, hresult, hcfg, hwave, fun b hb => (hcells b).trans (if_pos ⟨Nat.zero_le b, by omega⟩)⟩

/-- Settles O60: each operation sends copies of one nibble, to all cells or to its region. -/
theorem rendererFills : Obligations.RendererFills := by
  refine fun rest s => ⟨fun h => run_call_fillAll 0xF h (ne_construct rfl) rfl rfl,
    fun h => run_call_fillAll 0x0 h (ne_construct rfl) rfl rfl, fun h => ?temperature, fun h => ?humidity,
    fun hs op hop => notConstructed.1 op s (ne_construct ?notConstruct) hs⟩
  case temperature =>
    obtain ⟨t, hrun, hresult, hcfg, hwave, hcells⟩ :=
      run_call_rangeAction 0x0A 10 0x0 h (ne_construct rfl) rfl rfl (by decide) (by decide)
    refine ⟨t, hrun, hresult, hcfg, hwave, fun b => (hcells b).trans (if_congr ?_ rfl rfl)⟩
    omega
  case humidity =>
    obtain ⟨t, hrun, hresult, hcfg, hwave, hcells⟩ :=
      run_call_rangeAction 0x00 10 0x0 h (ne_construct rfl) rfl rfl (by decide) (by decide)
    refine ⟨t, hrun, hresult, hcfg, hwave, fun b => (hcells b).trans (if_congr ?_ rfl rfl)⟩
    omega
  case notConstruct => exact (by decide : ∀ o ∈ [HostOp.showAllSegments, .clearAll, .clearTemperatureRegion,
    .clearHumidityRegion], isConstruct o = false) op hop

end Sys2Proof.Machine
end

section
/-! SUPPORT. The obligation of 60_exceptions: a step goes on with its parameters, which are no state (R44), or is the race
of R273. -/

namespace Sys2Proof.Machine

/-! ## The parameters -/

theorem runFrame_params {d : Driver} {f : Frame} {s t : State} (h : runFrame d f s = .next t) : t.params = s.params := by
  rcases runFrame_cases d f s with ⟨-, hf⟩ | ⟨u, hu, hcases⟩
  · rw [h] at hf; cases hf
  · rw [h] at hu
    cases hu
    rcases hcases with ⟨g, rfl⟩ | ⟨g, rfl⟩ | ⟨k, rfl⟩
    · exact (window_keeps g { s with driver := d }).params
    · exact (sendFrame_keeps g { s with driver := d }).params
    · exact refuse_params k s.enc.op { s with driver := d }

theorem construct_params (c d : Lines Bool) (s : State) : (construct c d s).params = s.params := by
  unfold construct
  simp only
  split_ifs
  · cases firstRefused c with
    | some l => rfl
    | none =>
      cases firstRefused d with
      | some l => rfl
      | none => exact (driveHigh_keeps s).params
  · exact refuse_params _ _ s

theorem issue_params (op : HostOp) (s : State) : (issue op s).params = s.params := by
  by_cases hc : ∃ c d, op = .construct c d
  · obtain ⟨c, d, rfl⟩ := hc
    exact construct_params c d s
  · rcases issue_cases op s (fun c d e => hc ⟨c, d, e⟩) with ⟨k, -, h⟩ | ⟨-, h⟩ <;> rw [h] <;> rfl

/-- No step changes the parameters (R44): a power cycle reads them, and takes them over. -/
theorem Stepped.params {s t : State} (h : Stepped s t) : t.params = s.params := by
  cases h with
  | tick => exact (tick_keeps s).params
  | frame f rest _ _ _ hr => exact runFrame_params (s := setTodo rest s) hr
  | sleep q rest => exact (wait_keeps (.sleep q) (setTodo rest s)).params
  | finish => exact finishOp_params s
  | call op rest => exact issue_params op { s with inbox := rest }
  | window f rest _ _ _ _ _ hr => exact runFrame_params (s := { s with inbox := rest }) hr
  | edge l b rest => exact (foreignEdge_keeps l b { s with inbox := rest, driver := .foreign }).params
  | tooShort rest => rw [shortInterval_eq]
  | power rest => rfl
  | wait => rfl

/-! ## The race -/

theorem onQuietWire_lineConflict_iff (s t : State) : onQuietWire s t = .fault .lineConflict ↔ wireBusy s = true := by
  cases hb : wireBusy s with
  | true => exact iff_of_true (onQuietWire_busy t hb) rfl
  | false => exact iff_of_false (by rw [onQuietWire_next t hb]; nofun) nofun

/-- A refused frame moves no line, so it never meets the race. -/
theorem sendChecked_lineConflict_iff (k : Option BlockFault) (f : Frame) (s : State) :
    sendChecked k f s = .fault .lineConflict ↔ wireBusy s = true ∧ s.enc.status = .ready ∧ k = none := by
  by_cases hr : s.enc.status = .ready
  · cases k with
    | some k => exact iff_of_false (by rw [sendChecked_some k f hr]; nofun) nofun
    | none => rw [sendChecked_none f hr, onQuietWire_lineConflict_iff, and_iff_left ⟨hr, rfl⟩]
  · exact iff_of_false (by rw [sendChecked_notReady k f hr]; nofun) (fun ⟨_, hready, _⟩ => hr hready)

theorem exec_lineConflict_iff (i : Instr) (s : State) :
    exec i s = .fault .lineConflict ↔
      wireBusy s = true ∧ (s.driver = .foreign ∨ s.enc.status = .ready ∧ instrFault s.params.codes i = none) := by
  rw [exec_eq_transmit]
  cases hd : s.driver with
  | foreign => rw [transmit_foreign i s hd, onQuietWire_lineConflict_iff, and_iff_left (Or.inl rfl)]
  | encoder => rw [transmit_encoder i s hd, sendChecked_lineConflict_iff, or_iff_right nofun]

/-- Settles O39: what a step can do is `Stepped`, which keeps the parameters, or the stop on a busy wire, and an
instruction meets that stop where its frame would start. -/
theorem everyStepGoesOn : Obligations.EveryStepGoesOn := by
  refine ⟨fun s => ?_, fun i s => ?_⟩
  · rcases step_cases s with ⟨hb, hfault⟩ | ⟨t, hnext, hcase⟩
    · exact Or.inr ⟨hfault, (wireBusy_iff s).mp hb⟩
    · exact Or.inl ⟨t, hnext, hcase.params⟩
  · rw [exec_lineConflict_iff, wireBusy_iff]

end Sys2Proof.Machine
end

section
/-! SUPPORT. The obligations of 70_reset_and_hazards: what power-on gives (R260), and that a power cycle is power-on
(R269). -/

namespace Sys2Proof.Machine

@[simp] theorem cell_powerOn (p : Params) (n : Nat) (inbox : List Item) (a : Nat) :
    cell (State.powerOn p n inbox) a = (Memory.powerOn p.porRam).get a := rfl

/-- With no value in `POR_RAM` every cell is `Unknown` at power-on (R39). -/
theorem cell_powerOn_none {p : Params} (h : p.porRam = []) (n : Nat) (inbox : List Item) (a : Nat) :
    cell (State.powerOn p n inbox) a = none := by
  rw [cell_powerOn, h]
  rfl

/-- The default `POR_CONFIG` (R37) fixes six fields and leaves the other six to the draws. -/
theorem porCfg_drawn (n : Nat) :
    Config.porCfg.drawn n =
      { osc := .off, lcd := .off, timerOut := Config.drawEnable (n + 2), wdtOut := Config.drawEnable (n + 3)
        tone := .off, toneFreq := Config.drawToneFreq (n + 5), clkSrc := .rc256k, bias := Config.drawBias (n + 7)
        com := Config.drawCom (n + 8), irq := .dis, tbFreq := Config.drawTbFreq (n + 10), mode := .normal } := rfl

/-- Settles O43: reset is power-on with the default parameters and the draws from 0 on. -/
theorem resetValues : Obligations.ResetValues :=
  ⟨rfl, rfl, rfl, rfl, rfl, rfl, rfl, rfl, porCfg_drawn 0, rfl, rfl, rfl, rfl, cell_powerOn_none rfl 0 [], rfl, rfl⟩

/-- A power cycle that is taken is power-on with the parameters, the draws from the next on and the calls that wait
outside (R269, R44, log 16). -/
theorem step_powerCycle {s : State} {rest : List Item} (hphase : s.enc.phase = .idle) (htodo : s.enc.todo = [])
    (hop : s.enc.op = none) (hinbox : s.inbox = .powerCycle :: rest) :
    step s = .next (State.powerOn s.params s.draws rest) := step_item s .powerCycle rest hphase htodo hop hinbox

/-- Settles O44: the step answers the state at power-on, which the parameters, the draws and the waiting calls fix. -/
theorem powerCycle_returns_to_reset : Obligations.PowerCycle :=
  fun s rest hphase htodo hop hinbox =>
    ⟨State.powerOn s.params s.draws rest, step_powerCycle hphase htodo hop hinbox, rfl, rfl, rfl, rfl, rfl, rfl,
      cell_powerOn s.params s.draws rest, fun hram => cell_powerOn_none hram s.draws rest, rfl, rfl, rfl, rfl, rfl⟩

end Sys2Proof.Machine
end
